-- ==== Sys2Proof/Word.lean ====
section
/-! DEFINITION. The word types of B64CORE (00_scope.md R7, R9). -/

namespace Sys2Proof

/-- A unit: one 8-bit value on an engine port or in an adapter buffer (00_scope.md R9 and glossary). -/
abbrev Byte := BitVec 8

/-- A 6-bit symbol value, the index of the `ALPHABET` ROM (20_memory.md R26). -/
abbrev Sextet := BitVec 6

/-- The word of the command port (30_encoding.md R45). -/
abbrev CommandWord := BitVec 12

/-- The word of the adapter request port (30_encoding.md R53). -/
abbrev RequestWord := BitVec 3

end Sys2Proof
end

