-- ==== Sys2Proof/Config.lean ====
section
/-! DEFINITION. What an implementation fixes: the encoder's line wrapping (10_state.md R19), and the free values
and open parameters, which have no body. -/

namespace Sys2Proof

/-- The configuration inputs (10_state.md R19): `LINE_WIDTH`, and the separator units `SEP[0..SEP_LEN-1]`.
The length of `sep` is `SEP_LEN`. -/
structure Config where
  lineWidth : Nat
  sep       : List Byte
  deriving DecidableEq, Repr

/-- The default configuration: width 76, the one separator unit 0x0A (00_scope.md R6, 10_state.md R19). -/
def Config.standard : Config := { lineWidth := 76, sep := [0x0A#8] }

/-- FREE VALUE (log 7). What `ENC.COL` holds after an addition whose sum is not below 2^17. 10_state.md R17 shows
that no state reached from reset makes such an addition, and 00_scope.md R7 states no result for it. -/
opaque Config.freeColumn : Nat → BitVec 17

/-- FREE VALUE (log 8). Whether the adapter repeats a recorded error of the reserved kind 3 as `UNDERFLOW` (true) or as
`MALFORMED` (false). 60_exceptions.md R104 and R111 allow these two and 43_adapter.md R92 states neither for kind 3. -/
opaque Config.freeErrorIsUnderflow : Nat → Bool

/-- OPEN parameter (log 15): the quote character of the diagnostic rendering (00_scope.md R6, 60_exceptions.md R123). -/
opaque Config.renderQuote : Byte

/-- OPEN parameter (log 15): `RENDER_HEX_CASE`, true for the digits A to F (00_scope.md R6, 60_exceptions.md R123). -/
opaque Config.renderHexUpper : Bool

end Sys2Proof
end

