-- ==== Sys2Proof/Syntax.lean ====
section
/-! DEFINITION. The commands and requests of the opcode table (30_encoding.md R47, R54) and the events a host presents
to the block (30_encoding.md R44, 70_reset_and_hazards.md R124). -/

namespace Sys2Proof

/-- The two engines (60_exceptions.md R122). -/
inductive Engine where
  | dec
  | enc
  deriving DecidableEq, Repr

/-- One constructor for each row of spec/opcode_table.json. The buffers of an adapter request are no part of its word:
they stand at the adapter request port (30_encoding.md R53). -/
inductive Instr where
  | decStep (u : Byte)
  | decEof
  | decReset
  | decCheck
  | encStep (b : Byte)
  | encEof
  | encReset
  | adpDecTranscode
  | adpDecFlush
  | adpEncTranscode
  | adpEncFlush
  deriving DecidableEq, Repr

/-- The output buffer of an adapter request, `OUT = (cap, data)` (20_memory.md R34). -/
structure OutBuf where
  cap  : Nat
  data : List Byte
  deriving DecidableEq, Repr

/-- One event at the block's boundary: a word on the command port, a word on the adapter request port with its input
cursor and output buffer (30_encoding.md R44), or power-on reset (70_reset_and_hazards.md R124). A FLUSH request
carries an output buffer only (R53): its `input` is the empty list. -/
inductive HostEvent where
  | command (w : CommandWord)
  | request (w : RequestWord) (input : List Byte) (output : OutBuf)
  | powerOn
  deriving DecidableEq, Repr

end Sys2Proof
end

