-- ==== Sys2Proof/WellFormed.lean ====
section
/-! DEFINITION. Well-formed configurations (10_state.md R20), buffers (20_memory.md R34), instructions and events. -/

namespace Sys2Proof

/-- 10_state.md R20: well-formed iff `1 <= LINE_WIDTH <= 65535` and `1 <= SEP_LEN <= 4`. -/
def Config.wf (c : Config) : Bool :=
  decide (1 ≤ c.lineWidth) && decide (c.lineWidth ≤ 65535) && decide (1 ≤ c.sep.length) && decide (c.sep.length ≤ 4)

/-- 20_memory.md R34: `len(OUT.data) <= OUT.cap`. -/
def OutBuf.wf (o : OutBuf) : Bool := decide (o.data.length ≤ o.cap)

/-- Every instruction is well-formed: the only operand of a word is an 8-bit unit, legal at every value
(30_encoding.md R46, 42_encoder.md R75), and the type of the operand says its width. -/
def Instr.wf : Instr → Bool
  | .decStep _ | .decEof | .decReset | .decCheck => true
  | .encStep _ | .encEof | .encReset => true
  | .adpDecTranscode | .adpDecFlush | .adpEncTranscode | .adpEncFlush => true

/-- An event is well-formed when the output buffer it presents is (20_memory.md R34). -/
def HostEvent.wf : HostEvent → Bool
  | .command _ => true
  | .request _ _ output => output.wf
  | .powerOn => true

end Sys2Proof
end

