-- ==== Sys2Proof/Decode.lean ====
section
/-! DEFINITION. Decoding the words of the two ports (30_encoding.md R45 to R50, R53, R54), and the encoder. -/

namespace Sys2Proof

/-- A word on one of the two ports that carry words (30_encoding.md R44). -/
inductive PortWord where
  | command (w : CommandWord)
  | request (w : RequestWord)
  deriving DecidableEq, Repr

/-- Why a word is no instruction: the words R48 reserves on the command port, and those R54 reserves on the request
port. Executing one is `fault IllegalCommand` (60_exceptions.md R108). -/
inductive Reserved where
  | command (w : CommandWord)
  | request (w : RequestWord)
  deriving DecidableEq, Repr

/-- What a word decodes to. -/
inductive Decoded where
  | instr (i : Instr)
  | reserved (r : Reserved)
  deriving DecidableEq, Repr

/-- 30_encoding.md R49, the total decode function of the command port. -/
def decodeCommand (w : CommandWord) : Decoded :=
  if w.extractLsb' 8 4 = 0x0#4 then .instr (.decStep (w.extractLsb' 0 8))
  else if w = 0x100#12 then .instr .decEof
  else if w = 0x200#12 then .instr .decReset
  else if w = 0x400#12 then .instr .decCheck
  else if w.extractLsb' 8 4 = 0x8#4 then .instr (.encStep (w.extractLsb' 0 8))
  else if w = 0x900#12 then .instr .encEof
  else if w = 0xA00#12 then .instr .encReset
  else .reserved (.command w)

/-- 30_encoding.md R54, the adapter opcode map; the four other words are reserved. -/
def decodeRequest (w : RequestWord) : Decoded :=
  if w = 0b000#3 then .instr .adpDecTranscode
  else if w = 0b001#3 then .instr .adpDecFlush
  else if w = 0b100#3 then .instr .adpEncTranscode
  else if w = 0b101#3 then .instr .adpEncFlush
  else .reserved (.request w)

/-- Decoding reads no state (30_encoding.md R50). -/
def decode : PortWord → Decoded
  | .command w => decodeCommand w
  | .request w => decodeRequest w

/-- The fields of the command word, in the order of 30_encoding.md R45: `ENG`, `OP`, `EOF`, `DATA`. -/
def packCommand (eng : BitVec 1) (op : BitVec 2) (eof : BitVec 1) (data : Byte) : CommandWord :=
  eng ++ op ++ eof ++ data

/-- The fields of the request word, in the order of 30_encoding.md R53: `ENG`, `AOP`. -/
def packRequest (eng : BitVec 1) (aop : BitVec 2) : RequestWord := eng ++ aop

/-- The word of an instruction, from the field columns of 30_encoding.md R47 and R54. -/
def encode : Instr → PortWord
  | .decStep u       => .command (packCommand 0#1 0b00#2 0#1 u)
  | .decEof          => .command (packCommand 0#1 0b00#2 1#1 0x00#8)
  | .decReset        => .command (packCommand 0#1 0b01#2 0#1 0x00#8)
  | .decCheck        => .command (packCommand 0#1 0b10#2 0#1 0x00#8)
  | .encStep b       => .command (packCommand 1#1 0b00#2 0#1 b)
  | .encEof          => .command (packCommand 1#1 0b00#2 1#1 0x00#8)
  | .encReset        => .command (packCommand 1#1 0b01#2 0#1 0x00#8)
  | .adpDecTranscode => .request (packRequest 0#1 0b00#2)
  | .adpDecFlush     => .request (packRequest 0#1 0b01#2)
  | .adpEncTranscode => .request (packRequest 1#1 0b00#2)
  | .adpEncFlush     => .request (packRequest 1#1 0b01#2)

/-- The port an opcode-table row of `nbits` bits belongs to, and its word there (log 17). A row of the adapter request
port has 3 bits, one whole byte; a row of the command port has 12 bits, two whole bytes. A number that does not fit the
port's width is no word of it. -/
def tableWord (nbits w : Nat) : Option PortWord :=
  if nbits ≤ 8 then
    if w < 2 ^ 3 then some (.request (BitVec.ofNat 3 w)) else none
  else
    if w < 2 ^ 12 then some (.command (BitVec.ofNat 12 w)) else none

/-- The instruction the decoder reads from an opcode-table word of `nbits` bits. -/
def decodeTableWord (nbits w : Nat) : Option Instr :=
  match tableWord nbits w with
  | none => none
  | some p =>
    match decode p with
    | .instr i => some i
    | .reserved _ => none

end Sys2Proof
end

