-- ==== Sys2Proof/Machine/State.lean ====
section
/-! DEFINITION. The state of B64CORE as plain data (10_state.md R10), the stop reasons, and the state after reset. -/

namespace Sys2Proof.Machine

/-- `DEC.MODE`, 3 bits (10_state.md R12). The codes 6 and 7 are no mode: no rule writes them, and a decoder command that
finds one faults (41_decoder.md R58). -/
inductive DecMode where
  | start
  | second
  | third
  | fourth
  | padding
  | eof
  | illegal6
  | illegal7
  deriving DecidableEq, Repr

/-- `DEC.ERR.KIND`, 2 bits (10_state.md R14). Code 3 is reserved and never written. -/
inductive ErrKind where
  | none
  | invalidSymbol
  | incompleteStream
  | reserved3
  deriving DecidableEq, Repr

/-- `ENC.MODE`, 2 bits (10_state.md R15). Every code is a mode. -/
inductive EncMode where
  | start
  | partial1
  | partial2
  | eof
  deriving DecidableEq, Repr

/-- `FAULT.KIND`, 2 bits (10_state.md R18). Code 3 is reserved and never written. -/
inductive FaultKind where
  | none
  | illegalCommand
  | fatalState
  | reserved3
  deriving DecidableEq, Repr

/-- The decoder's registers (10_state.md R10, R12 to R14). -/
structure DecRegs where
  mode    : DecMode
  acc     : BitVec 18
  errKind : ErrKind
  errCode : BitVec 9
  deriving DecidableEq, Repr

/-- The encoder's registers (10_state.md R10, R15 to R17). -/
structure EncRegs where
  mode : EncMode
  acc  : BitVec 6
  col  : BitVec 17
  deriving DecidableEq, Repr

/-- The block fault register (10_state.md R18). -/
structure FaultReg where
  kind : FaultKind
  info : BitVec 16
  deriving DecidableEq, Repr

/-- The status codes that are ever returned (30_encoding.md R52). -/
inductive Status where
  | ok
  | invalidSymbol
  | incompleteStream
  | sticky
  | fault
  deriving DecidableEq, Repr

/-- The response record of a command (30_encoding.md R51). `units` are the emitted units in order; their number is
`COUNT`. The 47-bit form is `Response.pack` (log 10). -/
structure Response where
  status   : Status
  complete : Bool
  units    : List Byte
  deriving DecidableEq, Repr

/-- The adapter codes that are ever returned (43_adapter.md R94). -/
inductive AdpCode where
  | consumedAll
  | outOfSpace
  | malformed
  | underflow
  | aborted
  deriving DecidableEq, Repr

/-- The adapter result record (43_adapter.md R94). Positions are naturals (log 11). -/
structure AdpResult where
  code     : AdpCode
  position : Nat
  consumed : Nat
  deriving DecidableEq, Repr

/-- What the block gives back: the response of a command, or the result of an adapter request together with the output
buffer, which is the host's (20_memory.md R34; log 19). -/
inductive Reply where
  | response (r : Response)
  | result (r : AdpResult) (out : OutBuf)
  deriving DecidableEq, Repr

/-- Why the machine stops with a fault: never. An error or a fault of B64CORE is a status returned to the host and a
register written, after which the block goes on answering (60_exceptions.md R109, R113), so no constructor stands
here (log 18; safe: nothing is stopped that the spec runs). -/
inductive Fault where
  deriving DecidableEq, Repr

/-- Why the model gives an instruction no meaning. -/
inductive Refusal where
  /-- The instruction of this mnemonic has no meaning yet. Raised by an arm of `exec` only; no arm raises it now. Safe. -/
  | notModelled (mnemonic : String)
  /-- The configuration is ill-formed (10_state.md R20: "A model refuses an ill-formed configuration"). Raised by every
  command, every adapter request and every reserved word under such a configuration. Safe (log 6). -/
  | illFormedConfig
  deriving DecidableEq, Repr

/-- The whole machine. -/
structure State where
  /-- The decoder's registers. -/
  dec       : DecRegs
  /-- The encoder's registers. -/
  enc       : EncRegs
  /-- The block fault register. -/
  fault     : FaultReg
  /-- The configuration inputs, which no step writes (10_state.md R19; log 5). -/
  config    : Config
  /-- `IN.units` of the adapter request port; `IN.n` is its length (20_memory.md R34). -/
  input     : List Byte
  /-- `OUT` of the adapter request port (20_memory.md R34). -/
  output    : OutBuf
  /-- The host's events not yet taken, oldest first (30_encoding.md R55; log 1). -/
  pending   : List HostEvent
  /-- What the block has given back, oldest first (70_reset_and_hazards.md R134; log 1). -/
  replies   : List Reply
  /-- The model's own counter, which the free values are applied to (logs 7 and 8). -/
  freeCount : Nat
  deriving DecidableEq, Repr

/-- The state right after power-on reset, with the default configuration (10_state.md R25, 70_reset_and_hazards.md R124).
The fields that are no register of the block hold the values log 4 names. -/
def State.reset : State where
  dec       := { mode := .start, acc := 0#18, errKind := .none, errCode := 0#9 }
  enc       := { mode := .start, acc := 0#6, col := 0#17 }
  fault     := { kind := .none, info := 0#16 }
  config    := Config.standard
  input     := []
  output    := { cap := 0, data := [] }
  pending   := []
  replies   := []
  freeCount := 0

end Sys2Proof.Machine
end

