-- ==== Sys2Proof/Machine/Flags.lean ====
section
/-! DEFINITION. The codes of modes, kinds and statuses, the completion predicate, and the 47-bit response record
(10_state.md R12 to R22, 30_encoding.md R51, R52, 43_adapter.md R94). -/

namespace Sys2Proof.Machine

/-- The code of `DEC.MODE` (10_state.md R12). -/
def DecMode.code : DecMode → BitVec 3
  | .start    => 0#3
  | .second   => 1#3
  | .third    => 2#3
  | .fourth   => 3#3
  | .padding  => 4#3
  | .eof      => 5#3
  | .illegal6 => 6#3
  | .illegal7 => 7#3

/-- Whether the code of `DEC.MODE` is one of 6 and 7 (10_state.md R12). -/
def DecMode.illegal : DecMode → Bool
  | .illegal6 | .illegal7 => true
  | .start | .second | .third | .fourth | .padding | .eof => false

/-- The completion predicate `DEC.MODE = START or DEC.MODE = EOF` (10_state.md R22). -/
def DecMode.isComplete : DecMode → Bool
  | .start | .eof => true
  | .second | .third | .fourth | .padding | .illegal6 | .illegal7 => false

/-- The code of `DEC.ERR.KIND` (10_state.md R14). -/
def ErrKind.code : ErrKind → BitVec 2
  | .none             => 0#2
  | .invalidSymbol    => 1#2
  | .incompleteStream => 2#2
  | .reserved3        => 3#2

/-- The code of `ENC.MODE` (10_state.md R15). -/
def EncMode.code : EncMode → BitVec 2
  | .start    => 0#2
  | .partial1 => 1#2
  | .partial2 => 2#2
  | .eof      => 3#2

/-- The code of `FAULT.KIND` (10_state.md R18). -/
def FaultKind.code : FaultKind → BitVec 2
  | .none           => 0#2
  | .illegalCommand => 1#2
  | .fatalState     => 2#2
  | .reserved3      => 3#2

/-- Whether a rule reads `DEC.ACC` in this mode. In `START` and `EOF` none does: there it holds a stale value that no
claim may compare (10_state.md R13, R24). -/
def DecMode.readsAcc : DecMode → Bool
  | .start | .eof => false
  | .second | .third | .fourth | .padding | .illegal6 | .illegal7 => true

/-- Whether a rule reads `ENC.ACC` in this mode, as for the decoder (10_state.md R16, R24). -/
def EncMode.readsAcc : EncMode → Bool
  | .start | .eof => false
  | .partial1 | .partial2 => true

/-- Whether a rule reads `ENC.COL` in this mode. After `EOF` nothing reads it again until `ENC.RESET` (10_state.md R24). -/
def EncMode.readsCol : EncMode → Bool
  | .start | .partial1 | .partial2 => true
  | .eof => false

/-- The status codes (30_encoding.md R52). -/
def Status.code : Status → BitVec 3
  | .ok               => 0#3
  | .invalidSymbol    => 1#3
  | .incompleteStream => 2#3
  | .sticky           => 3#3
  | .fault            => 4#3

/-- The adapter codes (43_adapter.md R94). -/
def AdpCode.code : AdpCode → BitVec 3
  | .consumedAll => 0#3
  | .outOfSpace  => 1#3
  | .malformed   => 2#3
  | .underflow   => 3#3
  | .aborted     => 4#3

/-- `OUTi` of a response: the unit emitted at place `i`, or 0 (30_encoding.md R51). -/
def Response.out (r : Response) (i : Nat) : Byte := r.units.getD i 0x00#8

/-- The response record as its 47 bits: `OUT4..OUT0`, `COUNT`, `COMPLETE`, `STATUS` from the top down
(30_encoding.md R51). -/
def Response.pack (r : Response) : BitVec 47 :=
  r.out 4 ++ r.out 3 ++ r.out 2 ++ r.out 1 ++ r.out 0 ++ BitVec.ofNat 3 r.units.length ++ BitVec.ofBool r.complete
    ++ r.status.code

/-- The response of a command that ends with `st` and emits nothing (60_exceptions.md R105, R106, R109). -/
def Response.ofStatus (st : Status) : Response := { status := st, complete := false, units := [] }

/-- The response of a command that ends with `OK` and emits `us` in order (00_scope.md R8). -/
def Response.emitting (us : List Byte) : Response := { status := .ok, complete := false, units := us }

/-- The response of a `DEC.CHECK` that finds the stream complete (41_decoder.md R67). -/
def Response.completed : Response := { status := .ok, complete := true, units := [] }

/-- What 30_encoding.md R51 says of every response: at most 5 units, and with a status other than `OK` no unit and
`COMPLETE = 0`. -/
def Response.wf (r : Response) : Bool :=
  decide (r.units.length ≤ 5) && (decide (r.status = .ok) || (decide (r.units = []) && !r.complete))

end Sys2Proof.Machine
end

