-- ==== Sys2Proof/Machine/Operands.lean ====
section
/-! DEFINITION. What a command reads beside registers: the two lookup ROMs, the symbol classes of the decoder, and the
bit fields of units and accumulators (20_memory.md R26 to R37, 00_scope.md R7). -/

namespace Sys2Proof.Machine

/-- `ALPHABET[0..15]`, the codes of `A` to `P` (20_memory.md R26). -/
def alphabetRow0 : List Byte :=
  [0x41, 0x42, 0x43, 0x44, 0x45, 0x46, 0x47, 0x48, 0x49, 0x4A, 0x4B, 0x4C, 0x4D, 0x4E, 0x4F, 0x50]

/-- `ALPHABET[16..31]`, the codes of `Q` to `Z` and `a` to `f` (20_memory.md R26). -/
def alphabetRow1 : List Byte :=
  [0x51, 0x52, 0x53, 0x54, 0x55, 0x56, 0x57, 0x58, 0x59, 0x5A, 0x61, 0x62, 0x63, 0x64, 0x65, 0x66]

/-- `ALPHABET[32..47]`, the codes of `g` to `v` (20_memory.md R26). -/
def alphabetRow2 : List Byte :=
  [0x67, 0x68, 0x69, 0x6A, 0x6B, 0x6C, 0x6D, 0x6E, 0x6F, 0x70, 0x71, 0x72, 0x73, 0x74, 0x75, 0x76]

/-- `ALPHABET[48..63]`, the codes of `w` to `z`, `0` to `9`, `+` and `/` (20_memory.md R26). -/
def alphabetRow3 : List Byte :=
  [0x77, 0x78, 0x79, 0x7A, 0x30, 0x31, 0x32, 0x33, 0x34, 0x35, 0x36, 0x37, 0x38, 0x39, 0x2B, 0x2F]

/-- The contents of the `ALPHABET` ROM: 64 entries of 8 bits (20_memory.md R26). No step writes it (R32). -/
def alphabetRom : List Byte := alphabetRow0 ++ alphabetRow1 ++ alphabetRow2 ++ alphabetRow3

/-- `ALPHABET[i]` (20_memory.md R26). The ROM has an entry at every 6-bit index. -/
def alphabet (i : Sextet) : Byte := alphabetRom.getD i.toNat 0x00#8

/-- `DECODE[c] = {VALID, VALUE}`, 7 bits: `{1, i}` where `ALPHABET[i] = c`, and `{0, 0}` where there is no such `i`
(20_memory.md R28). -/
def decodeRom (c : Byte) : BitVec 7 :=
  match alphabetRom.findIdx? (fun a => a == c) with
  | some i => 1#1 ++ BitVec.ofNat 6 i
  | none => 0#7

/-- Bit 6 of a `DECODE` entry (20_memory.md R28). -/
def entryValid (e : BitVec 7) : Bool := e.getLsbD 6

/-- Bits 5:0 of a `DECODE` entry (20_memory.md R28). -/
def entryValue (e : BitVec 7) : Sextet := e.extractLsb' 0 6

/-- The padding symbol `=` (20_memory.md R29). -/
def padCode : Byte := 0x3D#8

/-- The whitespace set: tab, newline, form feed, carriage return and space (20_memory.md R30). -/
def whitespaceCodes : List Byte := [0x09#8, 0x0A#8, 0x0C#8, 0x0D#8, 0x20#8]

/-- The class of a data unit (20_memory.md R31). -/
inductive SymClass where
  | pad
  | ws
  | valid (v : Sextet)
  | invalid
  deriving DecidableEq, Repr

/-- 20_memory.md R31. -/
def cls (u : Byte) : SymClass :=
  if u = padCode then .pad
  else if u ∈ whitespaceCodes then .ws
  else if entryValid (decodeRom u) then .valid (entryValue (decodeRom u))
  else .invalid

/-- `((DEC.ACC << 6) | v)[17:0]` (41_decoder.md R61, R62). -/
def accAppend (acc : BitVec 18) (v : Sextet) : BitVec 18 := (acc <<< 6) ||| v.setWidth 18

/-- `tmp = ((zext_24(DEC.ACC) << 6) | v)[23:0]` (41_decoder.md R64). -/
def groupWord (acc : BitVec 18) (v : Sextet) : BitVec 24 := (acc.setWidth 24 <<< 6) ||| v.setWidth 24

/-- `tmp[23:16], tmp[15:8], tmp[7:0]`, most significant byte first (41_decoder.md R64, 20_memory.md R37). -/
def groupBytes (g : BitVec 24) : List Byte := [g.extractLsb' 16 8, g.extractLsb' 8 8, g.extractLsb' 0 8]

/-- `(DEC.ACC >> 4)[7:0]`, the byte of a two-padding group (41_decoder.md R63). -/
def onePaddedByte (acc : BitVec 18) : Byte := (acc >>> 4).extractLsb' 0 8

/-- `(DEC.ACC >> 10)[7:0]` then `(DEC.ACC >> 2)[7:0]`, the bytes of a one-padding group (41_decoder.md R64). -/
def twoPaddedBytes (acc : BitVec 18) : List Byte := [(acc >>> 10).extractLsb' 0 8, (acc >>> 2).extractLsb' 0 8]

/-- `b[7:2]` (42_encoder.md R76). -/
def firstIndex (b : Byte) : Sextet := b.extractLsb' 2 6

/-- `{b[1:0], 0b0000}` (42_encoder.md R76). -/
def pendingTwo (b : Byte) : Sextet := b.extractLsb' 0 2 ++ 0b0000#4

/-- `(ENC.ACC | zext_6(b[7:4]))[5:0]` (42_encoder.md R77). -/
def secondIndex (acc : Sextet) (b : Byte) : Sextet := acc ||| (b.extractLsb' 4 4).setWidth 6

/-- `{b[3:0], 0b00}` (42_encoder.md R77). -/
def pendingFour (b : Byte) : Sextet := b.extractLsb' 0 4 ++ 0b00#2

/-- `(ENC.ACC | zext_6(b[7:6]))[5:0]` (42_encoder.md R78). -/
def thirdIndex (acc : Sextet) (b : Byte) : Sextet := acc ||| (b.extractLsb' 6 2).setWidth 6

/-- `b[5:0]` (42_encoder.md R78). -/
def fourthIndex (b : Byte) : Sextet := b.extractLsb' 0 6

end Sys2Proof.Machine
end

