-- ==== Sys2Proof/Machine/Ops.lean ====
section
/-! DEFINITION. The named operations over the state: writing register groups, answering the host, raising an error or a
fault (60_exceptions.md), the command prologues, the output buffer and the capacity gate (43_adapter.md). -/

namespace Sys2Proof.Machine

/-- Write the decoder's registers. -/
def State.setDec (s : State) (d : DecRegs) : State := { s with dec := d }

/-- Write the encoder's registers. -/
def State.setEnc (s : State) (e : EncRegs) : State := { s with enc := e }

/-- Write the block fault register. -/
def State.setFault (s : State) (f : FaultReg) : State := { s with fault := f }

/-- Put another buffer in the place of `OUT`. -/
def State.setOutput (s : State) (o : OutBuf) : State := { s with output := o }

/-- The host's events not yet taken become `es`. -/
def State.setPending (s : State) (es : List HostEvent) : State := { s with pending := es }

/-- The host presents an input cursor and an output buffer at the request port (30_encoding.md R44). -/
def State.present (s : State) (input : List Byte) (output : OutBuf) : State :=
  { s with input := input, output := output }

/-- Give the host one reply, after all earlier ones (20_memory.md R40). -/
def State.pushReply (s : State) (r : Reply) : State := { s with replies := s.replies ++ [r] }

/-- Advance the counter of the free values (logs 7 and 8). -/
def State.bumpFree (s : State) : State := { s with freeCount := s.freeCount + 1 }

/-- Power-on reset: every register takes the value of the reset column of 10_state.md R25, and the configuration stays
as configured (70_reset_and_hazards.md R124). The host's buffers, events and replies are no register of the block
(log 14). -/
def State.powerOnReset (s : State) : State :=
  { s with dec := State.reset.dec, enc := State.reset.enc, fault := State.reset.fault }

/-- `fault K(info)`, the one place a block fault is taken: the first fault is recorded and every one answers status
`FAULT` (60_exceptions.md R109). -/
def raiseFault (kind : FaultKind) (info : BitVec 16) (s : State) : State × Response :=
  (if s.fault.kind = .none then s.setFault { kind := kind, info := info } else s, .ofStatus .fault)

/-- Record a recoverable error in `DEC.ERR` and end the command with the status that names it; no other register is
written (60_exceptions.md R105, R106, R112). -/
def raiseError (kind : ErrKind) (code : BitVec 9) (st : Status) (s : State) : State × Response :=
  (s.setDec { s.dec with errKind := kind, errCode := code }, .ofStatus st)

/-- `raise InvalidSymbol(c)` (60_exceptions.md R105). -/
def raiseInvalidSymbol (c : Byte) (s : State) : State × Response :=
  raiseError .invalidSymbol (c.setWidth 9) .invalidSymbol s

/-- `raise IncompleteStream()` (60_exceptions.md R106). -/
def raiseIncompleteStream (s : State) : State × Response :=
  raiseError .incompleteStream 0x100#9 .incompleteStream s

/-- `FAULT.INFO` of a fatal state: `0x4000 | (eng << 3) | mode` (10_state.md R18). -/
def fatalInfo (eng : BitVec 1) (mode : BitVec 3) : BitVec 16 :=
  0x4000#16 ||| (eng.setWidth 16 <<< 3) ||| mode.setWidth 16

/-- `FAULT.INFO` of an illegal command: `zext_16(w)`, or `0x8000 | zext_16(request)` (60_exceptions.md R108). -/
def illegalInfo : Reserved → BitVec 16
  | .command w => w.setWidth 16
  | .request w => 0x8000#16 ||| w.setWidth 16

/-- The encoder's prologue, which every command but a decoder one shares: a faulted block answers `FAULT` and does
nothing (42_encoder.md R74, 60_exceptions.md R109). -/
def unlessFaulted (s : State) (body : State × Response) : State × Response :=
  if s.fault.kind ≠ .none then (s, .ofStatus .fault) else body

/-- The decoder's prologue, in the order of 41_decoder.md R58: the faulted block, the illegal mode, the recorded
error. -/
def decPrologue (s : State) (body : State × Response) : State × Response :=
  unlessFaulted s
    (if s.dec.mode.illegal then raiseFault .fatalState (fatalInfo 0#1 s.dec.mode.code) s
     else if s.dec.errKind ≠ .none then (s, .ofStatus .sticky)
     else body)

/-- Run the body of a command and give its response to the host. Under an ill-formed configuration no command has a
meaning (10_state.md R20; log 6). -/
def answerCommand (body : State → State × Response) (s : State) : Host.Outcome State Fault Refusal :=
  if s.config.wf then .next ((body s).1.pushReply (.response (body s).2)) else .refused .illFormedConfig

/-- Run the body of an adapter request and give its result, with the output buffer, to the host (43_adapter.md R94).
Under an ill-formed configuration no request has a meaning (10_state.md R20; log 6). -/
def answerRequest (body : State → State × AdpResult) (s : State) : Host.Outcome State Fault Refusal :=
  if s.config.wf then .next ((body s).1.pushReply (.result (body s).2 (body s).1.output))
  else .refused .illFormedConfig

/-- A reserved word executes as `fault IllegalCommand`: status `FAULT` on the command port, `(ABORTED, 0, 0)` on the
request port (30_encoding.md R48, R54, 43_adapter.md R99, 60_exceptions.md R108). -/
def execReserved (r : Reserved) (s : State) : Host.Outcome State Fault Refusal :=
  match r with
  | .command w => answerCommand (raiseFault .illegalCommand (illegalInfo (.command w))) s
  | .request w =>
    answerRequest
      (fun s => ((raiseFault .illegalCommand (illegalInfo (.request w)) s).1,
        { code := .aborted, position := 0, consumed := 0 })) s

/-- `ENC.COL <- ENC.COL + n` (42_encoder.md R76 to R80). Where the sum does not fit the 17 bits, which 10_state.md R17
excludes from reset, the register takes a free value (log 7). -/
def addColumn (n : Nat) (s : State) : State :=
  if s.enc.col.toNat + n < 2 ^ 17 then s.setEnc { s.enc with col := BitVec.ofNat 17 (s.enc.col.toNat + n) }
  else (s.setEnc { s.enc with col := Config.freeColumn s.freeCount }).bumpFree

/-- `remaining(OUT) = OUT.cap - len(OUT.data)` (20_memory.md R34). A buffer that holds more than its capacity has no
room (log 12). -/
def remaining (o : OutBuf) : Nat := o.cap - o.data.length

/-- `AppendOut` of each unit of a response in order (43_adapter.md R89). -/
def appendOut (us : List Byte) (s : State) : State :=
  s.setOutput { s.output with data := s.output.data ++ us }

/-- `RESERVE(e)`: 3 for the decoder, `max(3, SEP_LEN + 1)` for the encoder (43_adapter.md R90). -/
def reserve (e : Engine) (c : Config) : Nat :=
  match e with
  | .dec => 3
  | .enc => max 3 (c.sep.length + 1)

end Sys2Proof.Machine
end

