-- ==== Sys2Proof/Machine/Decoder.lean ====
section
/-! DEFINITION. The decoder engine: `DEC.STEP`, `DEC.EOF`, `DEC.CHECK`, `DEC.RESET` (41_decoder.md). -/

namespace Sys2Proof.Machine

/-- `DEC.STEP u` in `START` (41_decoder.md R60). -/
def decStart (u : Byte) (s : State) : State × Response :=
  match cls u with
  | .pad     => raiseInvalidSymbol u s
  | .ws      => (s, .emitting [])
  | .valid v => (s.setDec { s.dec with acc := v.setWidth 18, mode := .second }, .emitting [])
  | .invalid => raiseInvalidSymbol u s

/-- `DEC.STEP u` in `SECOND` (41_decoder.md R61). -/
def decSecond (u : Byte) (s : State) : State × Response :=
  match cls u with
  | .pad     => raiseInvalidSymbol u s
  | .ws      => raiseInvalidSymbol u s
  | .valid v => (s.setDec { s.dec with acc := accAppend s.dec.acc v, mode := .third }, .emitting [])
  | .invalid => raiseInvalidSymbol u s

/-- `DEC.STEP u` in `THIRD` (41_decoder.md R62). -/
def decThird (u : Byte) (s : State) : State × Response :=
  match cls u with
  | .pad     => (s.setDec { s.dec with mode := .padding }, .emitting [])
  | .ws      => raiseInvalidSymbol u s
  | .valid v => (s.setDec { s.dec with acc := accAppend s.dec.acc v, mode := .fourth }, .emitting [])
  | .invalid => raiseInvalidSymbol u s

/-- `DEC.STEP u` in `PADDING` (41_decoder.md R63). -/
def decPadding (u : Byte) (s : State) : State × Response :=
  match cls u with
  | .pad     => (s.setDec { s.dec with mode := .start }, .emitting [onePaddedByte s.dec.acc])
  | .ws      => raiseInvalidSymbol u s
  | .valid _ => raiseInvalidSymbol u s
  | .invalid => raiseInvalidSymbol u s

/-- `DEC.STEP u` in `FOURTH` (41_decoder.md R64). -/
def decFourth (u : Byte) (s : State) : State × Response :=
  match cls u with
  | .pad     => (s.setDec { s.dec with mode := .start }, .emitting (twoPaddedBytes s.dec.acc))
  | .ws      => raiseInvalidSymbol u s
  | .valid v => (s.setDec { s.dec with mode := .start }, .emitting (groupBytes (groupWord s.dec.acc v)))
  | .invalid => raiseInvalidSymbol u s

/-- `DecStep(u)` (41_decoder.md R59; `EOF` by R65). The prologue answers in the illegal modes before this dispatch is
reached. -/
def decStep (u : Byte) (s : State) : State × Response :=
  decPrologue s
    (match s.dec.mode with
     | .start    => decStart u s
     | .second   => decSecond u s
     | .third    => decThird u s
     | .fourth   => decFourth u s
     | .padding  => decPadding u s
     | .eof      => (s, .emitting [])
     | .illegal6 => raiseFault .fatalState (fatalInfo 0#1 s.dec.mode.code) s
     | .illegal7 => raiseFault .fatalState (fatalInfo 0#1 s.dec.mode.code) s)

/-- `DecEof()` (41_decoder.md R66). -/
def decEof (s : State) : State × Response :=
  decPrologue s
    (match s.dec.mode with
     | .start    => (s.setDec { s.dec with mode := .eof }, .emitting [])
     | .second   => raiseIncompleteStream s
     | .third    => raiseIncompleteStream s
     | .fourth   => raiseIncompleteStream s
     | .padding  => raiseIncompleteStream s
     | .eof      => (s, .emitting [])
     | .illegal6 => raiseFault .fatalState (fatalInfo 0#1 s.dec.mode.code) s
     | .illegal7 => raiseFault .fatalState (fatalInfo 0#1 s.dec.mode.code) s)

/-- `DecCheck()` (41_decoder.md R67). -/
def decCheck (s : State) : State × Response :=
  decPrologue s (if s.dec.mode.isComplete then (s, .completed) else raiseIncompleteStream s)

/-- `DecReset()` (41_decoder.md R68). It does not run the decoder's prologue. -/
def decReset (s : State) : State × Response :=
  unlessFaulted s (s.setDec { mode := .start, acc := 0#18, errKind := .none, errCode := 0#9 }, .emitting [])

/-- `DEC.STEP u`. -/
def execDecStep (u : Byte) (s : State) : Host.Outcome State Fault Refusal := answerCommand (decStep u) s

/-- `DEC.EOF`. -/
def execDecEof (s : State) : Host.Outcome State Fault Refusal := answerCommand decEof s

/-- `DEC.CHECK`. -/
def execDecCheck (s : State) : Host.Outcome State Fault Refusal := answerCommand decCheck s

/-- `DEC.RESET`. -/
def execDecReset (s : State) : Host.Outcome State Fault Refusal := answerCommand decReset s

end Sys2Proof.Machine
end

