-- ==== Sys2Proof/Machine/Encoder.lean ====
section
/-! DEFINITION. The encoder engine: `ENC.STEP`, `ENC.EOF`, `ENC.RESET` (42_encoder.md). -/

namespace Sys2Proof.Machine

/-- Whether the start of a group must break the line first: `ENC.COL >= LINE_WIDTH`, unsigned (42_encoder.md R76). -/
def mustWrap (s : State) : Bool := decide (s.config.lineWidth ≤ s.enc.col.toNat)

/-- `ENC.STEP b` in `START` (42_encoder.md R76). -/
def encStart (b : Byte) (s : State) : State × Response :=
  let broken := if mustWrap s then s.setEnc { s.enc with col := 0#17 } else s
  let counted := addColumn 1 broken
  (counted.setEnc { counted.enc with acc := pendingTwo b, mode := .partial1 },
    .emitting ((if mustWrap s then s.config.sep else []) ++ [alphabet (firstIndex b)]))

/-- `ENC.STEP b` in `PARTIAL_1` (42_encoder.md R77). -/
def encPartial1 (b : Byte) (s : State) : State × Response :=
  let counted := addColumn 1 s
  (counted.setEnc { counted.enc with acc := pendingFour b, mode := .partial2 },
    .emitting [alphabet (secondIndex s.enc.acc b)])

/-- `ENC.STEP b` in `PARTIAL_2` (42_encoder.md R78). -/
def encPartial2 (b : Byte) (s : State) : State × Response :=
  let counted := addColumn 2 s
  (counted.setEnc { counted.enc with mode := .start },
    .emitting [alphabet (thirdIndex s.enc.acc b), alphabet (fourthIndex b)])

/-- `EncStep(b)` (42_encoder.md R75; `EOF` by R79). -/
def encStep (b : Byte) (s : State) : State × Response :=
  unlessFaulted s
    (match s.enc.mode with
     | .start    => encStart b s
     | .partial1 => encPartial1 b s
     | .partial2 => encPartial2 b s
     | .eof      => (s, .emitting []))

/-- `ENC.EOF` with pending bits: the last symbol, then `pads` padding symbols (42_encoder.md R80). -/
def encFlushGroup (pads : Nat) (s : State) : State × Response :=
  let counted := addColumn (1 + pads) s
  (counted.setEnc { counted.enc with mode := .eof },
    .emitting (alphabet s.enc.acc :: List.replicate pads padCode))

/-- `EncEof()` (42_encoder.md R80). -/
def encEof (s : State) : State × Response :=
  unlessFaulted s
    (match s.enc.mode with
     | .start    => (s.setEnc { s.enc with mode := .eof }, .emitting [])
     | .partial1 => encFlushGroup 2 s
     | .partial2 => encFlushGroup 1 s
     | .eof      => (s, .emitting []))

/-- `EncReset()` (42_encoder.md R81). -/
def encReset (s : State) : State × Response :=
  unlessFaulted s (s.setEnc { mode := .start, acc := 0#6, col := 0#17 }, .emitting [])

/-- `ENC.STEP b`. -/
def execEncStep (b : Byte) (s : State) : Host.Outcome State Fault Refusal := answerCommand (encStep b) s

/-- `ENC.EOF`. -/
def execEncEof (s : State) : Host.Outcome State Fault Refusal := answerCommand encEof s

/-- `ENC.RESET`. -/
def execEncReset (s : State) : Host.Outcome State Fault Refusal := answerCommand encReset s

end Sys2Proof.Machine
end

