-- ==== Sys2Proof/Machine/Adapter.lean ====
section
/-! DEFINITION. The buffer adapter: TRANSCODE and FLUSH for either engine (43_adapter.md). -/

namespace Sys2Proof.Machine

/-- The engine step of one unit (43_adapter.md R92). -/
def engineStep (e : Engine) (u : Byte) (s : State) : State × Response :=
  match e with
  | .dec => decStep u s
  | .enc => encStep u s

/-- The engine step of the end-of-input sentinel (43_adapter.md R93). -/
def engineEof (e : Engine) (s : State) : State × Response :=
  match e with
  | .dec => decEof s
  | .enc => encEof s

/-- The error a request must repeat because the engine holds one, with the state after it: `errResult(DEC.ERR.KIND)`
for the decoder, and nothing for the encoder, which records no error (43_adapter.md R92, R97). For the reserved kind 3
the code is a free value between the two (93 X4, 60_exceptions.md R111; log 8). -/
def heldError (e : Engine) (s : State) : Option (State × AdpCode) :=
  match e with
  | .enc => none
  | .dec =>
    match s.dec.errKind with
    | .none             => none
    | .invalidSymbol    => some (s, .malformed)
    | .incompleteStream => some (s, .underflow)
    | .reserved3        => some (s.bumpFree, if Config.freeErrorIsUnderflow s.freeCount then .underflow else .malformed)

/-- The adapter code of the status of an engine step (60_exceptions.md R104, 43_adapter.md R92, R93). A step the adapter
runs never answers `STICKY`, since a recorded error ends the request before the step; that line is never reached
(log 13). -/
def stepCode : Status → AdpCode
  | .ok               => .consumedAll
  | .invalidSymbol    => .malformed
  | .incompleteStream => .underflow
  | .sticky           => .aborted
  | .fault            => .aborted

/-- The result `(CODE, k, k)`: a position always equals the number of units consumed (43_adapter.md R95). -/
def stoppedAt (code : AdpCode) (k : Nat) : AdpResult := { code := code, position := k, consumed := k }

/-- The loop of `AdpTranscode` (43_adapter.md R92) on the units of `IN` from offset `k` on: the fault, the end of the
input, the recorded error, the capacity gate (R91), then the step. -/
def transcodeFrom (e : Engine) : List Byte → Nat → State → State × AdpResult
  | [], k, s => (s, stoppedAt (if s.fault.kind ≠ .none then .aborted else .consumedAll) k)
  | u :: us, k, s =>
    if s.fault.kind ≠ .none then (s, stoppedAt .aborted k)
    else
      match heldError e s with
      | some (t, code) => (t, stoppedAt code k)
      | none =>
        if remaining s.output < reserve e s.config then (s, stoppedAt .outOfSpace k)
        else if (engineStep e u s).2.status = .ok then
          transcodeFrom e us (k + 1) (appendOut (engineStep e u s).2.units (engineStep e u s).1)
        else ((engineStep e u s).1, stoppedAt (stepCode (engineStep e u s).2.status) k)

/-- `AdpTranscode(e, IN, OUT)` (43_adapter.md R92). -/
def transcode (e : Engine) (s : State) : State × AdpResult := transcodeFrom e s.input 0 s

/-- `AdpFlush(e, OUT)` (43_adapter.md R93). -/
def flush (e : Engine) (s : State) : State × AdpResult :=
  if s.fault.kind ≠ .none then (s, stoppedAt .aborted 0)
  else
    match heldError e s with
    | some (t, code) => (t, stoppedAt code 0)
    | none =>
      if remaining s.output < reserve e s.config then (s, stoppedAt .outOfSpace 0)
      else if (engineEof e s).2.status = .ok then
        (appendOut (engineEof e s).2.units (engineEof e s).1, stoppedAt .consumedAll 0)
      else ((engineEof e s).1, stoppedAt (stepCode (engineEof e s).2.status) 0)

/-- `ADP.DEC.TRANSCODE`. -/
def execAdpDecTranscode (s : State) : Host.Outcome State Fault Refusal := answerRequest (transcode .dec) s

/-- `ADP.DEC.FLUSH`. -/
def execAdpDecFlush (s : State) : Host.Outcome State Fault Refusal := answerRequest (flush .dec) s

/-- `ADP.ENC.TRANSCODE`. -/
def execAdpEncTranscode (s : State) : Host.Outcome State Fault Refusal := answerRequest (transcode .enc) s

/-- `ADP.ENC.FLUSH`. -/
def execAdpEncFlush (s : State) : Host.Outcome State Fault Refusal := answerRequest (flush .enc) s

end Sys2Proof.Machine
end

