-- ==== Sys2Proof/Machine/Dispatch.lean ====
section
/-! DEFINITION. One arm per instruction. -/

namespace Sys2Proof.Machine

def exec (i : Instr) (s : State) : Host.Outcome State Fault Refusal :=
  match i with
  | .decStep u => Sys2Proof.Machine.execDecStep u s
  | .decEof => Sys2Proof.Machine.execDecEof s
  | .decReset => Sys2Proof.Machine.execDecReset s
  | .decCheck => Sys2Proof.Machine.execDecCheck s
  | .encStep b => Sys2Proof.Machine.execEncStep b s
  | .encEof => Sys2Proof.Machine.execEncEof s
  | .encReset => Sys2Proof.Machine.execEncReset s
  | .adpDecTranscode => Sys2Proof.Machine.execAdpDecTranscode s
  | .adpDecFlush => Sys2Proof.Machine.execAdpDecFlush s
  | .adpEncTranscode => Sys2Proof.Machine.execAdpEncTranscode s
  | .adpEncFlush => Sys2Proof.Machine.execAdpEncFlush s

end Sys2Proof.Machine
end

