-- ==== Sys2Proof/Machine/Port.lean ====
section
/-! DEFINITION. What one event at the block's boundary does (30_encoding.md R44, R50, 70_reset_and_hazards.md R124). -/

namespace Sys2Proof.Machine

/-- Decode a word and run what it decodes to; a reserved word executes as a fault (30_encoding.md R48, R54). -/
def runWord (p : PortWord) (s : State) : Host.Outcome State Fault Refusal :=
  match decode p with
  | .instr i    => exec i s
  | .reserved r => execReserved r s

/-- Take one event: a command word, a request word with the buffers presented beside it, or power-on reset. -/
def runEvent (ev : HostEvent) (s : State) : Host.Outcome State Fault Refusal :=
  match ev with
  | .command w              => runWord (.command w) s
  | .request w input output => runWord (.request w) (s.present input output)
  | .powerOn                => .next s.powerOnReset

/-- The event that presents a word: a command, or a request with the buffers that stand at the request port. -/
def eventOfWord (s : State) : PortWord → HostEvent
  | .command w => .command w
  | .request w => .request w s.input s.output

/-- The word of an opcode-table row of `nbits` bits, cut to its port's width (log 17). -/
def portWordOf (nbits w : Nat) : PortWord :=
  if nbits ≤ 8 then .request (BitVec.ofNat 3 w) else .command (BitVec.ofNat 12 w)

end Sys2Proof.Machine
end

