-- ==== Sys2Proof/Machine/Step.lean ====
section
/-! DEFINITION. One step of the machine, and the presentation of a word to it. -/

namespace Sys2Proof.Machine

/-- Take the oldest pending event. With none the block is idle and its state survives unchanged (60_exceptions.md
R121; log 3). -/
def step (s : State) : Host.Outcome State Fault Refusal :=
  match s.pending with
  | []         => .next s
  | ev :: rest => runEvent ev (s.setPending rest)

/-- The host presents the word `w` next, before every event that is pending. A request word comes with the buffers that
stand at the request port (log 2, log 17). -/
def State.withFetchWord (s : State) (nbits w : Nat) : State :=
  s.setPending (eventOfWord s (portWordOf nbits w) :: s.pending)

end Sys2Proof.Machine
end

