-- ==== Sys2Proof/Machine/Render.lean ====
section
/-! DEFINITION. The diagnostic rendering of an error unit, a host function of `DEC.ERR.CODE` (60_exceptions.md R123). No
command reads it. -/

namespace Sys2Proof.Machine

/-- What the rendering gives: the units of a text, `NO_SYMBOL`, or nothing for a code above 0x100, which R123 marks
unreachable. -/
inductive Rendering where
  | text (units : List Byte)
  | noSymbol
  | unreachable
  deriving DecidableEq, Repr

/-- The unit of the hexadecimal digit `d`, in the case `upper` says (60_exceptions.md R123, `RENDER_HEX_CASE`). -/
def hexDigit (upper : Bool) (d : BitVec 4) : Byte :=
  if d.toNat < 10 then BitVec.ofNat 8 (0x30 + d.toNat)
  else if upper then BitVec.ofNat 8 (0x41 + (d.toNat - 10))
  else BitVec.ofNat 8 (0x61 + (d.toNat - 10))

/-- `hex2(code, RENDER_HEX_CASE)`: the two digits of a code up to 0xFF (60_exceptions.md R123). -/
def hexPair (upper : Bool) (code : BitVec 9) : List Byte :=
  [hexDigit upper (code.extractLsb' 4 4), hexDigit upper (code.extractLsb' 0 4)]

/-- `render(code)`, its tests in the order of 60_exceptions.md R123. The unit 0x5C is the backslash. -/
def renderWith (quote : Byte) (upper : Bool) (code : BitVec 9) : Rendering :=
  if code = 0x100#9 then .noSymbol
  else if code = 0x0D#9 then .text [0x5C#8, 0x72#8]
  else if code = 0x0A#9 then .text [0x5C#8, 0x6E#8]
  else if code = 0x09#9 then .text [0x5C#8, 0x74#8]
  else if code = 0x0C#9 then .text [0x5C#8, 0x66#8]
  else if 0x20 ≤ code.toNat ∧ code.toNat ≤ 0x7E then .text [quote, code.setWidth 8, quote]
  else if code.toNat ≤ 0xFF then .text ([0x5C#8, 0x78#8] ++ hexPair upper code)
  else .unreachable

/-- `render(code)` with the two open parameters (00_scope.md R6; log 15). -/
def render (code : BitVec 9) : Rendering := renderWith Config.renderQuote Config.renderHexUpper code

end Sys2Proof.Machine
end

