-- ==== Sys2Proof/Machine/Pseudo.lean ====
section
/-! DEFINITION. The pseudo-instructions of 30_encoding.md R57, which are the host's: every one is a sequence of commands. And
what the replies of commands have emitted. -/

namespace Sys2Proof.Machine

/-- The status of the last reply, where it is the response of a command. -/
def lastStatus (s : State) : Option Status :=
  match s.replies.getLast? with
  | some (.response r) => some r.status
  | some (.result _ _) => none
  | none => none

/-- Issue `mk u` for each unit in order, and stop at the first whose response is not `OK` (30_encoding.md R57). -/
def feed (mk : Byte → Instr) : List Byte → State → Host.Outcome State Fault Refusal
  | [], s => .next s
  | u :: us, s =>
    match exec (mk u) s with
    | .next t    => if lastStatus t = some .ok then feed mk us t else .next t
    | .fault r   => .fault r
    | .refused r => .refused r

/-- `DEC.FEED` (30_encoding.md R57). -/
def decFeed (us : List Byte) (s : State) : Host.Outcome State Fault Refusal := feed .decStep us s

/-- `ENC.FEED` (30_encoding.md R57). -/
def encFeed (bs : List Byte) (s : State) : Host.Outcome State Fault Refusal := feed .encStep bs s

/-- The concatenation of every response's units, in issue order (70_reset_and_hazards.md R134). -/
def emitted (s : State) : List Byte :=
  s.replies.flatMap fun
    | .response r => r.units
    | .result _ _ => []

end Sys2Proof.Machine
end

