-- ==== Sys2Proof/Machine/Run.lean ====
section
/-! DEFINITION. A run of a host program and what it ends with: the registers, together with the concatenated output
(70_reset_and_hazards.md R134). -/

namespace Sys2Proof.Machine

/-- The end of a run: the state, whose registers are the rule's end state, and the concatenation of every response's units
and of every unit the requests appended, in issue order (70_reset_and_hazards.md R134; log 22). -/
structure RunEnd where
  state  : State
  output : List Byte
  deriving DecidableEq, Repr

/-- The start of a run at `s`, with no output yet. -/
def RunEnd.start (s : State) : RunEnd := { state := s, output := [] }

/-- The units that the commands issued between `s` and the later state `t` emitted. -/
def emittedSince (s t : State) : List Byte := (emitted t).drop (emitted s).length

/-- What one event adds to the output of a run: the units of its response, or the units its request appended to the buffer
it presented, which stand after those the buffer already held (20_memory.md R34). -/
def eventOutput (ev : HostEvent) (s t : State) : List Byte :=
  match ev with
  | .command _          => emittedSince s t
  | .request _ _ output => t.output.data.drop output.data.length
  | .powerOn            => []

/-- Issue one event of a run. -/
def runOne (ev : HostEvent) (e : RunEnd) : Host.Outcome RunEnd Fault Refusal :=
  match runEvent ev e.state with
  | .next t    => .next { state := t, output := e.output ++ eventOutput ev e.state t }
  | .fault r   => .fault r
  | .refused r => .refused r

/-- Issue the events of a program in order. The run ends when the host issues no further one; the block has no halt
(70_reset_and_hazards.md R134). -/
def runHost : List HostEvent → RunEnd → Host.Outcome RunEnd Fault Refusal
  | [], e => .next e
  | ev :: evs, e =>
    match runOne ev e with
    | .next e'   => runHost evs e'
    | .fault r   => .fault r
    | .refused r => .refused r

/-- The units a reply carries: those of a response, and for a request those in the buffer it hands back, which the host
drains (70_reset_and_hazards.md R134). -/
def Reply.units : Reply → List Byte
  | .response r   => r.units
  | .result _ out => out.data

/-- The event that issues `i` with the given buffers: its word on the port it belongs to. -/
def eventOfInstr (i : Instr) (input : List Byte) (output : OutBuf) : HostEvent :=
  match encode i with
  | .command w => .command w
  | .request w => .request w input output

/-- The event that issues a command. -/
def commandEvent (i : Instr) : HostEvent := eventOfInstr i [] { cap := 0, data := [] }

end Sys2Proof.Machine
end

