-- ==== Sys2Proof/Safety.lean ====
section
/-! DEFINITION. What a sound state and a safe run are: the bounds the spec derives for every state reached from reset
(10_state.md R12 to R18), and the absence of an error. -/

namespace Sys2Proof.Machine

/-- The decoder's registers as 10_state.md R12 to R14 say they are in a state reached from reset: a legal mode, the bound
of `DEC.ACC` in that mode, no reserved kind, and the code each kind goes with. -/
def DecRegs.sound (d : DecRegs) : Bool :=
  !d.mode.illegal
    && (match d.mode with
        | .second => decide (d.acc.toNat < 2 ^ 6)
        | .third | .padding => decide (d.acc.toNat < 2 ^ 12)
        | .start | .fourth | .eof | .illegal6 | .illegal7 => true)
    && (match d.errKind with
        | .none => decide (d.errCode = 0#9)
        | .invalidSymbol => decide (d.errCode.toNat < 0x100)
        | .incompleteStream => decide (d.errCode = 0x100#9)
        | .reserved3 => false)

/-- The encoder's registers as 10_state.md R16 and R17 say they are in a state reached from reset, with the bound of the
column in each mode: at the start of a group `ENC.COL` may reach `LINE_WIDTH + 3`, inside one it is smaller. -/
def EncRegs.sound (e : EncRegs) (lineWidth : Nat) : Bool :=
  match e.mode with
  | .start | .eof => decide (e.col.toNat ≤ lineWidth + 3)
  | .partial1 => decide (e.acc.toNat % 16 = 0) && decide (1 ≤ e.col.toNat) && decide (e.col.toNat ≤ lineWidth)
  | .partial2 => decide (e.acc.toNat % 4 = 0) && decide (2 ≤ e.col.toNat) && decide (e.col.toNat ≤ lineWidth + 1)

/-- The fault register as 10_state.md R18 and 60_exceptions.md R107 and R108 say it is in a state reached from reset: no
fault and 0, or an illegal command and its word. `FATAL_STATE` is unreachable from reset. -/
def FaultReg.sound (f : FaultReg) : Bool :=
  match f.kind with
  | .none => decide (f.info = 0#16)
  | .illegalCommand =>
    decide (f.info.toNat < 0x1000) || (decide (0x8000 ≤ f.info.toNat) && decide (f.info.toNat < 0x8008))
  | .fatalState | .reserved3 => false

/-- What 30_encoding.md R51 and 43_adapter.md R95 say of every reply, and 20_memory.md R34 of the buffer handed back. -/
def Reply.sound : Reply → Bool
  | .response r => r.wf
  | .result r out => decide (r.position = r.consumed) && out.wf

/-- The registers of the block are sound. -/
def registersSound (s : State) : Bool :=
  s.dec.sound && s.enc.sound s.config.lineWidth && s.fault.sound

/-- The host's side is sound: every buffer presented or waiting is a buffer (20_memory.md R34), and every reply given is
a reply. -/
def portsSound (s : State) : Bool :=
  s.output.wf && s.pending.all HostEvent.wf && s.replies.all Reply.sound

/-- The states are the same in every field but a stale accumulator: in `START` and `EOF` no rule reads it, and 10_state.md R24
and 90_conflicts.md C11 allow no claim that compares it (log 20). -/
def SameButStale (u t : State) : Prop :=
  u = { t with dec := { t.dec with acc := u.dec.acc }, enc := { t.enc with acc := u.enc.acc } } ∧
    (t.dec.mode.readsAcc = true → u.dec.acc = t.dec.acc) ∧ (t.enc.mode.readsAcc = true → u.enc.acc = t.enc.acc)

/-- The outcome is a next state, and it is `t` in every field but a stale accumulator. -/
def Answers (o : Host.Outcome State Fault Refusal) (t : State) : Prop := ∃ u, o = .next u ∧ SameButStale u t

/-- No error is recorded and the block is not faulted. -/
def undisturbed (s : State) : Bool := decide (s.dec.errKind = .none) && decide (s.fault.kind = .none)

/-- A run is safe while every state it passes is sound and undisturbed. -/
def safe (s : State) : Bool := registersSound s && portsSound s && undisturbed s

end Sys2Proof.Machine
end

