-- ==== Sys2Proof/Certificates/Slice0/Obligations.lean ====
section
/-! DEFINITION. The statements for the provers. Expected values are written from the spec's formulas with natural numbers,
not with the model's own bit operations. -/

namespace Sys2Proof.Claims

open Sys2Proof.Machine

/-! ## Words of the statements -/

/-- The configuration is well-formed and the block is not faulted: the conditions under which every engine command but a
decoder one has its effect. -/
abbrev Running (s : State) : Prop := s.config.wf = true ∧ s.fault.kind = .none

/-- `Running`, and the decoder holds a legal mode and no error. -/
abbrev DecLive (s : State) : Prop := Running s ∧ s.dec.mode.illegal = false ∧ s.dec.errKind = .none

/-- The state `t` with one more response given to the host. -/
def answered (t : State) (r : Response) : State := { t with replies := t.replies ++ [.response r] }

/-- The state `t` with one more adapter result given to the host, with the output buffer as `t` holds it. -/
def resulted (t : State) (code : AdpCode) (k : Nat) : State :=
  { t with replies := t.replies ++ [.result { code := code, position := k, consumed := k } t.output] }

/-- The response of a command that took effect and emitted `us`. -/
def okWith (us : List Byte) : Response := { status := .ok, complete := false, units := us }

/-- The response of a command that emitted nothing and ended with `st`. -/
def endedBy (st : Status) : Response := { status := st, complete := false, units := [] }

/-- The state after `raise InvalidSymbol(u)` (60_exceptions.md R105). -/
def invalidSymbolAt (u : Byte) (s : State) : State :=
  answered { s with dec := { s.dec with errKind := .invalidSymbol, errCode := BitVec.ofNat 9 u.toNat } }
    (endedBy .invalidSymbol)

/-- The registers after `raise IncompleteStream()` (60_exceptions.md R106). -/
def truncated (s : State) : State :=
  { s with dec := { s.dec with errKind := .incompleteStream, errCode := 0x100#9 } }

/-- What the decoder's prologue answers, or nothing where the command goes on (41_decoder.md R58). -/
def prologueAnswer (s : State) : Option State :=
  if s.fault.kind ≠ .none then some (answered s (endedBy .fault))
  else
    match s.dec.mode with
    | .illegal6 =>
      some (answered { s with fault := { kind := .fatalState, info := 0x4006#16 } } (endedBy .fault))
    | .illegal7 =>
      some (answered { s with fault := { kind := .fatalState, info := 0x4007#16 } } (endedBy .fault))
    | .start | .second | .third | .fourth | .padding | .eof =>
      if s.dec.errKind ≠ .none then some (answered s (endedBy .sticky)) else none

/-- The 8-bit unit of a natural. -/
def byteOf (n : Nat) : Byte := BitVec.ofNat 8 n

/-- The text symbol of a 6-bit value given as a natural. -/
def symbolOf (n : Nat) : Byte := alphabet (BitVec.ofNat 6 n)

/-- The three bytes of a 24-bit group, most significant first (20_memory.md R37). -/
def bytesOf (g : Nat) : List Byte := [byteOf (g / 65536), byteOf (g / 256 % 256), byteOf (g % 256)]

/-- The decoder commands (30_encoding.md R47, `ENG = 0`). -/
def isDecCommand : Instr → Bool
  | .decStep _ | .decEof | .decReset | .decCheck => true
  | .encStep _ | .encEof | .encReset => false
  | .adpDecTranscode | .adpDecFlush | .adpEncTranscode | .adpEncFlush => false

/-- The encoder commands (30_encoding.md R47, `ENG = 1`). -/
def isEncCommand : Instr → Bool
  | .encStep _ | .encEof | .encReset => true
  | .decStep _ | .decEof | .decReset | .decCheck => false
  | .adpDecTranscode | .adpDecFlush | .adpEncTranscode | .adpEncFlush => false

/-- The decoder commands that run the prologue (41_decoder.md R58). -/
def runsPrologue : Instr → Bool
  | .decStep _ | .decEof | .decCheck => true
  | .decReset | .encStep _ | .encEof | .encReset => false
  | .adpDecTranscode | .adpDecFlush | .adpEncTranscode | .adpEncFlush => false

/-- The command that steps engine `e` with one unit. -/
def stepOf : Engine → Byte → Instr
  | .dec, u => .decStep u
  | .enc, u => .encStep u

/-- The command that gives engine `e` the end-of-input sentinel. -/
def eofOf : Engine → Instr
  | .dec => .decEof
  | .enc => .encEof

/-- The TRANSCODE request of engine `e`. -/
def transcodeOf : Engine → Instr
  | .dec => .adpDecTranscode
  | .enc => .adpEncTranscode

/-- The FLUSH request of engine `e`. -/
def flushOf : Engine → Instr
  | .dec => .adpDecFlush
  | .enc => .adpEncFlush

/-- `RESERVE(e)` (43_adapter.md R90). -/
def reserveOf (e : Engine) (c : Config) : Nat :=
  match e with
  | .dec => 3
  | .enc => max 3 (c.sep.length + 1)

/-- The free room of `OUT` (20_memory.md R34). -/
def roomOf (o : OutBuf) : Nat := o.cap - o.data.length

/-- Room for `us` and one more step at the engine's reserve each: no gate can close on it. -/
abbrev Roomy (e : Engine) (c : Config) (us : List Byte) (o : OutBuf) : Prop :=
  reserveOf e c * (us.length + 1) ≤ roomOf o

/-- The host presents these buffers at the request port. -/
def given (s : State) (us : List Byte) (o : OutBuf) : State := { s with input := us, output := o }

/-- The decoder's registers agree, but for a stale `DEC.ACC`: in `START` and `EOF` nothing reads it, and 10_state.md R24
says that no claim may compare it (log 20). -/
abbrev SameDec (d e : DecRegs) : Prop :=
  d.mode = e.mode ∧ d.errKind = e.errKind ∧ d.errCode = e.errCode ∧ (d.mode.readsAcc = true → d.acc = e.acc)

/-- The encoder's registers agree, but for a stale `ENC.ACC` (10_state.md R24). -/
abbrev SameEnc (d e : EncRegs) : Prop :=
  d.mode = e.mode ∧ d.col = e.col ∧ (d.mode.readsAcc = true → d.acc = e.acc)

/-- The registers of the block agree, but for stale accumulators. -/
abbrev SameRegisters (s t : State) : Prop := SameDec s.dec t.dec ∧ SameEnc s.enc t.enc ∧ s.fault = t.fault

/-- The states differ at most in what a program can see only indirectly (10_state.md R24): a stale accumulator, `ENC.COL`
in `EOF`, the code of a recorded error, and which fault is recorded. -/
abbrev SeenAlike (s t : State) : Prop :=
  (s.dec.mode = t.dec.mode ∧ s.dec.errKind = t.dec.errKind ∧ (s.dec.mode.readsAcc = true → s.dec.acc = t.dec.acc)) ∧
  (s.enc.mode = t.enc.mode ∧ (s.enc.mode.readsAcc = true → s.enc.acc = t.enc.acc) ∧
    (s.enc.mode.readsCol = true → s.enc.col = t.enc.col)) ∧
  (s.fault.kind = .none ↔ t.fault.kind = .none) ∧ s.config = t.config ∧ s.input = t.input ∧ s.output = t.output ∧
  s.pending = t.pending ∧ s.replies = t.replies ∧ s.freeCount = t.freeCount

/-- A request event presents an empty output buffer. -/
def presentsEmpty : HostEvent → Bool
  | .request _ _ output => decide (output.data = [])
  | .command _ | .powerOn => true

/-- The units of the last reply, where it is a response. -/
def lastUnits (s : State) : Option (List Byte) :=
  match s.replies.getLast? with
  | some (.response r) => some r.units
  | some (.result _ _) => none
  | none => none

/-- The last reply, where it is an adapter result. -/
def lastResult (s : State) : Option AdpResult :=
  match s.replies.getLast? with
  | some (.result r _) => some r
  | some (.response _) => none
  | none => none

/-- Issue the step command of each unit in order, every one of which must answer `OK`. -/
def issueAll (e : Engine) : List Byte → State → Option State
  | [], s => some s
  | u :: us, s =>
    match exec (stepOf e u) s with
    | .next t    => if lastStatus t = some .ok then issueAll e us t else none
    | .fault _   => none
    | .refused _ => none

/-- A fresh block under the configuration `c` (10_state.md R25). -/
def fresh (c : Config) : State := { State.reset with config := c }

/-- The host's loop of 43_adapter.md R103 for TRANSCODE: for each capacity in turn a fresh buffer of that capacity and the
units not yet consumed. It gives the state, the units left, and the drained output. -/
def drive (e : Engine) : List Nat → List Byte → State → Option (State × List Byte × List Byte)
  | [], us, s => some (s, us, [])
  | c :: cs, us, s =>
    match exec (transcodeOf e) (given s us { cap := c, data := [] }) with
    | .next t =>
      match lastResult t with
      | some r =>
        (drive e cs (us.drop r.consumed) t).map fun p => (p.1, p.2.1, t.output.data ++ p.2.2)
      | none => none
    | .fault _   => none
    | .refused _ => none

/-- The groups of text symbols of a byte sequence, the last one padded (20_memory.md R37, 42_encoder.md R82). -/
def groupsOf : List Byte → List (List Byte)
  | [] => []
  | [a] => [[symbolOf (a.toNat / 4), symbolOf (a.toNat % 4 * 16), 0x3D#8, 0x3D#8]]
  | [a, b] =>
    [[symbolOf (a.toNat / 4), symbolOf (a.toNat % 4 * 16 + b.toNat / 16), symbolOf (b.toNat % 16 * 4), 0x3D#8]]
  | a :: b :: c :: rest =>
    [symbolOf (a.toNat / 4), symbolOf (a.toNat % 4 * 16 + b.toNat / 16),
      symbolOf (b.toNat % 16 * 4 + c.toNat / 64), symbolOf (c.toNat % 64)] :: groupsOf rest

/-- The groups laid out in lines of `q` groups, of which `n` stand on the current line: the separator comes before a
group that would be one too many (42_encoder.md R83). -/
def linesOf (sep : List Byte) (q : Nat) : Nat → List (List Byte) → List Byte
  | _, [] => []
  | n, g :: gs => if n = q then sep ++ g ++ linesOf sep q 1 gs else g ++ linesOf sep q (n + 1) gs

/-- `Q = ceil(LINE_WIDTH / 4)`, the groups per line (42_encoder.md R83). -/
def groupsPerLine (c : Config) : Nat := (c.lineWidth + 3) / 4

/-- The whole output of an encoder fed `bs` and then `EOF` from a fresh block. -/
def Encodes (c : Config) (bs : List Byte) (t : State) : Prop :=
  ∃ m, encFeed bs (fresh c) = .next m ∧ exec .encEof m = .next t

/-- Every response so far says `OK`. -/
def AllOk (s : State) : Prop := ∀ r ∈ s.replies, ∃ us, r = .response (okWith us)

/-- The rows of the command opcode map (30_encoding.md R47): match, mask, and the command with its `DATA`. -/
def commandRows : List (CommandWord × CommandWord × (Byte → Instr)) :=
  [(0x000#12, 0xF00#12, fun u => .decStep u), (0x100#12, 0xFFF#12, fun _ => .decEof),
   (0x200#12, 0xFFF#12, fun _ => .decReset), (0x400#12, 0xFFF#12, fun _ => .decCheck),
   (0x800#12, 0xF00#12, fun b => .encStep b), (0x900#12, 0xFFF#12, fun _ => .encEof),
   (0xA00#12, 0xFFF#12, fun _ => .encReset)]

/-- The ranges of reserved command words, as 30_encoding.md R48 lists them. -/
def inReservedRange (n : Nat) : Bool :=
  (0x101 ≤ n && n ≤ 0x1FF) || (0x901 ≤ n && n ≤ 0x9FF)
    || (0x201 ≤ n && n ≤ 0x3FF) || (0xA01 ≤ n && n ≤ 0xBFF)
    || (0x401 ≤ n && n ≤ 0x5FF)
    || (0xC00 ≤ n && n ≤ 0xDFF)
    || (0x600 ≤ n && n ≤ 0x7FF) || (0xE00 ≤ n && n ≤ 0xFFF)

end Sys2Proof.Claims

open Sys2Proof Sys2Proof.Machine Sys2Proof.Claims

/-! A statement `Answers (exec i s) t` says that `exec i s` is a next state and what it holds: every field as in `t`, but for
a stale accumulator (`SameButStale`; 10_state.md R24, 90_conflicts.md C11, log 20). So it is the frame too: whatever `t` does
not name is as in `s`. -/

/-! ## Encoding -/

/-- 30_encoding.md R45, R47, R53, R54: decoding inverts encoding, and no word that decodes to an instruction differs from
that instruction's word: each word has one meaning and each instruction one word. -/
def Obligations.DecodeInvertsEncode : Prop :=
  ∀ (p : PortWord) (i : Instr), decode p = .instr i ↔ p = encode i

/-- 30_encoding.md R47: a word selects a row's command exactly when `w & mask = match`, its operand is `DATA`, and the
rows do not overlap. -/
def Obligations.CommandRowsSelectTheirCommands : Prop :=
  (∀ row ∈ commandRows, ∀ w : CommandWord,
    w &&& row.2.1 = row.1 ↔ decode (.command w) = .instr (row.2.2 (byteOf (w.toNat % 256)))) ∧
  commandRows.Pairwise fun a b => ∀ w : CommandWord, ¬ (w &&& a.2.1 = a.1 ∧ w &&& b.2.1 = b.1)

/-- 30_encoding.md R48: the reserved command words are the listed ranges, 3579 in number, and each executes as
`fault IllegalCommand(zext_16(w))`. -/
def Obligations.ReservedCommandWordsFault : Prop :=
  (∀ w : CommandWord, decode (.command w) = .reserved (.command w) ↔ inReservedRange w.toNat = true) ∧
  ((List.range 4096).filter inReservedRange).length = 3579 ∧
  ∀ (s : State) (w : CommandWord), Running s → inReservedRange w.toNat = true →
    Answers (runWord (.command w) s)
      (answered { s with fault := { kind := .illegalCommand, info := BitVec.ofNat 16 w.toNat } } (endedBy .fault))

/-- 30_encoding.md R54 and 43_adapter.md R99: the four request words decode to their requests; each other word executes
as `fault IllegalCommand(0x8000 | request)` and returns `(ABORTED, 0, 0)`. -/
def Obligations.RequestWordsAndReservedRequests : Prop :=
  decode (.request 0b000#3) = .instr .adpDecTranscode ∧ decode (.request 0b001#3) = .instr .adpDecFlush ∧
  decode (.request 0b100#3) = .instr .adpEncTranscode ∧ decode (.request 0b101#3) = .instr .adpEncFlush ∧
  ∀ (s : State) (w : RequestWord), Running s → w ∈ [0b010#3, 0b011#3, 0b110#3, 0b111#3] →
    Answers (runWord (.request w) s)
      (resulted { s with fault := { kind := .illegalCommand, info := BitVec.ofNat 16 (0x8000 + w.toNat) } }
        .aborted 0)

/-- 30_encoding.md R49 and the words of 95_test_vectors.md 2.2. -/
def Obligations.SpecWordsDecodeAsListed : Prop :=
  decode (.command 0x053#12) = .instr (.decStep 0x53#8) ∧ decode (.command 0x0FF#12) = .instr (.decStep 0xFF#8) ∧
  decode (.command 0x100#12) = .instr .decEof ∧ decode (.command 0x200#12) = .instr .decReset ∧
  decode (.command 0x400#12) = .instr .decCheck ∧ decode (.command 0x848#12) = .instr (.encStep 0x48#8) ∧
  decode (.command 0x900#12) = .instr .encEof ∧ decode (.command 0xA00#12) = .instr .encReset ∧
  decode (.command 0xC00#12) = .reserved (.command 0xC00#12)

/-! ## The step -/

/-- A step takes the oldest pending event: holding the host's events as a list in State is the MODEL'S CHOICE (log 1). By
30_encoding.md R44 and R50 a word that decodes to an instruction runs exactly it, here at the state without that event and,
for a request, with the buffers presented beside it; a reserved word runs as its fault (R48, R54). Power-on resets the
registers (70_reset_and_hazards.md R124); that it keeps the events, the replies and the buffers is the MODEL'S CHOICE
(log 14). With no event nothing changes, the model's reading of 60_exceptions.md R121 (log 3), a
stale accumulator left open. -/
def Obligations.StepRunsTheDecodedInstruction : Prop :=
  (∀ (s : State) (w : CommandWord) (rest : List HostEvent) (i : Instr),
    s.pending = .command w :: rest → decode (.command w) = .instr i →
      step s = exec i { s with pending := rest }) ∧
  (∀ (s : State) (w : RequestWord) (us : List Byte) (o : OutBuf) (rest : List HostEvent) (i : Instr),
    s.pending = .request w us o :: rest → decode (.request w) = .instr i →
      step s = exec i { s with pending := rest, input := us, output := o }) ∧
  (∀ (s : State) (w : CommandWord) (rest : List HostEvent),
    s.pending = .command w :: rest → decode (.command w) = .reserved (.command w) →
      step s = execReserved (.command w) { s with pending := rest }) ∧
  (∀ (s : State) (w : RequestWord) (us : List Byte) (o : OutBuf) (rest : List HostEvent),
    s.pending = .request w us o :: rest → decode (.request w) = .reserved (.request w) →
      step s = execReserved (.request w) { s with pending := rest, input := us, output := o }) ∧
  (∀ (s : State) (rest : List HostEvent), s.pending = .powerOn :: rest →
    step s = .next ({ s with pending := rest } : State).powerOnReset) ∧
  (∀ s : State, s.pending = [] → Answers (step s) s)

/-- 10_state.md R20: a configuration is well-formed iff `1 <= LINE_WIDTH <= 65535` and `1 <= SEP_LEN <= 4`. Under an
ill-formed one every command, request and reserved word is refused; under a well-formed one every instruction answers a
next state. -/
def Obligations.ExactlyWellFormedConfigurationsRun : Prop :=
  (∀ c : Config, c.wf = true ↔
    (1 ≤ c.lineWidth ∧ c.lineWidth ≤ 65535) ∧ (1 ≤ c.sep.length ∧ c.sep.length ≤ 4)) ∧
  (∀ (p : PortWord) (s : State), s.config.wf = false → runWord p s = .refused .illFormedConfig) ∧
  (∀ (i : Instr) (s : State), s.config.wf = true → ∃ t, exec i s = .next t)

/-! ## Lookup ROMs -/

/-- 20_memory.md R27: the formula of the `ALPHABET` ROM. -/
def Obligations.AlphabetFollowsItsFormula : Prop :=
  ∀ i : Sextet,
    (i.toNat ≤ 25 → alphabet i = byteOf (0x41 + i.toNat)) ∧
    (26 ≤ i.toNat ∧ i.toNat ≤ 51 → alphabet i = byteOf (0x61 + (i.toNat - 26))) ∧
    (52 ≤ i.toNat ∧ i.toNat ≤ 61 → alphabet i = byteOf (0x30 + (i.toNat - 52))) ∧
    (i.toNat = 62 → alphabet i = 0x2B#8) ∧ (i.toNat = 63 → alphabet i = 0x2F#8)

/-- 20_memory.md R28: `DECODE[c] = {1, i}` iff `ALPHABET[i] = c`; every other entry is `{0, 0}`; 64 entries are valid; the
entries of `=` and of the five whitespace codes are invalid. -/
def Obligations.DecodeRomInvertsAlphabet : Prop :=
  (∀ (c : Byte) (i : Sextet), decodeRom c = 1#1 ++ i ↔ alphabet i = c) ∧
  (∀ c : Byte, (∀ i : Sextet, alphabet i ≠ c) → decodeRom c = 0#7) ∧
  ((List.range 256).filter fun n => (decodeRom (byteOf n)).getLsbD 6).length = 64 ∧
  ∀ c ∈ [0x3D#8, 0x09#8, 0x0A#8, 0x0C#8, 0x0D#8, 0x20#8], decodeRom c = 0#7

/-- 20_memory.md R30, R31: the class of every unit; the four classes are exclusive because `cls` is a function. -/
def Obligations.UnitsFallInTheirClasses : Prop :=
  ∀ u : Byte,
    (cls u = .pad ↔ u = 0x3D#8) ∧
    (cls u = .ws ↔ u ∈ [0x09#8, 0x0A#8, 0x0C#8, 0x0D#8, 0x20#8]) ∧
    (∀ v : Sextet, cls u = .valid v ↔ decodeRom u = 1#1 ++ v) ∧
    (cls u = .invalid ↔ u ≠ 0x3D#8 ∧ u ∉ [0x09#8, 0x0A#8, 0x0C#8, 0x0D#8, 0x20#8] ∧ decodeRom u = 0#7)

/-! ## Decoder -/

/-- 41_decoder.md R60, but for its line that whitespace leaves `DEC.ACC` unchanged: in `START` it is stale (10_state.md R24). -/
def Obligations.DecStepInStart : Prop :=
  ∀ (s : State) (u : Byte), DecLive s → s.dec.mode = .start →
    Answers (exec (.decStep u) s)
      (match cls u with
       | .pad => invalidSymbolAt u s
       | .ws => answered s (okWith [])
       | .valid v =>
         answered { s with dec := { s.dec with acc := BitVec.ofNat 18 v.toNat, mode := .second } } (okWith [])
       | .invalid => invalidSymbolAt u s)

/-- 41_decoder.md R61: the accumulator is shifted by six bits and takes the symbol, cut to 18 bits. -/
def Obligations.DecStepInSecond : Prop :=
  ∀ (s : State) (u : Byte), DecLive s → s.dec.mode = .second →
    Answers (exec (.decStep u) s)
      (match cls u with
       | .pad => invalidSymbolAt u s
       | .ws => invalidSymbolAt u s
       | .valid v =>
         answered
           { s with dec := { s.dec with acc := BitVec.ofNat 18 (s.dec.acc.toNat * 64 + v.toNat), mode := .third } }
           (okWith [])
       | .invalid => invalidSymbolAt u s)

/-- 41_decoder.md R62. -/
def Obligations.DecStepInThird : Prop :=
  ∀ (s : State) (u : Byte), DecLive s → s.dec.mode = .third →
    Answers (exec (.decStep u) s)
      (match cls u with
       | .pad => answered { s with dec := { s.dec with mode := .padding } } (okWith [])
       | .ws => invalidSymbolAt u s
       | .valid v =>
         answered
           { s with dec := { s.dec with acc := BitVec.ofNat 18 (s.dec.acc.toNat * 64 + v.toNat), mode := .fourth } }
           (okWith [])
       | .invalid => invalidSymbolAt u s)

/-- 41_decoder.md R63, but for its line on `DEC.ACC` where the mode becomes `START`: there the accumulator is stale, and
10_state.md R24 and 90_conflicts.md C11 allow no claim about it, so `Answers` leaves it open. -/
def Obligations.DecStepInPadding : Prop :=
  ∀ (s : State) (u : Byte), DecLive s → s.dec.mode = .padding →
    Answers (exec (.decStep u) s)
      (match cls u with
       | .pad =>
         answered { s with dec := { s.dec with mode := .start } }
           (okWith [byteOf (s.dec.acc.toNat / 16 % 256)])
       | .ws => invalidSymbolAt u s
       | .valid _ => invalidSymbolAt u s
       | .invalid => invalidSymbolAt u s)

/-- 41_decoder.md R64: the bytes of the 24-bit group, and of the group one symbol short. Its line on `DEC.ACC` is left open,
as in `DecStepInPadding`. -/
def Obligations.DecStepInFourth : Prop :=
  ∀ (s : State) (u : Byte), DecLive s → s.dec.mode = .fourth →
    Answers (exec (.decStep u) s)
      (match cls u with
       | .pad =>
         answered { s with dec := { s.dec with mode := .start } }
           (okWith [byteOf (s.dec.acc.toNat / 1024), byteOf (s.dec.acc.toNat / 4 % 256)])
       | .ws => invalidSymbolAt u s
       | .valid v =>
         answered { s with dec := { s.dec with mode := .start } }
           (okWith (bytesOf (s.dec.acc.toNat * 64 + v.toNat)))
       | .invalid => invalidSymbolAt u s)

/-- 41_decoder.md R65: in `EOF` every unit is discarded silently. No register is written, the stale accumulator left open. -/
def Obligations.DecStepInEofIsNoOp : Prop :=
  ∀ (s : State) (u : Byte), DecLive s → s.dec.mode = .eof → Answers (exec (.decStep u) s) (answered s (okWith []))

/-- 41_decoder.md R66: the prologue, then the source's `EOF` column. The accumulator,
stale in `START` and `EOF`, is left open (10_state.md R24). -/
def Obligations.DecEofFollowsItsRule : Prop :=
  ∀ s : State, s.config.wf = true →
    (∀ t, prologueAnswer s = some t → Answers (exec .decEof s) t) ∧
    (prologueAnswer s = none → s.dec.mode = .start →
      Answers (exec .decEof s) (answered { s with dec := { s.dec with mode := .eof } } (okWith []))) ∧
    (prologueAnswer s = none → s.dec.mode = .eof → Answers (exec .decEof s) (answered s (okWith []))) ∧
    (prologueAnswer s = none → s.dec.mode ∈ [DecMode.second, .third, .fourth, .padding] →
      Answers (exec .decEof s) (answered (truncated s) (endedBy .incompleteStream)))

/-- 41_decoder.md R67 and 10_state.md R22: the prologue, then the completion check, which writes no register where it
succeeds (the stale accumulator left open). -/
def Obligations.DecCheckFollowsItsRule : Prop :=
  ∀ s : State, s.config.wf = true →
    (∀ t, prologueAnswer s = some t → Answers (exec .decCheck s) t) ∧
    (prologueAnswer s = none → (s.dec.mode = .start ∨ s.dec.mode = .eof) →
      Answers (exec .decCheck s) (answered s { status := .ok, complete := true, units := [] })) ∧
    (prologueAnswer s = none → s.dec.mode ∈ [DecMode.second, .third, .fourth, .padding] →
      Answers (exec .decCheck s) (answered (truncated s) (endedBy .incompleteStream)))

/-- 41_decoder.md R68: the reset runs no prologue, so it clears a recorded error and leaves an illegal mode. That it writes 0
to `DEC.ACC` is the table of 10_state.md R25, no claim on a stale value. -/
def Obligations.DecResetFollowsItsRule : Prop :=
  ∀ s : State, s.config.wf = true →
    (s.fault.kind ≠ .none → Answers (exec .decReset s) (answered s (endedBy .fault))) ∧
    (s.fault.kind = .none →
      ∃ t, exec .decReset s = .next t ∧ t.dec = { mode := .start, acc := 0#18, errKind := .none, errCode := 0#9 } ∧
        SameButStale t (answered { s with dec := t.dec } (okWith [])))

/-- 41_decoder.md R58 and 60_exceptions.md R107: the order of the prologue's tests and what each answers. -/
def Obligations.DecoderPrologueOrder : Prop :=
  ∀ (i : Instr) (s : State), runsPrologue i = true → s.config.wf = true →
    (s.fault.kind ≠ .none → Answers (exec i s) (answered s (endedBy .fault))) ∧
    (s.fault.kind = .none → s.dec.mode = .illegal6 →
      Answers (exec i s) (answered { s with fault := { kind := .fatalState, info := 0x4006#16 } } (endedBy .fault))) ∧
    (s.fault.kind = .none → s.dec.mode = .illegal7 →
      Answers (exec i s) (answered { s with fault := { kind := .fatalState, info := 0x4007#16 } } (endedBy .fault))) ∧
    (s.fault.kind = .none → s.dec.mode ≠ .illegal6 → s.dec.mode ≠ .illegal7 → s.dec.errKind ≠ .none →
      Answers (exec i s) (answered s (endedBy .sticky)))

/-- 41_decoder.md R69, R70, R71: a full group emits its three bytes; a padded group emits two bytes or one, whatever the
bits it drops; every group returns to `START`. -/
def Obligations.DecoderGroupLaw : Prop :=
  ∀ (s : State) (v0 v1 v2 v3 : Sextet), DecLive s → s.dec.mode = .start →
    (∃ t, decFeed [alphabet v0, alphabet v1, alphabet v2, alphabet v3] s = .next t ∧ t.dec.mode = .start ∧
      t.dec.errKind = .none ∧
      emitted t = emitted s ++ bytesOf (((v0.toNat * 64 + v1.toNat) * 64 + v2.toNat) * 64 + v3.toNat)) ∧
    (∃ t, decFeed [alphabet v0, alphabet v1, alphabet v2] s = .next t ∧ t.dec.mode = .fourth ∧ emitted t = emitted s) ∧
    (∃ t, decFeed [alphabet v0, alphabet v1, alphabet v2, 0x3D#8] s = .next t ∧ t.dec.mode = .start ∧
      t.dec.errKind = .none ∧
      emitted t = emitted s ++
        [byteOf (((v0.toNat * 64 + v1.toNat) * 64 + v2.toNat) / 1024),
         byteOf (((v0.toNat * 64 + v1.toNat) * 64 + v2.toNat) / 4 % 256)]) ∧
    (∃ t, decFeed [alphabet v0, alphabet v1, 0x3D#8, 0x3D#8] s = .next t ∧ t.dec.mode = .start ∧
      t.dec.errKind = .none ∧ emitted t = emitted s ++ [byteOf ((v0.toNat * 64 + v1.toNat) / 16)])

/-! ## Encoder -/

/-- 42_encoder.md R76: the separator stands first where the line is full, and the column counts anew. -/
def Obligations.EncStepInStart : Prop :=
  ∀ (s : State) (b : Byte), Running s → s.enc.mode = .start →
    Answers (exec (.encStep b) s)
      (if s.config.lineWidth ≤ s.enc.col.toNat then
         answered
           { s with enc := { mode := .partial1, acc := BitVec.ofNat 6 (b.toNat % 4 * 16), col := 1#17 } }
           (okWith (s.config.sep ++ [symbolOf (b.toNat / 4)]))
       else
         answered
           { s with enc := { mode := .partial1, acc := BitVec.ofNat 6 (b.toNat % 4 * 16),
                             col := BitVec.ofNat 17 (s.enc.col.toNat + 1) } }
           (okWith [symbolOf (b.toNat / 4)]))

/-- 42_encoder.md R77. The column is the sum where it fits the register, which 10_state.md R17 shows of every state
reached from reset; elsewhere nothing is said of it (log 7). -/
def Obligations.EncStepInPartial1 : Prop :=
  ∀ (s : State) (b : Byte), Running s → s.enc.mode = .partial1 →
    ∃ c n, Answers (exec (.encStep b) s)
        (answered
          { s with enc := { mode := .partial2, acc := BitVec.ofNat 6 (b.toNat % 16 * 4), col := c }, freeCount := n }
          (okWith [alphabet (s.enc.acc ||| BitVec.ofNat 6 (b.toNat / 16))])) ∧
      (s.enc.col.toNat + 1 < 2 ^ 17 → c.toNat = s.enc.col.toNat + 1 ∧ n = s.freeCount)

/-- 42_encoder.md R78, but for its line on `ENC.ACC`: the accumulator is stale from here on, and 10_state.md R24 and
90_conflicts.md C11 ("A model must not state a claim about `ENC.ACC` in `START` or `EOF`") allow no claim about it, so
`Answers` leaves it open. The column as in `EncStepInPartial1`. -/
def Obligations.EncStepInPartial2 : Prop :=
  ∀ (s : State) (b : Byte), Running s → s.enc.mode = .partial2 →
    ∃ c n, Answers (exec (.encStep b) s)
        (answered { s with enc := { s.enc with mode := .start, col := c }, freeCount := n }
          (okWith [alphabet (s.enc.acc ||| BitVec.ofNat 6 (b.toNat / 64)), symbolOf (b.toNat % 64)])) ∧
      (s.enc.col.toNat + 2 < 2 ^ 17 → c.toNat = s.enc.col.toNat + 2 ∧ n = s.freeCount)

/-- 42_encoder.md R79: no register is written, the stale accumulator left open. -/
def Obligations.EncStepInEofIsNoOp : Prop :=
  ∀ (s : State) (b : Byte), Running s → s.enc.mode = .eof → Answers (exec (.encStep b) s) (answered s (okWith []))

/-- 42_encoder.md R80: the prologue, then the flush by mode; no separator is ever emitted. The column as in
`EncStepInPartial1`. The accumulator, stale in `START` and `EOF`, is left open (10_state.md R24, 90_conflicts.md C11). -/
def Obligations.EncEofFollowsItsRule : Prop :=
  (∀ s : State, s.config.wf = true → s.fault.kind ≠ .none → Answers (exec .encEof s) (answered s (endedBy .fault))) ∧
  ∀ s : State, Running s →
    (s.enc.mode = .start →
      Answers (exec .encEof s) (answered { s with enc := { s.enc with mode := .eof } } (okWith []))) ∧
    (s.enc.mode = .eof → Answers (exec .encEof s) (answered s (okWith []))) ∧
    (s.enc.mode = .partial1 →
      ∃ c n, Answers (exec .encEof s)
          (answered { s with enc := { s.enc with mode := .eof, col := c }, freeCount := n }
            (okWith [alphabet s.enc.acc, 0x3D#8, 0x3D#8])) ∧
        (s.enc.col.toNat + 3 < 2 ^ 17 → c.toNat = s.enc.col.toNat + 3 ∧ n = s.freeCount)) ∧
    (s.enc.mode = .partial2 →
      ∃ c n, Answers (exec .encEof s)
          (answered { s with enc := { s.enc with mode := .eof, col := c }, freeCount := n }
            (okWith [alphabet s.enc.acc, 0x3D#8])) ∧
        (s.enc.col.toNat + 2 < 2 ^ 17 → c.toNat = s.enc.col.toNat + 2 ∧ n = s.freeCount))

/-- 42_encoder.md R81. That it writes 0 to `ENC.ACC` is the table of 10_state.md R25, no claim on a stale value. -/
def Obligations.EncResetFollowsItsRule : Prop :=
  ∀ s : State, s.config.wf = true →
    (s.fault.kind ≠ .none → Answers (exec .encReset s) (answered s (endedBy .fault))) ∧
    (s.fault.kind = .none →
      ∃ t, exec .encReset s = .next t ∧ t.enc = { mode := .start, acc := 0#6, col := 0#17 } ∧
        SameButStale t (answered { s with enc := t.enc } (okWith [])))

/-- 42_encoder.md R82, R83: for every input and every well-formed configuration, the output of a fresh encoder is the
groups of RFC 4648 text in lines of `ceil(LINE_WIDTH / 4)` groups with the separator between the lines. -/
def Obligations.EncoderOutputIsTheWrappedText : Prop :=
  ∀ (c : Config) (bs : List Byte), c.wf = true →
    ∃ t, Encodes c bs t ∧ AllOk t ∧ t.enc.mode = .eof ∧
      emitted t = linesOf c.sep (groupsPerLine c) 0 (groupsOf bs)

/-- 42_encoder.md R84: the number of units. -/
def Obligations.EncoderOutputLength : Prop :=
  ∀ (c : Config) (bs : List Byte), c.wf = true →
    ∃ t, Encodes c bs t ∧
      (emitted t).length =
        4 * ((bs.length + 2) / 3) +
          c.sep.length * (if bs.length = 0 then 0 else ((bs.length + 2) / 3 - 1) / groupsPerLine c)

/-- 42_encoder.md R86: the padding at the end of the output. That no `=` stands in an unpadded output is claimed for
separators without `=`, since a separator is emitted as given. -/
def Obligations.EncoderPaddingByLength : Prop :=
  ∀ (c : Config) (bs : List Byte), c.wf = true →
    ∃ t, Encodes c bs t ∧
      (bs.length % 3 = 1 ↔ ∃ p, emitted t = p ++ [0x3D#8, 0x3D#8]) ∧
      (bs.length % 3 = 2 ↔ ∃ p v, emitted t = p ++ [alphabet v, 0x3D#8]) ∧
      (0x3D#8 ∉ c.sep → (bs.length % 3 = 0 ↔ 0x3D#8 ∉ emitted t))

/-- 42_encoder.md R87: decoding what was encoded gives it back, for every byte sequence and every well-formed
configuration whose separator is whitespace. -/
def Obligations.DecodingTheEncodingGivesItBack : Prop :=
  ∀ (c : Config) (bs : List Byte), c.wf = true → (∀ u ∈ c.sep, cls u = .ws) →
    ∃ t m d, Encodes c bs t ∧ decFeed (emitted t) (fresh c) = .next m ∧ exec .decEof m = .next d ∧
      AllOk d ∧ emitted d = bs ∧ d.dec.mode = .eof

/-! ## Adapter -/

/-- 43_adapter.md R90, 20_memory.md R39: the reserve bounds what any step or end-of-input of the engine emits, and some
step reaches it. -/
def Obligations.ReserveIsTheWorstCase : Prop :=
  ∀ (e : Engine) (c : Config), c.wf = true →
    (∀ (s t : State) (i : Instr) (us : List Byte), s.config = c → (i = eofOf e ∨ ∃ u, i = stepOf e u) →
      exec i s = .next t → lastUnits t = some us → us.length ≤ reserveOf e c) ∧
    ∃ (s t : State) (i : Instr) (us : List Byte), s.config = c ∧ (i = eofOf e ∨ ∃ u, i = stepOf e u) ∧
      exec i s = .next t ∧ lastUnits t = some us ∧ us.length = reserveOf e c

/-- 43_adapter.md R91, R92, R95: TRANSCODE does what the engine's step commands do on the units it consumed, appends
exactly what those emitted, had the reserve free before each, and stopped for the reason its code gives: the reasons are
exclusive, in the rule's order (a unit that fails is stepped only with no error recorded and the reserve free). -/
def Obligations.TranscodeRefinesEngineCommands : Prop :=
  ∀ (e : Engine) (s : State), s.config.wf = true →
    ∃ (t m : State) (r : AdpResult) (w : List Byte),
      exec (transcodeOf e) s = .next t ∧ t.replies = s.replies ++ [.result r t.output] ∧
      r.position = r.consumed ∧ r.consumed ≤ s.input.length ∧
      issueAll e (s.input.take r.consumed) s = some m ∧ emitted m = emitted s ++ w ∧
      t.output = { cap := s.output.cap, data := s.output.data ++ w } ∧
      (∀ j < r.consumed, ∃ mj wj, issueAll e (s.input.take j) s = some mj ∧ emitted mj = emitted s ++ wj ∧
        reserveOf e s.config ≤ s.output.cap - (s.output.data.length + wj.length)) ∧
      match r.code with
      | .consumedAll => r.consumed = s.input.length ∧ t.fault.kind = .none ∧ SameRegisters t m
      | .outOfSpace =>
        r.consumed < s.input.length ∧ t.fault.kind = .none ∧ (e = .dec → t.dec.errKind = .none) ∧
          roomOf t.output < reserveOf e s.config ∧ SameRegisters t m
      | .malformed | .underflow =>
        r.consumed < s.input.length ∧ e = .dec ∧ t.fault.kind = .none ∧
          ((m.dec.errKind ≠ .none ∧ (m.dec.errKind = .invalidSymbol → r.code = .malformed) ∧
              (m.dec.errKind = .incompleteStream → r.code = .underflow) ∧ SameRegisters t m) ∨
            ∃ u n, s.input[r.consumed]? = some u ∧ m.dec.errKind = .none ∧
              reserveOf e s.config ≤ roomOf t.output ∧ exec (.decStep u) m = .next n ∧
              lastStatus n = some .invalidSymbol ∧ r.code = .malformed ∧ SameRegisters t n)
      | .aborted =>
        t.fault.kind ≠ .none ∧
          ((m.fault.kind ≠ .none ∧ SameRegisters t m) ∨
            ∃ u n, s.input[r.consumed]? = some u ∧ (e = .dec → m.dec.errKind = .none) ∧
              reserveOf e s.config ≤ roomOf t.output ∧ exec (stepOf e u) m = .next n ∧
              lastStatus n = some .fault ∧ SameRegisters t n)

/-- 43_adapter.md R92: with room enough, an `IN` of alphabet symbols and no padding in progress, ADP.DEC.TRANSCODE
consumes everything: the decoder is as after the DEC.STEPs, and `OUT` gets what they emitted. -/
def Obligations.DecTranscodeConsumesSymbols : Prop :=
  ∀ s : State, DecLive s → s.dec.mode ∈ [DecMode.start, .second, .third, .fourth] →
    (∀ u ∈ s.input, ∃ v, cls u = .valid v) → Roomy .dec s.config s.input s.output →
    ∃ m w d, issueAll .dec s.input s = some m ∧ emitted m = emitted s ++ w ∧ SameDec d m.dec ∧
      Answers (exec .adpDecTranscode s)
        (resulted { s with dec := d, output := { s.output with data := s.output.data ++ w } }
          .consumedAll s.input.length)

/-- 43_adapter.md R92: with room enough, ADP.ENC.TRANSCODE consumes every `IN`: the encoder is as after the ENC.STEPs, and
`OUT` gets what they emitted. -/
def Obligations.EncTranscodeConsumesAnyBytes : Prop :=
  ∀ s : State, Running s → Roomy .enc s.config s.input s.output →
    ∃ m w e n, issueAll .enc s.input s = some m ∧ emitted m = emitted s ++ w ∧ SameEnc e m.enc ∧
      Answers (exec .adpEncTranscode s)
        (resulted { s with enc := e, freeCount := n, output := { s.output with data := s.output.data ++ w } }
          .consumedAll s.input.length)

/-- 43_adapter.md R91, 60_exceptions.md R111: with less room than the reserve, neither request reads a unit, runs a step
or writes anything, whatever unit waits. -/
def Obligations.ClosedGateConsumesNothing : Prop :=
  ∀ (e : Engine) (s : State), Running s → (e = .dec → s.dec.errKind = .none) →
    roomOf s.output < reserveOf e s.config →
    (s.input ≠ [] → Answers (exec (transcodeOf e) s) (resulted s .outOfSpace 0)) ∧
    (s.input = [] → Answers (exec (transcodeOf e) s) (resulted s .consumedAll 0)) ∧
    Answers (exec (flushOf e) s) (resulted s .outOfSpace 0)

/-- 43_adapter.md R93: FLUSH, line by line of its pseudocode, for either engine: the faulted block, the recorded decoder
error, the closed gate, then the end-of-input step. The column and the stale accumulator as in `EncEofFollowsItsRule`. -/
def Obligations.FlushFollowsItsRule : Prop :=
  (∀ (e : Engine) (s : State), s.config.wf = true → s.fault.kind ≠ .none →
    Answers (exec (flushOf e) s) (resulted s .aborted 0)) ∧
  (∀ s : State, Running s →
    (s.dec.errKind = .invalidSymbol → Answers (exec .adpDecFlush s) (resulted s .malformed 0)) ∧
    (s.dec.errKind = .incompleteStream → Answers (exec .adpDecFlush s) (resulted s .underflow 0))) ∧
  (∀ s : State, Running s → s.dec.errKind = .none →
    (roomOf s.output < 3 → Answers (exec .adpDecFlush s) (resulted s .outOfSpace 0)) ∧
    (3 ≤ roomOf s.output → s.dec.mode = .start →
      Answers (exec .adpDecFlush s)
        (resulted { s with dec := { s.dec with mode := .eof } } .consumedAll 0)) ∧
    (3 ≤ roomOf s.output → s.dec.mode = .eof → Answers (exec .adpDecFlush s) (resulted s .consumedAll 0)) ∧
    (3 ≤ roomOf s.output → s.dec.mode ∈ [DecMode.second, .third, .fourth, .padding] →
      Answers (exec .adpDecFlush s) (resulted (truncated s) .underflow 0)) ∧
    (3 ≤ roomOf s.output → s.dec.mode = .illegal6 →
      Answers (exec .adpDecFlush s)
        (resulted { s with fault := { kind := .fatalState, info := 0x4006#16 } } .aborted 0)) ∧
    (3 ≤ roomOf s.output → s.dec.mode = .illegal7 →
      Answers (exec .adpDecFlush s)
        (resulted { s with fault := { kind := .fatalState, info := 0x4007#16 } } .aborted 0))) ∧
  (∀ s : State, Running s →
    (roomOf s.output < reserveOf .enc s.config → Answers (exec .adpEncFlush s) (resulted s .outOfSpace 0)) ∧
    (reserveOf .enc s.config ≤ roomOf s.output → s.enc.mode = .start →
      Answers (exec .adpEncFlush s)
        (resulted { s with enc := { s.enc with mode := .eof } } .consumedAll 0)) ∧
    (reserveOf .enc s.config ≤ roomOf s.output → s.enc.mode = .eof →
      Answers (exec .adpEncFlush s) (resulted s .consumedAll 0)) ∧
    (reserveOf .enc s.config ≤ roomOf s.output → s.enc.mode = .partial1 →
      ∃ c n, Answers (exec .adpEncFlush s)
          (resulted
            { s with enc := { s.enc with mode := .eof, col := c }, freeCount := n,
                     output := { s.output with data := s.output.data ++ [alphabet s.enc.acc, 0x3D#8, 0x3D#8] } }
            .consumedAll 0) ∧
        (s.enc.col.toNat + 3 < 2 ^ 17 → c.toNat = s.enc.col.toNat + 3 ∧ n = s.freeCount)) ∧
    (reserveOf .enc s.config ≤ roomOf s.output → s.enc.mode = .partial2 →
      ∃ c n, Answers (exec .adpEncFlush s)
          (resulted
            { s with enc := { s.enc with mode := .eof, col := c }, freeCount := n,
                     output := { s.output with data := s.output.data ++ [alphabet s.enc.acc, 0x3D#8] } }
            .consumedAll 0) ∧
        (s.enc.col.toNat + 2 < 2 ^ 17 → c.toNat = s.enc.col.toNat + 2 ∧ n = s.freeCount)))

/-- 43_adapter.md R97: a recorded decoder error is repeated by every decoder request with something to do, before the gate;
the request consumes nothing, writes nothing and runs no step. -/
def Obligations.HeldErrorIsRepeated : Prop :=
  ∀ (s : State) (i : Instr), Running s → (i = .adpDecFlush ∨ (i = .adpDecTranscode ∧ s.input ≠ [])) →
    (s.dec.errKind = .invalidSymbol → Answers (exec i s) (resulted s .malformed 0)) ∧
    (s.dec.errKind = .incompleteStream → Answers (exec i s) (resulted s .underflow 0))

/-- 93 X4 and 60_exceptions.md R104, R111: with the reserved error kind 3, which no run reaches, the same requests repeat an
error under one of the two codes; which one is the model's free value (log 8), and of the model's own counter nothing is
said. -/
def Obligations.ReservedErrorKindActsAsAnError : Prop :=
  ∀ (s : State) (i : Instr), Running s → (i = .adpDecFlush ∨ (i = .adpDecTranscode ∧ s.input ≠ [])) →
    s.dec.errKind = .reserved3 →
      ∃ code n, (code = .malformed ∨ code = .underflow) ∧
        Answers (exec i s) (resulted { s with freeCount := n } code 0)

/-- 41_decoder.md R72, 42_encoder.md R85, 43_adapter.md R100: presenting an input in two requests, split anywhere, leaves
the registers and the concatenated output as presenting it in one. -/
def Obligations.SplittingTheInputChangesNothing : Prop :=
  ∀ (e : Engine) (s : State) (xs ys : List Byte) (o o1 o2 : OutBuf), s.config.wf = true →
    Roomy e s.config (xs ++ ys) o → Roomy e s.config xs o1 → Roomy e s.config ys o2 →
    ∃ t a b w1 w2,
      exec (transcodeOf e) (given s (xs ++ ys) o) = .next t ∧
      exec (transcodeOf e) (given s xs o1) = .next a ∧ exec (transcodeOf e) (given a ys o2) = .next b ∧
      SameRegisters b t ∧ a.output.data = o1.data ++ w1 ∧ b.output.data = o2.data ++ w2 ∧
      t.output.data = o.data ++ (w1 ++ w2)

/-- 43_adapter.md R101: however often the output runs full, re-presenting the unconsumed units in fresh buffers of any
capacities and at last in one with room gives the registers and the concatenated output of an unconstrained run. -/
def Obligations.BackPressureLosesNothing : Prop :=
  ∀ (e : Engine) (s : State) (us : List Byte) (caps : List Nat) (big : OutBuf), s.config.wf = true →
    Roomy e s.config us big →
    ∃ t f rest w b x,
      exec (transcodeOf e) (given s us big) = .next t ∧ drive e caps us s = some (f, rest, w) ∧
      exec (transcodeOf e) (given f rest big) = .next b ∧
      SameRegisters b t ∧ b.output.data = big.data ++ x ∧ t.output.data = big.data ++ (w ++ x)

/-! ## Errors and faults -/

/-- 60_exceptions.md R109: a reserved word of either port and a decoder command in an illegal mode record the first fault;
in a faulted block every command and every reserved command word answers `FAULT`, every request and every reserved
request `(ABORTED, 0, 0)`, and nothing else changes; power-on reset clears the fault. -/
def Obligations.FaultedBlockAnswersOnlyFault : Prop :=
  ∀ s : State, s.config.wf = true →
    (s.fault.kind = .none → ∀ w : RequestWord, decode (.request w) = .reserved (.request w) →
      Answers (runWord (.request w) s)
      (resulted { s with fault := { kind := .illegalCommand, info := BitVec.ofNat 16 (0x8000 + w.toNat) } }
          .aborted 0)) ∧
    (s.fault.kind = .none → ∀ i : Instr, runsPrologue i = true → ∀ n, (n = 6 ∧ s.dec.mode = .illegal6) ∨
      (n = 7 ∧ s.dec.mode = .illegal7) →
        Answers (exec i s)
          (answered { s with fault := { kind := .fatalState, info := BitVec.ofNat 16 (0x4000 + n) } } (endedBy .fault))) ∧
    (s.fault.kind = .none → ∀ w : CommandWord, decode (.command w) = .reserved (.command w) →
      Answers (runWord (.command w) s)
      (answered { s with fault := { kind := .illegalCommand, info := BitVec.ofNat 16 w.toNat } } (endedBy .fault))) ∧
    (s.fault.kind ≠ .none → ∀ w : CommandWord, Answers (runWord (.command w) s) (answered s (endedBy .fault))) ∧
    (s.fault.kind ≠ .none → ∀ w : RequestWord, Answers (runWord (.request w) s) (resulted s .aborted 0)) ∧
    s.powerOnReset.fault = { kind := .none, info := 0#16 }

/-- 60_exceptions.md R112: a command that ends with a status other than `OK` emits nothing and writes neither mode nor
accumulator, nothing of the encoder, and of `DEC.ERR` and `FAULT` only the one its status names. Of an accumulator
stale in the mode of the state nothing is said (10_state.md R24). -/
def Obligations.ErrorsArePrecise : Prop :=
  ∀ (i : Instr) (s t : State) (r : Response), exec i s = .next t → t.replies.getLast? = some (.response r) →
    isDecCommand i = true ∨ isEncCommand i = true → r.status ≠ .ok →
      r.units = [] ∧ r.complete = false ∧ SameEnc t.enc s.enc ∧ t.dec.mode = s.dec.mode ∧
        (s.dec.mode.readsAcc = true → t.dec.acc = s.dec.acc) ∧
        (r.status ≠ .fault → t.fault = s.fault) ∧
        ((r.status = .sticky ∨ r.status = .fault) → SameDec t.dec s.dec)

/-- 60_exceptions.md R110: a recorded decoder error stays until DEC.RESET or power-on reset, whatever event the step
takes. -/
def Obligations.DecoderErrorStaysUntilReset : Prop :=
  ∀ s t : State, step s = .next t → s.dec.errKind ≠ .none →
    s.pending.head? ≠ some (.command 0x200#12) → s.pending.head? ≠ some .powerOn →
      t.dec.errKind = s.dec.errKind ∧ t.dec.errCode = s.dec.errCode

/-- 10_state.md R18, 60_exceptions.md R109: a faulted block keeps every register until power-on reset, stale accumulators
left open (10_state.md R24). -/
def Obligations.FaultStaysUntilPowerOn : Prop :=
  ∀ s t : State, step s = .next t → s.fault.kind ≠ .none → s.pending.head? ≠ some .powerOn →
    SameRegisters t s

/-- 10_state.md R11, R24, 60_exceptions.md R122: a decoder command depends on nothing of the encoder, on no configuration
but that it is well-formed, and on no stale accumulator; an encoder command depends on nothing of the decoder and on no
stale accumulator. -/
def Obligations.EnginesReadOnlyTheirOwnLiveState : Prop :=
  (∀ (i : Instr) (s1 s2 : State), isDecCommand i = true → s1.config.wf = true → s2.config.wf = true →
    SameDec s1.dec s2.dec → s1.fault = s2.fault →
    ∃ t1 t2 r, exec i s1 = .next t1 ∧ exec i s2 = .next t2 ∧ SameDec t1.dec t2.dec ∧ t1.fault = t2.fault ∧
      t1.replies = s1.replies ++ [.response r] ∧ t2.replies = s2.replies ++ [.response r]) ∧
  (∀ (i : Instr) (s1 s2 : State), isEncCommand i = true → s1.config.wf = true → s1.config = s2.config →
    SameEnc s1.enc s2.enc → s1.fault = s2.fault → s1.freeCount = s2.freeCount →
    ∃ t1 t2 r, exec i s1 = .next t1 ∧ exec i s2 = .next t2 ∧ SameEnc t1.enc t2.enc ∧ t1.fault = t2.fault ∧
      t1.replies = s1.replies ++ [.response r] ∧ t2.replies = s2.replies ++ [.response r])

/-- 10_state.md R24, R11: what a program can see only indirectly is never seen. From two states that differ at most in it,
one step gives states that again differ at most in it, with the same replies and buffers, whatever event it takes. -/
def Obligations.HiddenStateIsNeverSeen : Prop :=
  ∀ s t u : State, SeenAlike s t → step s = .next u → ∃ v, step t = .next v ∧ SeenAlike u v

/-- 20_memory.md R40: a decoder command and an encoder command, issued in either order, leave the same registers and get
the same responses. The mode is legal, since a fatal state of the decoder stops both engines (R122). -/
def Obligations.EngineCommandsCommute : Prop :=
  ∀ (i j : Instr) (s : State), isDecCommand i = true → isEncCommand j = true → s.config.wf = true →
    s.dec.mode.illegal = false →
    ∃ a ab b ba ri rj,
      exec i s = .next a ∧ exec j a = .next ab ∧ exec j s = .next b ∧ exec i b = .next ba ∧ SameRegisters ab ba ∧
      ab.replies = s.replies ++ [.response ri, .response rj] ∧ ba.replies = s.replies ++ [.response rj, .response ri]

/-! ## Reset, invariants, frames -/

/-- 70_reset_and_hazards.md R124, 10_state.md R25: the three columns of the reset table. -/
def Obligations.ResetTable : Prop :=
  (State.reset.dec = { mode := .start, acc := 0#18, errKind := .none, errCode := 0#9 } ∧
    State.reset.enc = { mode := .start, acc := 0#6, col := 0#17 } ∧
    State.reset.fault = { kind := .none, info := 0#16 } ∧
    State.reset.config = { lineWidth := 76, sep := [0x0A#8] }) ∧
  (∀ (s : State) (rest : List HostEvent), s.pending = .powerOn :: rest →
    ∃ t, step s = .next t ∧ t.dec = { mode := .start, acc := 0#18, errKind := .none, errCode := 0#9 } ∧
      t.enc = { mode := .start, acc := 0#6, col := 0#17 } ∧ t.fault = { kind := .none, info := 0#16 } ∧
      t.config = s.config) ∧
  (∀ s : State, Running s → ∃ t, exec .decReset s = .next t ∧ t.dec = State.reset.dec ∧ SameEnc t.enc s.enc ∧
    t.fault = s.fault ∧ t.config = s.config) ∧
  (∀ s : State, Running s → ∃ t, exec .encReset s = .next t ∧ t.enc = State.reset.enc ∧ SameDec t.dec s.dec ∧
    t.fault = s.fault ∧ t.config = s.config)

/-- The invariants hold right after reset: the registers at the values of 10_state.md R25, and the host's side at the
values that are the MODEL'S CHOICE (log 4). -/
def Obligations.ResetIsSound : Prop := registersSound State.reset = true ∧ portsSound State.reset = true

/-- 10_state.md R12 to R18, 60_exceptions.md R107: every step keeps the registers sound: a legal decoder mode, the bound of
each accumulator in its mode, no reserved kind, no fatal state, and `ENC.COL <= LINE_WIDTH + 3` with its tighter bounds
inside a group. -/
def Obligations.EveryStepKeepsRegistersSound : Prop :=
  ∀ s t : State, registersSound s = true → step s = .next t → registersSound t = true

/-- 20_memory.md R34, 30_encoding.md R51, 43_adapter.md R89, R95: every step keeps the output buffer within its capacity and
gives only replies of the form the spec allows. -/
def Obligations.EveryStepKeepsPortsSound : Prop :=
  ∀ s t : State, portsSound s = true → step s = .next t → portsSound t = true

/-- 10_state.md R17 and 93 X4: from sound registers no step needs a value the spec leaves open (logs 7 and 8). -/
def Obligations.SoundRegistersNeedNoFreeValue : Prop :=
  ∀ s t : State, registersSound s = true → step s = .next t → t.freeCount = s.freeCount

/-- 10_state.md R12 to R18: whatever events the host presents to a fresh block, with buffers within their capacity, every
state a run reaches is sound, and `ENC.COL <= LINE_WIDTH + 3` in it. The host's side of the fresh block, but for the
events, is as `State.reset` holds it, the MODEL'S CHOICE (log 4). -/
def Obligations.RunsFromResetStaySound : Prop :=
  ∀ (c : Config) (evs : List HostEvent) (n : Nat) (t : State), c.wf = true → evs.all HostEvent.wf = true →
    Host.Core.run core n { fresh c with pending := evs } = .next t →
      registersSound t = true ∧ portsSound t = true ∧ t.enc.col.toNat ≤ c.lineWidth + 3

/-- 70_reset_and_hazards.md R134: under a well-formed configuration a run of any events ends in a next state, and its output
is the concatenation of the units of every response and of every output buffer, in issue order, where each request
presents an empty buffer, which the host then drains. (That only what a request appends counts, where a buffer already
held units, is the model's reading, log 22.) -/
def Obligations.RunEndsWithItsConcatenatedOutput : Prop :=
  ∀ (evs : List HostEvent) (s : State), s.config.wf = true →
    ∃ e rs, runHost evs (.start s) = .next e ∧ e.state.replies = s.replies ++ rs ∧
      (evs.all presentsEmpty = true → e.output = rs.flatMap Reply.units)

/-- 10_state.md R19: no step writes the configuration. -/
def Obligations.NoStepWritesTheConfiguration : Prop :=
  ∀ s t : State, step s = .next t → t.config = s.config

/-- 10_state.md R11, 20_memory.md R33: what an engine command leaves alone. DEC.STEP, DEC.EOF, DEC.RESET and DEC.CHECK write
the decoder and the fault register; ENC.STEP, ENC.EOF and ENC.RESET write the encoder (and the model's own counter);
neither reaches the buffers; each gives one response. -/
def Obligations.EngineCommandFrame : Prop :=
  ∀ (i : Instr) (s t : State), exec i s = .next t →
    (isDecCommand i = true → ∃ d f r, SameButStale t (answered { s with dec := d, fault := f } r)) ∧
    (isEncCommand i = true → ∃ e n r, SameButStale t (answered { s with enc := e, freeCount := n } r))

/-- 20_memory.md R34, 10_state.md R11: what a request leaves alone. A decoder request writes the decoder, the fault register
and (for the reserved error kind) the model's own counter; an encoder request writes the encoder and that counter; either
only appends to `OUT`, never changes `IN`, and gives one result. -/
def Obligations.AdapterRequestFrame : Prop :=
  ∀ (s t : State) (i : Instr), exec i s = .next t →
    ((i = .adpDecTranscode ∨ i = .adpDecFlush) →
      ∃ d f n w code k, SameButStale t (resulted
        { s with dec := d, fault := f, freeCount := n, output := { s.output with data := s.output.data ++ w } } code k)) ∧
    ((i = .adpEncTranscode ∨ i = .adpEncFlush) →
      ∃ e n w code k, SameButStale t (resulted
        { s with enc := e, freeCount := n, output := { s.output with data := s.output.data ++ w } } code k))

/-! ## The response record and the rendering -/

/-- 30_encoding.md R51, R52: the fields of the 47-bit record. -/
def Obligations.ResponseRecordFields : Prop :=
  ∀ r : Response, r.units.length ≤ 5 →
    (r.pack.extractLsb' 0 3).toNat =
      (match r.status with | .ok => 0 | .invalidSymbol => 1 | .incompleteStream => 2 | .sticky => 3 | .fault => 4) ∧
    r.pack.getLsbD 3 = r.complete ∧
    (r.pack.extractLsb' 4 3).toNat = r.units.length ∧
    ∀ i < 5, r.pack.extractLsb' (7 + 8 * i) 8 = r.units.getD i 0x00#8

/-- 60_exceptions.md R123: the rendering of every code `DEC.ERR.CODE` can hold, for every quote and either digit case. The
units 0x30 to 0x39 and 0x41 or 0x61 onward are the hexadecimal digits. -/
def Obligations.RenderingOfErrorUnits : Prop :=
  ∀ (quote : Byte) (upper : Bool) (code : BitVec 9), code.toNat ≤ 0x100 →
    (code = 0x100#9 → renderWith quote upper code = .noSymbol) ∧
    (code = 0x0D#9 → renderWith quote upper code = .text [0x5C#8, 0x72#8]) ∧
    (code = 0x0A#9 → renderWith quote upper code = .text [0x5C#8, 0x6E#8]) ∧
    (code = 0x09#9 → renderWith quote upper code = .text [0x5C#8, 0x74#8]) ∧
    (code = 0x0C#9 → renderWith quote upper code = .text [0x5C#8, 0x66#8]) ∧
    (0x20 ≤ code.toNat ∧ code.toNat ≤ 0x7E →
      renderWith quote upper code = .text [quote, byteOf code.toNat, quote]) ∧
    (code.toNat ≤ 0xFF → code ∉ [0x0D#9, 0x0A#9, 0x09#9, 0x0C#9] → ¬ (0x20 ≤ code.toNat ∧ code.toNat ≤ 0x7E) →
      ∃ h l, renderWith quote upper code = .text [0x5C#8, 0x78#8, h, l] ∧
        (∀ d n, (d = h ∧ n = code.toNat / 16) ∨ (d = l ∧ n = code.toNat % 16) →
          d = byteOf (if n < 10 then 0x30 + n else if upper then 0x41 + (n - 10) else 0x61 + (n - 10))))
end

