-- ==== Sys2Proof/Laws/Operands.lean ====
section
/-! SUPPORT. The lookup ROMs against each other, and the bit fields of units and accumulators as arithmetic on naturals. -/

namespace Sys2Proof.Machine

/-! ## Lookup ROMs -/

/-- The decoder reads a symbol of the alphabet as the value it stands for (20_memory.md R28, R31). -/
@[simp] theorem cls_alphabet (v : Sextet) : cls (alphabet v) = .valid v := by
  revert v; decide +kernel

@[simp] theorem cls_padCode : cls padCode = .pad := rfl

theorem cls_of_whitespace {u : Byte} (h : u ∈ whitespaceCodes) : cls u = .ws := by
  simp only [whitespaceCodes, List.mem_cons, List.not_mem_nil, or_false] at h
  rcases h with rfl | rfl | rfl | rfl | rfl <;> decide

theorem alphabet_ne_padCode (v : Sextet) : alphabet v ≠ padCode := by
  intro h
  have := cls_alphabet v
  rw [h] at this
  simp at this

theorem alphabet_injective {v w : Sextet} (h : alphabet v = alphabet w) : v = w := by
  have := cls_alphabet v
  rw [h, cls_alphabet w] at this
  exact (SymClass.valid.inj this).symm

/-- A unit of class `VALID(v)` is the symbol of `v`. -/
theorem alphabet_of_cls {u : Byte} {v : Sextet} (h : cls u = .valid v) : alphabet v = u := by
  have key : ∀ u : Byte, (match cls u with | .valid v => decide (alphabet v = u) | .pad | .ws | .invalid => true) = true := by
    decide +kernel
  have := key u
  rw [h] at this
  simpa using this

/-! ## The decoder's accumulator -/

/-- Shifting six bits in is multiplying by 64 and adding, cut to 18 bits. -/
theorem accAppend_eq (acc : BitVec 18) (v : Sextet) : accAppend acc v = BitVec.ofNat 18 (acc.toNat * 64 + v.toNat) := by
  apply BitVec.eq_of_toNat_eq
  have hv : v.toNat < 2 ^ 6 := v.isLt
  have hs : (acc.toNat <<< 6) % 2 ^ 18 = (acc.toNat % 2 ^ 12) <<< 6 := by
    simp only [Nat.shiftLeft_eq]; omega
  have hm : v.toNat % 2 ^ 18 = v.toNat := Nat.mod_eq_of_lt (by omega)
  rw [accAppend, BitVec.toNat_or, BitVec.toNat_shiftLeft, BitVec.toNat_setWidth, hs, hm,
    ← Nat.shiftLeft_add_eq_or_of_lt hv, BitVec.toNat_ofNat, Nat.shiftLeft_eq]
  omega

theorem groupWord_toNat (acc : BitVec 18) (v : Sextet) : (groupWord acc v).toNat = acc.toNat * 64 + v.toNat := by
  have ha : acc.toNat < 2 ^ 18 := acc.isLt
  have hv : v.toNat < 2 ^ 6 := v.isLt
  have h1 : acc.toNat % 2 ^ 24 = acc.toNat := Nat.mod_eq_of_lt (by omega)
  have h2 : (acc.toNat <<< 6) % 2 ^ 24 = acc.toNat <<< 6 := Nat.mod_eq_of_lt (by rw [Nat.shiftLeft_eq]; omega)
  have h3 : v.toNat % 2 ^ 24 = v.toNat := Nat.mod_eq_of_lt (by omega)
  rw [groupWord, BitVec.toNat_or, BitVec.toNat_shiftLeft, BitVec.toNat_setWidth, BitVec.toNat_setWidth, h1, h2, h3,
    ← Nat.shiftLeft_add_eq_or_of_lt hv, Nat.shiftLeft_eq]

/-- The three bytes of a 24-bit word, most significant first. -/
theorem groupBytes_eq (g : BitVec 24) :
    groupBytes g =
      [BitVec.ofNat 8 (g.toNat / 65536), BitVec.ofNat 8 (g.toNat / 256 % 256), BitVec.ofNat 8 (g.toNat % 256)] := by
  simp only [groupBytes, List.cons.injEq, and_true]
  refine ⟨?_, ?_, ?_⟩ <;>
  · apply BitVec.eq_of_toNat_eq
    simp [BitVec.extractLsb'_toNat, Nat.shiftRight_eq_div_pow]

theorem onePaddedByte_eq (acc : BitVec 18) : onePaddedByte acc = BitVec.ofNat 8 (acc.toNat / 16 % 256) := by
  apply BitVec.eq_of_toNat_eq
  simp [onePaddedByte, BitVec.extractLsb'_toNat, Nat.shiftRight_eq_div_pow]

theorem twoPaddedBytes_eq (acc : BitVec 18) :
    twoPaddedBytes acc = [BitVec.ofNat 8 (acc.toNat / 1024), BitVec.ofNat 8 (acc.toNat / 4 % 256)] := by
  simp only [twoPaddedBytes, List.cons.injEq, and_true]
  refine ⟨?_, ?_⟩ <;>
  · apply BitVec.eq_of_toNat_eq
    simp [BitVec.extractLsb'_toNat, Nat.shiftRight_eq_div_pow]

/-! ## The encoder's fields -/

theorem firstIndex_eq (b : Byte) : firstIndex b = BitVec.ofNat 6 (b.toNat / 4) := by
  revert b; decide +kernel

theorem pendingTwo_eq (b : Byte) : pendingTwo b = BitVec.ofNat 6 (b.toNat % 4 * 16) := by
  revert b; decide +kernel

theorem pendingFour_eq (b : Byte) : pendingFour b = BitVec.ofNat 6 (b.toNat % 16 * 4) := by
  revert b; decide +kernel

theorem fourthIndex_eq (b : Byte) : fourthIndex b = BitVec.ofNat 6 (b.toNat % 64) := by
  revert b; decide +kernel

theorem secondIndex_or (acc : Sextet) (b : Byte) : secondIndex acc b = acc ||| BitVec.ofNat 6 (b.toNat / 16) := by
  have h : ∀ b : Byte, (b.extractLsb' 4 4).setWidth 6 = BitVec.ofNat 6 (b.toNat / 16) := by decide +kernel
  rw [secondIndex, h]

theorem thirdIndex_or (acc : Sextet) (b : Byte) : thirdIndex acc b = acc ||| BitVec.ofNat 6 (b.toNat / 64) := by
  have h : ∀ b : Byte, (b.extractLsb' 6 2).setWidth 6 = BitVec.ofNat 6 (b.toNat / 64) := by decide +kernel
  rw [thirdIndex, h]

/-- Two pending bits joined with four of the next byte: the OR adds, since the bits do not meet. -/
theorem secondIndex_pendingTwo (a b : Byte) :
    secondIndex (pendingTwo a) b = BitVec.ofNat 6 (a.toNat % 4 * 16 + b.toNat / 16) := by
  have key : ∀ m : Fin 4, ∀ n : Fin 16,
      BitVec.ofNat 6 (m.val * 16) ||| BitVec.ofNat 6 n.val = BitVec.ofNat 6 (m.val * 16 + n.val) := by decide
  have hb : b.toNat / 16 < 16 := by have := b.isLt; omega
  rw [secondIndex_or, pendingTwo_eq]
  exact key ⟨a.toNat % 4, Nat.mod_lt _ (by decide)⟩ ⟨b.toNat / 16, hb⟩

/-- Four pending bits joined with two of the next byte. -/
theorem thirdIndex_pendingFour (a b : Byte) :
    thirdIndex (pendingFour a) b = BitVec.ofNat 6 (a.toNat % 16 * 4 + b.toNat / 64) := by
  have key : ∀ m : Fin 16, ∀ n : Fin 4,
      BitVec.ofNat 6 (m.val * 4) ||| BitVec.ofNat 6 n.val = BitVec.ofNat 6 (m.val * 4 + n.val) := by decide
  have hb : b.toNat / 64 < 4 := by have := b.isLt; omega
  rw [thirdIndex_or, pendingFour_eq]
  exact key ⟨a.toNat % 16, Nat.mod_lt _ (by decide)⟩ ⟨b.toNat / 64, hb⟩

end Sys2Proof.Machine
end

