-- ==== Sys2Proof/Laws/State.lean ====
section
/-! SUPPORT. One lemma per field per update of the state, so that no proof unfolds a record update. -/

namespace Sys2Proof.Machine

@[simp] theorem State.setDec_dec (s : State) (d : DecRegs) : (s.setDec d).dec = d := rfl
@[simp] theorem State.setDec_enc (s : State) (d : DecRegs) : (s.setDec d).enc = s.enc := rfl
@[simp] theorem State.setDec_fault (s : State) (d : DecRegs) : (s.setDec d).fault = s.fault := rfl
@[simp] theorem State.setDec_config (s : State) (d : DecRegs) : (s.setDec d).config = s.config := rfl
@[simp] theorem State.setDec_input (s : State) (d : DecRegs) : (s.setDec d).input = s.input := rfl
@[simp] theorem State.setDec_output (s : State) (d : DecRegs) : (s.setDec d).output = s.output := rfl
@[simp] theorem State.setDec_pending (s : State) (d : DecRegs) : (s.setDec d).pending = s.pending := rfl
@[simp] theorem State.setDec_replies (s : State) (d : DecRegs) : (s.setDec d).replies = s.replies := rfl
@[simp] theorem State.setDec_freeCount (s : State) (d : DecRegs) : (s.setDec d).freeCount = s.freeCount := rfl

@[simp] theorem State.setEnc_dec (s : State) (e : EncRegs) : (s.setEnc e).dec = s.dec := rfl
@[simp] theorem State.setEnc_enc (s : State) (e : EncRegs) : (s.setEnc e).enc = e := rfl
@[simp] theorem State.setEnc_fault (s : State) (e : EncRegs) : (s.setEnc e).fault = s.fault := rfl
@[simp] theorem State.setEnc_config (s : State) (e : EncRegs) : (s.setEnc e).config = s.config := rfl
@[simp] theorem State.setEnc_input (s : State) (e : EncRegs) : (s.setEnc e).input = s.input := rfl
@[simp] theorem State.setEnc_output (s : State) (e : EncRegs) : (s.setEnc e).output = s.output := rfl
@[simp] theorem State.setEnc_pending (s : State) (e : EncRegs) : (s.setEnc e).pending = s.pending := rfl
@[simp] theorem State.setEnc_replies (s : State) (e : EncRegs) : (s.setEnc e).replies = s.replies := rfl
@[simp] theorem State.setEnc_freeCount (s : State) (e : EncRegs) : (s.setEnc e).freeCount = s.freeCount := rfl

@[simp] theorem State.setFault_dec (s : State) (f : FaultReg) : (s.setFault f).dec = s.dec := rfl
@[simp] theorem State.setFault_enc (s : State) (f : FaultReg) : (s.setFault f).enc = s.enc := rfl
@[simp] theorem State.setFault_fault (s : State) (f : FaultReg) : (s.setFault f).fault = f := rfl
@[simp] theorem State.setFault_config (s : State) (f : FaultReg) : (s.setFault f).config = s.config := rfl
@[simp] theorem State.setFault_input (s : State) (f : FaultReg) : (s.setFault f).input = s.input := rfl
@[simp] theorem State.setFault_output (s : State) (f : FaultReg) : (s.setFault f).output = s.output := rfl
@[simp] theorem State.setFault_pending (s : State) (f : FaultReg) : (s.setFault f).pending = s.pending := rfl
@[simp] theorem State.setFault_replies (s : State) (f : FaultReg) : (s.setFault f).replies = s.replies := rfl
@[simp] theorem State.setFault_freeCount (s : State) (f : FaultReg) : (s.setFault f).freeCount = s.freeCount := rfl

@[simp] theorem State.setOutput_dec (s : State) (o : OutBuf) : (s.setOutput o).dec = s.dec := rfl
@[simp] theorem State.setOutput_enc (s : State) (o : OutBuf) : (s.setOutput o).enc = s.enc := rfl
@[simp] theorem State.setOutput_fault (s : State) (o : OutBuf) : (s.setOutput o).fault = s.fault := rfl
@[simp] theorem State.setOutput_config (s : State) (o : OutBuf) : (s.setOutput o).config = s.config := rfl
@[simp] theorem State.setOutput_input (s : State) (o : OutBuf) : (s.setOutput o).input = s.input := rfl
@[simp] theorem State.setOutput_output (s : State) (o : OutBuf) : (s.setOutput o).output = o := rfl
@[simp] theorem State.setOutput_pending (s : State) (o : OutBuf) : (s.setOutput o).pending = s.pending := rfl
@[simp] theorem State.setOutput_replies (s : State) (o : OutBuf) : (s.setOutput o).replies = s.replies := rfl
@[simp] theorem State.setOutput_freeCount (s : State) (o : OutBuf) : (s.setOutput o).freeCount = s.freeCount := rfl

@[simp] theorem State.setPending_dec (s : State) (es : List HostEvent) : (s.setPending es).dec = s.dec := rfl
@[simp] theorem State.setPending_enc (s : State) (es : List HostEvent) : (s.setPending es).enc = s.enc := rfl
@[simp] theorem State.setPending_fault (s : State) (es : List HostEvent) : (s.setPending es).fault = s.fault := rfl
@[simp] theorem State.setPending_config (s : State) (es : List HostEvent) : (s.setPending es).config = s.config := rfl
@[simp] theorem State.setPending_input (s : State) (es : List HostEvent) : (s.setPending es).input = s.input := rfl
@[simp] theorem State.setPending_output (s : State) (es : List HostEvent) : (s.setPending es).output = s.output := rfl
@[simp] theorem State.setPending_pending (s : State) (es : List HostEvent) : (s.setPending es).pending = es := rfl
@[simp] theorem State.setPending_replies (s : State) (es : List HostEvent) : (s.setPending es).replies = s.replies := rfl
@[simp] theorem State.setPending_freeCount (s : State) (es : List HostEvent) : (s.setPending es).freeCount = s.freeCount := rfl

@[simp] theorem State.present_dec (s : State) (i : List Byte) (o : OutBuf) : (s.present i o).dec = s.dec := rfl
@[simp] theorem State.present_enc (s : State) (i : List Byte) (o : OutBuf) : (s.present i o).enc = s.enc := rfl
@[simp] theorem State.present_fault (s : State) (i : List Byte) (o : OutBuf) : (s.present i o).fault = s.fault := rfl
@[simp] theorem State.present_config (s : State) (i : List Byte) (o : OutBuf) : (s.present i o).config = s.config := rfl
@[simp] theorem State.present_input (s : State) (i : List Byte) (o : OutBuf) : (s.present i o).input = i := rfl
@[simp] theorem State.present_output (s : State) (i : List Byte) (o : OutBuf) : (s.present i o).output = o := rfl
@[simp] theorem State.present_pending (s : State) (i : List Byte) (o : OutBuf) : (s.present i o).pending = s.pending := rfl
@[simp] theorem State.present_replies (s : State) (i : List Byte) (o : OutBuf) : (s.present i o).replies = s.replies := rfl
@[simp] theorem State.present_freeCount (s : State) (i : List Byte) (o : OutBuf) : (s.present i o).freeCount = s.freeCount := rfl

@[simp] theorem State.pushReply_dec (s : State) (r : Reply) : (s.pushReply r).dec = s.dec := rfl
@[simp] theorem State.pushReply_enc (s : State) (r : Reply) : (s.pushReply r).enc = s.enc := rfl
@[simp] theorem State.pushReply_fault (s : State) (r : Reply) : (s.pushReply r).fault = s.fault := rfl
@[simp] theorem State.pushReply_config (s : State) (r : Reply) : (s.pushReply r).config = s.config := rfl
@[simp] theorem State.pushReply_input (s : State) (r : Reply) : (s.pushReply r).input = s.input := rfl
@[simp] theorem State.pushReply_output (s : State) (r : Reply) : (s.pushReply r).output = s.output := rfl
@[simp] theorem State.pushReply_pending (s : State) (r : Reply) : (s.pushReply r).pending = s.pending := rfl
@[simp] theorem State.pushReply_replies (s : State) (r : Reply) : (s.pushReply r).replies = s.replies ++ [r] := rfl
@[simp] theorem State.pushReply_freeCount (s : State) (r : Reply) : (s.pushReply r).freeCount = s.freeCount := rfl

@[simp] theorem State.bumpFree_dec (s : State) : (s.bumpFree).dec = s.dec := rfl
@[simp] theorem State.bumpFree_enc (s : State) : (s.bumpFree).enc = s.enc := rfl
@[simp] theorem State.bumpFree_fault (s : State) : (s.bumpFree).fault = s.fault := rfl
@[simp] theorem State.bumpFree_config (s : State) : (s.bumpFree).config = s.config := rfl
@[simp] theorem State.bumpFree_input (s : State) : (s.bumpFree).input = s.input := rfl
@[simp] theorem State.bumpFree_output (s : State) : (s.bumpFree).output = s.output := rfl
@[simp] theorem State.bumpFree_pending (s : State) : (s.bumpFree).pending = s.pending := rfl
@[simp] theorem State.bumpFree_replies (s : State) : (s.bumpFree).replies = s.replies := rfl
@[simp] theorem State.bumpFree_freeCount (s : State) : (s.bumpFree).freeCount = s.freeCount + 1 := rfl

@[simp] theorem State.powerOnReset_dec (s : State) : (s.powerOnReset).dec = State.reset.dec := rfl
@[simp] theorem State.powerOnReset_enc (s : State) : (s.powerOnReset).enc = State.reset.enc := rfl
@[simp] theorem State.powerOnReset_fault (s : State) : (s.powerOnReset).fault = State.reset.fault := rfl
@[simp] theorem State.powerOnReset_config (s : State) : (s.powerOnReset).config = s.config := rfl
@[simp] theorem State.powerOnReset_input (s : State) : (s.powerOnReset).input = s.input := rfl
@[simp] theorem State.powerOnReset_output (s : State) : (s.powerOnReset).output = s.output := rfl
@[simp] theorem State.powerOnReset_pending (s : State) : (s.powerOnReset).pending = s.pending := rfl
@[simp] theorem State.powerOnReset_replies (s : State) : (s.powerOnReset).replies = s.replies := rfl
@[simp] theorem State.powerOnReset_freeCount (s : State) : (s.powerOnReset).freeCount = s.freeCount := rfl

@[simp] theorem appendOut_dec (us : List Byte) (s : State) : (appendOut us s).dec = s.dec := rfl
@[simp] theorem appendOut_enc (us : List Byte) (s : State) : (appendOut us s).enc = s.enc := rfl
@[simp] theorem appendOut_fault (us : List Byte) (s : State) : (appendOut us s).fault = s.fault := rfl
@[simp] theorem appendOut_config (us : List Byte) (s : State) : (appendOut us s).config = s.config := rfl
@[simp] theorem appendOut_input (us : List Byte) (s : State) : (appendOut us s).input = s.input := rfl
@[simp] theorem appendOut_output (us : List Byte) (s : State) : (appendOut us s).output = { s.output with data := s.output.data ++ us } := rfl
@[simp] theorem appendOut_pending (us : List Byte) (s : State) : (appendOut us s).pending = s.pending := rfl
@[simp] theorem appendOut_replies (us : List Byte) (s : State) : (appendOut us s).replies = s.replies := rfl
@[simp] theorem appendOut_freeCount (us : List Byte) (s : State) : (appendOut us s).freeCount = s.freeCount := rfl

/-- The state with another encoder and another value of the free values' counter: all that an encoder command writes. -/
def State.withEnc (s : State) (e : EncRegs) (n : Nat) : State := { s with enc := e, freeCount := n }

@[simp] theorem State.withEnc_dec (s : State) (e : EncRegs) (n : Nat) : (s.withEnc e n).dec = s.dec := rfl
@[simp] theorem State.withEnc_enc (s : State) (e : EncRegs) (n : Nat) : (s.withEnc e n).enc = e := rfl
@[simp] theorem State.withEnc_fault (s : State) (e : EncRegs) (n : Nat) : (s.withEnc e n).fault = s.fault := rfl
@[simp] theorem State.withEnc_config (s : State) (e : EncRegs) (n : Nat) : (s.withEnc e n).config = s.config := rfl
@[simp] theorem State.withEnc_input (s : State) (e : EncRegs) (n : Nat) : (s.withEnc e n).input = s.input := rfl
@[simp] theorem State.withEnc_output (s : State) (e : EncRegs) (n : Nat) : (s.withEnc e n).output = s.output := rfl
@[simp] theorem State.withEnc_pending (s : State) (e : EncRegs) (n : Nat) : (s.withEnc e n).pending = s.pending := rfl
@[simp] theorem State.withEnc_replies (s : State) (e : EncRegs) (n : Nat) : (s.withEnc e n).replies = s.replies := rfl

/-- Writing back what a register group holds changes nothing. -/
@[simp] theorem State.setDec_self (s : State) : s.setDec s.dec = s := rfl

@[simp] theorem State.setEnc_self (s : State) : s.setEnc s.enc = s := rfl

@[simp] theorem State.setFault_self (s : State) : s.setFault s.fault = s := rfl

@[simp] theorem State.setPending_self (s : State) : s.setPending s.pending = s := rfl

end Sys2Proof.Machine
end

