-- ==== Sys2Proof/Laws/Ops.lean ====
section
/-! SUPPORT. What each shared operation can do, said once. -/

namespace Sys2Proof.Machine

/-! ## Faults and errors -/

@[simp] theorem raiseFault_response (k : FaultKind) (i : BitVec 16) (s : State) :
    (raiseFault k i s).2 = .ofStatus .fault := rfl

theorem raiseFault_of_unfaulted {s : State} (h : s.fault.kind = .none) (k : FaultKind) (i : BitVec 16) :
    raiseFault k i s = (s.setFault { kind := k, info := i }, .ofStatus .fault) := by
  simp [raiseFault, h]

/-- The first fault is the one recorded (60_exceptions.md R109). -/
theorem raiseFault_of_faulted {s : State} (h : s.fault.kind ≠ .none) (k : FaultKind) (i : BitVec 16) :
    raiseFault k i s = (s, .ofStatus .fault) := by
  simp [raiseFault, h]

/-- A fault writes the fault register and nothing else (60_exceptions.md R112). -/
theorem raiseFault_writes_fault (k : FaultKind) (i : BitVec 16) (s : State) :
    ∃ f, (raiseFault k i s).1 = s.setFault f := by
  by_cases h : s.fault.kind = .none
  · exact ⟨_, by rw [raiseFault_of_unfaulted h]⟩
  · exact ⟨s.fault, by rw [raiseFault_of_faulted h]; rfl⟩

@[simp] theorem raiseInvalidSymbol_fst (c : Byte) (s : State) :
    (raiseInvalidSymbol c s).1 = s.setDec { s.dec with errKind := .invalidSymbol, errCode := c.setWidth 9 } := rfl

@[simp] theorem raiseInvalidSymbol_snd (c : Byte) (s : State) :
    (raiseInvalidSymbol c s).2 = .ofStatus .invalidSymbol := rfl

@[simp] theorem raiseIncompleteStream_fst (s : State) :
    (raiseIncompleteStream s).1 = s.setDec { s.dec with errKind := .incompleteStream, errCode := 0x100#9 } := rfl

@[simp] theorem raiseIncompleteStream_snd (s : State) :
    (raiseIncompleteStream s).2 = .ofStatus .incompleteStream := rfl

@[simp] theorem Response.ofStatus_status (st : Status) : (Response.ofStatus st).status = st := rfl

@[simp] theorem Response.ofStatus_units (st : Status) : (Response.ofStatus st).units = [] := rfl

@[simp] theorem Response.ofStatus_complete (st : Status) : (Response.ofStatus st).complete = false := rfl

@[simp] theorem Response.emitting_status (us : List Byte) : (Response.emitting us).status = .ok := rfl

@[simp] theorem Response.emitting_units (us : List Byte) : (Response.emitting us).units = us := rfl

@[simp] theorem Response.emitting_complete (us : List Byte) : (Response.emitting us).complete = false := rfl

@[simp] theorem Response.completed_status : Response.completed.status = .ok := rfl

@[simp] theorem Response.completed_units : Response.completed.units = [] := rfl

/-! ## The prologues -/

theorem unlessFaulted_of_faulted {s : State} (h : s.fault.kind ≠ .none) (body : State × Response) :
    unlessFaulted s body = (s, .ofStatus .fault) := by
  simp [unlessFaulted, h]

theorem unlessFaulted_of_unfaulted {s : State} (h : s.fault.kind = .none) (body : State × Response) :
    unlessFaulted s body = body := by
  simp [unlessFaulted, h]

theorem decPrologue_of_faulted {s : State} (h : s.fault.kind ≠ .none) (body : State × Response) :
    decPrologue s body = (s, .ofStatus .fault) :=
  unlessFaulted_of_faulted h _

theorem decPrologue_of_illegal {s : State} (h : s.fault.kind = .none) (hm : s.dec.mode.illegal = true)
    (body : State × Response) :
    decPrologue s body =
      (s.setFault { kind := .fatalState, info := fatalInfo 0#1 s.dec.mode.code }, .ofStatus .fault) := by
  rw [decPrologue, unlessFaulted_of_unfaulted h, if_pos hm, raiseFault_of_unfaulted h]

theorem decPrologue_of_error {s : State} (h : s.fault.kind = .none) (hm : s.dec.mode.illegal = false)
    (he : s.dec.errKind ≠ .none) (body : State × Response) : decPrologue s body = (s, .ofStatus .sticky) := by
  simp [decPrologue, unlessFaulted_of_unfaulted h, hm, he]

theorem decPrologue_of_ready {s : State} (h : s.fault.kind = .none) (hm : s.dec.mode.illegal = false)
    (he : s.dec.errKind = .none) (body : State × Response) : decPrologue s body = body := by
  simp [decPrologue, unlessFaulted_of_unfaulted h, hm, he]

/-! ## Answering the host -/

theorem answerCommand_next_iff {body : State → State × Response} {s t : State} :
    answerCommand body s = .next t ↔
      s.config.wf = true ∧ t = (body s).1.pushReply (.response (body s).2) := by
  by_cases h : s.config.wf = true
  · simp only [answerCommand, h, if_true, Host.Outcome.next.injEq, true_and]
    exact eq_comm
  · simp [answerCommand, h]

theorem answerCommand_of_wf {s : State} (h : s.config.wf = true) (body : State → State × Response) :
    answerCommand body s = .next ((body s).1.pushReply (.response (body s).2)) := if_pos h

theorem answerRequest_next_iff {body : State → State × AdpResult} {s t : State} :
    answerRequest body s = .next t ↔
      s.config.wf = true ∧ t = (body s).1.pushReply (.result (body s).2 (body s).1.output) := by
  by_cases h : s.config.wf = true
  · simp only [answerRequest, h, if_true, Host.Outcome.next.injEq, true_and]
    exact eq_comm
  · simp [answerRequest, h]

theorem answerRequest_of_wf {s : State} (h : s.config.wf = true) (body : State → State × AdpResult) :
    answerRequest body s = .next ((body s).1.pushReply (.result (body s).2 (body s).1.output)) := if_pos h

/-! ## The column -/

theorem addColumn_of_fits {n : Nat} {s : State} (h : s.enc.col.toNat + n < 2 ^ 17) :
    addColumn n s = s.setEnc { s.enc with col := BitVec.ofNat 17 (s.enc.col.toNat + n) } := if_pos h

theorem addColumn_of_overflow {n : Nat} {s : State} (h : ¬ s.enc.col.toNat + n < 2 ^ 17) :
    addColumn n s = (s.setEnc { s.enc with col := Config.freeColumn s.freeCount }).bumpFree := if_neg h

/-- An addition to the column writes the column and, where it used a free value, the counter. -/
theorem addColumn_writes (n : Nat) (s : State) :
    ∃ c m, addColumn n s = s.withEnc { s.enc with col := c } m := by
  by_cases h : s.enc.col.toNat + n < 2 ^ 17
  · exact ⟨_, s.freeCount, by rw [addColumn_of_fits h]; rfl⟩
  · exact ⟨_, _, by rw [addColumn_of_overflow h]; rfl⟩

/-! ## The output buffer -/

theorem remaining_eq (o : OutBuf) : remaining o = o.cap - o.data.length := rfl

/-- An append that the gate let through keeps the buffer's form (43_adapter.md R89, R91). -/
theorem OutBuf.wf_append {o : OutBuf} (h : o.wf = true) {us : List Byte} (hu : us.length ≤ remaining o) :
    OutBuf.wf { o with data := o.data ++ us } = true := by
  simp only [OutBuf.wf, decide_eq_true_eq, List.length_append, remaining] at *
  omega

@[simp] theorem reserve_dec (c : Config) : reserve .dec c = 3 := rfl

@[simp] theorem reserve_enc (c : Config) : reserve .enc c = max 3 (c.sep.length + 1) := rfl

theorem three_le_reserve (e : Engine) (c : Config) : 3 ≤ reserve e c := by
  cases e <;> simp

end Sys2Proof.Machine
end

