-- ==== Sys2Proof/Laws/Decoder.lean ====
section
/-! SUPPORT. What a decoder command can do, said once. -/

namespace Sys2Proof.Machine

@[simp] theorem groupBytes_length (g : BitVec 24) : (groupBytes g).length = 3 := rfl

@[simp] theorem twoPaddedBytes_length (a : BitVec 18) : (twoPaddedBytes a).length = 2 := rfl

/-- The decoder takes commands normally: no fault, a legal mode, no recorded error. -/
def DecReady (s : State) : Prop :=
  s.fault.kind = .none ∧ s.dec.mode.illegal = false ∧ s.dec.errKind = .none

/-- The four ways a decoder command that runs the prologue can go (41_decoder.md R58). -/
theorem decPrologue_cases (s : State) (body : State × Response) :
    (s.fault.kind ≠ .none ∧ decPrologue s body = (s, .ofStatus .fault)) ∨
    (s.fault.kind = .none ∧ s.dec.mode.illegal = true ∧ decPrologue s body =
      (s.setFault { kind := .fatalState, info := fatalInfo 0#1 s.dec.mode.code }, .ofStatus .fault)) ∨
    (s.fault.kind = .none ∧ s.dec.mode.illegal = false ∧ s.dec.errKind ≠ .none ∧
      decPrologue s body = (s, .ofStatus .sticky)) ∨
    (DecReady s ∧ decPrologue s body = body) := by
  by_cases h : s.fault.kind = .none
  · by_cases hm : s.dec.mode.illegal = true
    · exact .inr (.inl ⟨h, hm, decPrologue_of_illegal h hm body⟩)
    · have hm : s.dec.mode.illegal = false := by simpa using hm
      by_cases he : s.dec.errKind = .none
      · exact .inr (.inr (.inr ⟨⟨h, hm, he⟩, decPrologue_of_ready h hm he body⟩))
      · exact .inr (.inr (.inl ⟨h, hm, he, decPrologue_of_error h hm he body⟩))
  · exact .inl ⟨h, decPrologue_of_faulted h body⟩

/-- What a ready `DEC.STEP` does: raise `InvalidSymbol` of its unit, or write the mode and the accumulator and emit at
most three units. -/
theorem decStep_of_ready {s : State} (h : DecReady s) (u : Byte) :
    decStep u s = raiseInvalidSymbol u s ∨
    ∃ m a us, decStep u s = (s.setDec { s.dec with mode := m, acc := a }, .emitting us) ∧ us.length ≤ 3 := by
  obtain ⟨hf, hm, he⟩ := h
  rw [decStep, decPrologue_of_ready hf hm he]
  split
  · unfold decStart; split
    · exact .inl rfl
    · exact .inr ⟨s.dec.mode, s.dec.acc, [], rfl, by simp⟩
    · exact .inr ⟨_, _, _, rfl, by simp⟩
    · exact .inl rfl
  · unfold decSecond; split
    · exact .inl rfl
    · exact .inl rfl
    · exact .inr ⟨_, _, _, rfl, by simp⟩
    · exact .inl rfl
  · unfold decThird; split
    · exact .inr ⟨.padding, s.dec.acc, [], rfl, by simp⟩
    · exact .inl rfl
    · exact .inr ⟨_, _, _, rfl, by simp⟩
    · exact .inl rfl
  · unfold decFourth; split
    · exact .inr ⟨.start, s.dec.acc, _, rfl, by simp⟩
    · exact .inl rfl
    · exact .inr ⟨.start, s.dec.acc, _, rfl, by simp⟩
    · exact .inl rfl
  · unfold decPadding; split
    · exact .inr ⟨.start, s.dec.acc, _, rfl, by simp⟩
    · exact .inl rfl
    · exact .inl rfl
    · exact .inl rfl
  · exact .inr ⟨s.dec.mode, s.dec.acc, [], rfl, by simp⟩
  · simp_all [DecMode.illegal]
  · simp_all [DecMode.illegal]

/-- What a ready `DEC.EOF` does. Of the accumulator, stale in `EOF`, nothing is said (10_state.md R24). -/
theorem decEof_of_ready {s : State} (h : DecReady s) :
    decEof s = raiseIncompleteStream s ∨
    ∃ a, decEof s = (s.setDec { s.dec with mode := .eof, acc := a }, .emitting []) := by
  obtain ⟨hf, hm, he⟩ := h
  rw [decEof, decPrologue_of_ready hf hm he]
  split
  · exact .inr ⟨_, rfl⟩
  · exact .inl rfl
  · exact .inl rfl
  · exact .inl rfl
  · exact .inl rfl
  · rename_i h5; rw [← h5]; exact .inr ⟨_, rfl⟩
  · simp_all [DecMode.illegal]
  · simp_all [DecMode.illegal]

/-- What a ready `DEC.CHECK` does. -/
theorem decCheck_of_ready {s : State} (h : DecReady s) :
    decCheck s = (if s.dec.mode.isComplete then (s, .completed) else raiseIncompleteStream s) := by
  obtain ⟨hf, hm, he⟩ := h
  rw [decCheck, decPrologue_of_ready hf hm he]

/-- A decoder command writes the decoder's registers and the fault register, and nothing else (10_state.md R11). -/
theorem decStep_writes (u : Byte) (s : State) : ∃ d f, (decStep u s).1 = (s.setDec d).setFault f := by
  rcases decPrologue_cases s _ with ⟨-, h⟩ | ⟨-, -, h⟩ | ⟨-, -, -, h⟩ | ⟨hr, -⟩
  · exact ⟨s.dec, s.fault, by rw [decStep, h]; rfl⟩
  · exact ⟨s.dec, _, by rw [decStep, h]; rfl⟩
  · exact ⟨s.dec, s.fault, by rw [decStep, h]; rfl⟩
  · rcases decStep_of_ready hr u with h | ⟨m, a, us, h, -⟩
    · exact ⟨_, s.fault, by rw [h]; rfl⟩
    · exact ⟨_, s.fault, by rw [h]; rfl⟩

theorem decEof_writes (s : State) : ∃ d f, (decEof s).1 = (s.setDec d).setFault f := by
  rcases decPrologue_cases s _ with ⟨-, h⟩ | ⟨-, -, h⟩ | ⟨-, -, -, h⟩ | ⟨hr, -⟩
  · exact ⟨s.dec, s.fault, by rw [decEof, h]; rfl⟩
  · exact ⟨s.dec, _, by rw [decEof, h]; rfl⟩
  · exact ⟨s.dec, s.fault, by rw [decEof, h]; rfl⟩
  · rcases decEof_of_ready hr with h | ⟨a, h⟩
    · exact ⟨_, s.fault, by rw [h]; rfl⟩
    · exact ⟨_, s.fault, by rw [h]; rfl⟩

/-- A step the adapter runs never answers `STICKY`, nor `INCOMPLETE_STREAM` (43_adapter.md R92). -/
theorem decStep_status {s : State} (he : s.dec.errKind = .none) (u : Byte) :
    (decStep u s).2.status = .ok ∨ (decStep u s).2.status = .invalidSymbol ∨ (decStep u s).2.status = .fault := by
  rcases decPrologue_cases s _ with ⟨-, h⟩ | ⟨-, -, h⟩ | ⟨-, -, hn, -⟩ | ⟨hr, -⟩
  · exact .inr (.inr (by rw [decStep, h]; rfl))
  · exact .inr (.inr (by rw [decStep, h]; rfl))
  · exact absurd he hn
  · rcases decStep_of_ready hr u with h | ⟨m, a, us, h, -⟩
    · exact .inr (.inl (by rw [h]; rfl))
    · exact .inl (by rw [h]; rfl)

end Sys2Proof.Machine
end

