-- ==== Sys2Proof/Laws/Encoder.lean ====
section
/-! SUPPORT. What an encoder command can do, said once. -/

namespace Sys2Proof.Machine

/-- What `ENC.STEP` in `START` does. The column is reset before it is counted when the line is full. -/
theorem encStart_effect (b : Byte) (s : State) :
    ∃ c n, encStart b s =
      (s.withEnc { mode := .partial1, acc := pendingTwo b, col := c } n,
        .emitting ((if mustWrap s then s.config.sep else []) ++ [alphabet (firstIndex b)])) := by
  unfold encStart
  by_cases h : mustWrap s = true
  · obtain ⟨c, n, hc⟩ := addColumn_writes 1 (s.setEnc { s.enc with col := 0#17 })
    exact ⟨c, n, by simp only [h, if_true, hc]; rfl⟩
  · obtain ⟨c, n, hc⟩ := addColumn_writes 1 s
    exact ⟨c, n, by simp only [h, Bool.false_eq_true, if_false, hc]; rfl⟩

/-- What a flush of pending bits does. Of the accumulator, stale in `EOF`, nothing is said (10_state.md R24). -/
theorem encFlushGroup_effect (pads : Nat) (s : State) :
    ∃ a c n, encFlushGroup pads s =
      (s.withEnc { mode := .eof, acc := a, col := c } n,
        .emitting (alphabet s.enc.acc :: List.replicate pads padCode)) := by
  obtain ⟨c, n, hc⟩ := addColumn_writes (1 + pads) s
  exact ⟨_, c, n, by simp only [encFlushGroup, hc]; rfl⟩

/-- An unfaulted `ENC.STEP` writes the encoder, answers `OK` and emits at most `max(3, SEP_LEN + 1)` units. -/
theorem encStep_of_unfaulted {s : State} (h : s.fault.kind = .none) (b : Byte) :
    ∃ e n us, encStep b s = (s.withEnc e n, .emitting us) ∧ us.length ≤ max 3 (s.config.sep.length + 1) := by
  rw [encStep, unlessFaulted_of_unfaulted h]
  split
  · obtain ⟨c, n, hc⟩ := encStart_effect b s
    exact ⟨_, _, _, hc, by split <;> simp⟩
  · obtain ⟨c, n, hc⟩ := addColumn_writes 1 s
    exact ⟨_, n, _, by simp only [encPartial1, hc]; rfl, by simp⟩
  · obtain ⟨c, n, hc⟩ := addColumn_writes 2 s
    exact ⟨_, n, _, by simp only [encPartial2, hc]; rfl, by simp⟩
  · exact ⟨s.enc, s.freeCount, [], rfl, by simp⟩

/-- An unfaulted `ENC.EOF` writes the encoder, answers `OK` and emits at most three units. -/
theorem encEof_of_unfaulted {s : State} (h : s.fault.kind = .none) :
    ∃ e n us, encEof s = (s.withEnc e n, .emitting us) ∧ us.length ≤ 3 := by
  rw [encEof, unlessFaulted_of_unfaulted h]
  split
  · exact ⟨_, s.freeCount, [], rfl, by simp⟩
  · obtain ⟨a, c, n, hc⟩ := encFlushGroup_effect 2 s
    exact ⟨_, _, _, hc, by simp⟩
  · obtain ⟨a, c, n, hc⟩ := encFlushGroup_effect 1 s
    exact ⟨_, _, _, hc, by simp⟩
  · exact ⟨s.enc, s.freeCount, [], rfl, by simp⟩

/-- An encoder command writes the encoder's registers and the free values' counter, and nothing else. -/
theorem encStep_writes (b : Byte) (s : State) : ∃ e n, (encStep b s).1 = s.withEnc e n := by
  by_cases h : s.fault.kind = .none
  · obtain ⟨e, n, us, hs, -⟩ := encStep_of_unfaulted h b
    exact ⟨e, n, by rw [hs]⟩
  · exact ⟨s.enc, s.freeCount, by rw [encStep, unlessFaulted_of_faulted h]; rfl⟩

theorem encEof_writes (s : State) : ∃ e n, (encEof s).1 = s.withEnc e n := by
  by_cases h : s.fault.kind = .none
  · obtain ⟨e, n, us, hs, -⟩ := encEof_of_unfaulted h
    exact ⟨e, n, by rw [hs]⟩
  · exact ⟨s.enc, s.freeCount, by rw [encEof, unlessFaulted_of_faulted h]; rfl⟩

end Sys2Proof.Machine
end

