-- ==== Sys2Proof/Laws/Adapter.lean ====
section
/-! SUPPORT. What an adapter request can do, said once. -/

namespace Sys2Proof.Machine

@[simp] theorem stoppedAt_code (c : AdpCode) (k : Nat) : (stoppedAt c k).code = c := rfl
@[simp] theorem stoppedAt_position (c : AdpCode) (k : Nat) : (stoppedAt c k).position = k := rfl
@[simp] theorem stoppedAt_consumed (c : AdpCode) (k : Nat) : (stoppedAt c k).consumed = k := rfl

/-- The encoder holds no error (60_exceptions.md R104). -/
@[simp] theorem heldError_enc (s : State) : heldError .enc s = none := rfl

theorem heldError_dec_eq_none_iff {s : State} : heldError .dec s = none ↔ s.dec.errKind = .none := by
  unfold heldError
  cases s.dec.errKind <;> simp

/-- Repeating a held error writes at most the free values' counter, and its code is `MALFORMED` or `UNDERFLOW`
(43_adapter.md R97). -/
theorem heldError_effect {e : Engine} {s t : State} {c : AdpCode} (h : heldError e s = some (t, c)) :
    (∃ n, t = s.withEnc s.enc n) ∧ (c = .malformed ∨ c = .underflow) := by
  cases e with
  | enc => simp at h
  | dec =>
    unfold heldError at h
    cases hk : s.dec.errKind <;> simp only [hk, reduceCtorEq, Option.some.injEq, Prod.mk.injEq] at h
    · exact ⟨⟨s.freeCount, h.1.symm⟩, .inl h.2.symm⟩
    · exact ⟨⟨s.freeCount, h.1.symm⟩, .inr h.2.symm⟩
    · refine ⟨⟨s.freeCount + 1, h.1.symm⟩, ?_⟩
      rw [← h.2]
      split <;> simp

/-! ## The loop, one line of R92 at a time -/

theorem transcodeFrom_nil (e : Engine) (k : Nat) (s : State) :
    transcodeFrom e [] k s = (s, stoppedAt (if s.fault.kind ≠ .none then .aborted else .consumedAll) k) := rfl

theorem transcodeFrom_of_faulted {s : State} (h : s.fault.kind ≠ .none) (e : Engine) (us : List Byte) (k : Nat) :
    transcodeFrom e us k s = (s, stoppedAt .aborted k) := by
  cases us <;> simp [transcodeFrom, h]

theorem transcodeFrom_of_held {s t : State} {e : Engine} {c : AdpCode} (h : s.fault.kind = .none)
    (hh : heldError e s = some (t, c)) (u : Byte) (us : List Byte) (k : Nat) :
    transcodeFrom e (u :: us) k s = (t, stoppedAt c k) := by
  simp [transcodeFrom, h, hh]

theorem transcodeFrom_of_full {s : State} {e : Engine} (h : s.fault.kind = .none) (hh : heldError e s = none)
    (hg : remaining s.output < reserve e s.config) (u : Byte) (us : List Byte) (k : Nat) :
    transcodeFrom e (u :: us) k s = (s, stoppedAt .outOfSpace k) := by
  simp [transcodeFrom, h, hh, hg]

theorem transcodeFrom_of_ok {s : State} {e : Engine} (h : s.fault.kind = .none) (hh : heldError e s = none)
    (hg : ¬ remaining s.output < reserve e s.config) {u : Byte} (hok : (engineStep e u s).2.status = .ok)
    (us : List Byte) (k : Nat) :
    transcodeFrom e (u :: us) k s =
      transcodeFrom e us (k + 1) (appendOut (engineStep e u s).2.units (engineStep e u s).1) := by
  simp [transcodeFrom, h, hh, hg, hok]

theorem transcodeFrom_of_stop {s : State} {e : Engine} (h : s.fault.kind = .none) (hh : heldError e s = none)
    (hg : ¬ remaining s.output < reserve e s.config) {u : Byte} (hok : (engineStep e u s).2.status ≠ .ok)
    (us : List Byte) (k : Nat) :
    transcodeFrom e (u :: us) k s = ((engineStep e u s).1, stoppedAt (stepCode (engineStep e u s).2.status) k) := by
  simp [transcodeFrom, h, hh, hg, hok]

/-- The position of a result is the number of units consumed (43_adapter.md R95), at most those of the input. -/
theorem transcodeFrom_position (e : Engine) (us : List Byte) (k : Nat) (s : State) :
    (transcodeFrom e us k s).2.position = (transcodeFrom e us k s).2.consumed ∧
      k ≤ (transcodeFrom e us k s).2.consumed ∧ (transcodeFrom e us k s).2.consumed ≤ k + us.length := by
  induction us generalizing k s with
  | nil => simp [transcodeFrom_nil]
  | cons u us ih =>
    unfold transcodeFrom
    split
    · simp
    · split
      · simp
      · split
        · simp
        · split
          · obtain ⟨h1, h2, h3⟩ := ih (k + 1) (appendOut (engineStep e u s).2.units (engineStep e u s).1)
            exact ⟨h1, by omega, by simp only [List.length_cons]; omega⟩
          · simp

/-! ## What a request leaves alone -/

/-- What the block's two ports hold besides registers: all of it but the data of `OUT` is left alone by an engine step
and by a request (20_memory.md R34). -/
def SameFrame (s t : State) : Prop :=
  t.config = s.config ∧ t.input = s.input ∧ t.output.cap = s.output.cap ∧ t.pending = s.pending ∧
    t.replies = s.replies

theorem SameFrame.refl (s : State) : SameFrame s s := ⟨rfl, rfl, rfl, rfl, rfl⟩

theorem SameFrame.trans {s t u : State} (h : SameFrame s t) (g : SameFrame t u) : SameFrame s u :=
  ⟨g.1.trans h.1, g.2.1.trans h.2.1, g.2.2.1.trans h.2.2.1, g.2.2.2.1.trans h.2.2.2.1, g.2.2.2.2.trans h.2.2.2.2⟩

/-- An engine step leaves the frame and the whole output buffer alone. -/
theorem engineStep_frame (e : Engine) (u : Byte) (s : State) :
    SameFrame s (engineStep e u s).1 ∧ (engineStep e u s).1.output = s.output := by
  cases e with
  | dec =>
    obtain ⟨d, f, h⟩ := decStep_writes u s
    simp only [engineStep, h]
    exact ⟨⟨rfl, rfl, rfl, rfl, rfl⟩, rfl⟩
  | enc =>
    obtain ⟨d, f, h⟩ := encStep_writes u s
    simp only [engineStep, h]
    exact ⟨⟨rfl, rfl, rfl, rfl, rfl⟩, rfl⟩

theorem engineEof_frame (e : Engine) (s : State) :
    SameFrame s (engineEof e s).1 ∧ (engineEof e s).1.output = s.output := by
  cases e with
  | dec =>
    obtain ⟨d, f, h⟩ := decEof_writes s
    simp only [engineEof, h]
    exact ⟨⟨rfl, rfl, rfl, rfl, rfl⟩, rfl⟩
  | enc =>
    obtain ⟨d, f, h⟩ := encEof_writes s
    simp only [engineEof, h]
    exact ⟨⟨rfl, rfl, rfl, rfl, rfl⟩, rfl⟩

theorem heldError_frame {e : Engine} {s t : State} {c : AdpCode} (h : heldError e s = some (t, c)) :
    SameFrame s t ∧ t.output = s.output := by
  obtain ⟨⟨n, rfl⟩, -⟩ := heldError_effect h
  exact ⟨⟨rfl, rfl, rfl, rfl, rfl⟩, rfl⟩

theorem appendOut_frame (us : List Byte) (s : State) : SameFrame s (appendOut us s) := ⟨rfl, rfl, rfl, rfl, rfl⟩

/-- The loop leaves the frame alone and only appends to the data of `OUT`. -/
theorem transcodeFrom_frame (e : Engine) (us : List Byte) (k : Nat) (s : State) :
    SameFrame s (transcodeFrom e us k s).1 ∧ s.output.data <+: (transcodeFrom e us k s).1.output.data := by
  induction us generalizing k s with
  | nil => exact ⟨.refl s, List.prefix_rfl⟩
  | cons u us ih =>
    unfold transcodeFrom
    split
    · exact ⟨.refl s, List.prefix_rfl⟩
    · split
      · rename_i h
        exact ⟨(heldError_frame h).1, by rw [(heldError_frame h).2]⟩
      · split
        · exact ⟨.refl s, List.prefix_rfl⟩
        · have hs := engineStep_frame e u s
          split
          · have hi := ih (k + 1) (appendOut (engineStep e u s).2.units (engineStep e u s).1)
            refine ⟨(hs.1.trans (appendOut_frame _ _)).trans hi.1, List.IsPrefix.trans ?_ hi.2⟩
            simp [hs.2]
          · exact ⟨hs.1, by rw [hs.2]⟩

/-- An engine step emits no more than the reserve (43_adapter.md R90) when it succeeds. -/
theorem engineStep_units_le (e : Engine) (u : Byte) (s : State) :
    (engineStep e u s).2.units.length ≤ reserve e s.config := by
  cases e with
  | dec =>
    simp only [engineStep, reserve_dec]
    rcases decPrologue_cases s _ with ⟨-, h⟩ | ⟨-, -, h⟩ | ⟨-, -, -, h⟩ | ⟨hr, -⟩
    · rw [decStep, h]; simp
    · rw [decStep, h]; simp
    · rw [decStep, h]; simp
    · rcases decStep_of_ready hr u with h | ⟨m, a, us, h, hl⟩
      · simp [h]
      · simpa [h] using hl
  | enc =>
    simp only [engineStep, reserve_enc]
    by_cases h : s.fault.kind = .none
    · obtain ⟨e, n, us, hs, hl⟩ := encStep_of_unfaulted h u
      simpa [hs] using hl
    · simp [encStep, unlessFaulted_of_faulted h]

theorem engineEof_units_le (e : Engine) (s : State) :
    (engineEof e s).2.units.length ≤ reserve e s.config := by
  cases e with
  | dec =>
    simp only [engineEof, reserve_dec]
    rcases decPrologue_cases s _ with ⟨-, h⟩ | ⟨-, -, h⟩ | ⟨-, -, -, h⟩ | ⟨hr, -⟩
    · rw [decEof, h]; simp
    · rw [decEof, h]; simp
    · rw [decEof, h]; simp
    · rcases decEof_of_ready hr with h | ⟨a, h⟩ <;> simp [h]
  | enc =>
    simp only [engineEof, reserve_enc]
    by_cases h : s.fault.kind = .none
    · obtain ⟨e, n, us, hs, hl⟩ := encEof_of_unfaulted h
      simp only [hs, Response.emitting_units]
      omega
    · simp [encEof, unlessFaulted_of_faulted h]

/-- The loop keeps the buffer's form: the memory law of this hardware (43_adapter.md R89, R91). -/
theorem transcodeFrom_keeps_wf {s : State} (h : s.output.wf = true) (e : Engine) (us : List Byte) (k : Nat) :
    (transcodeFrom e us k s).1.output.wf = true := by
  induction us generalizing k s with
  | nil => exact h
  | cons u us ih =>
    unfold transcodeFrom
    split
    · exact h
    · split
      · rename_i hh
        rw [(heldError_frame hh).2]; exact h
      · split
        · exact h
        · rename_i hg
          have hs := (engineStep_frame e u s).2
          split
          · refine ih ?_ _
            rw [appendOut_output, hs]
            exact OutBuf.wf_append h ((engineStep_units_le e u s).trans (not_lt.mp hg))
          · rw [hs]; exact h

/-- A flush keeps the buffer's form. -/
theorem flush_keeps_wf {s : State} (h : s.output.wf = true) (e : Engine) : (flush e s).1.output.wf = true := by
  unfold flush
  split
  · exact h
  · split
    · rename_i hh
      rw [(heldError_frame hh).2]; exact h
    · split
      · exact h
      · rename_i hg
        have hs := (engineEof_frame e s).2
        split
        · rw [appendOut_output, hs]
          exact OutBuf.wf_append h ((engineEof_units_le e s).trans (not_lt.mp hg))
        · rw [hs]; exact h

/-- A flush leaves the frame alone and only appends to the data of `OUT`. -/
theorem flush_frame (e : Engine) (s : State) :
    SameFrame s (flush e s).1 ∧ s.output.data <+: (flush e s).1.output.data := by
  unfold flush
  split
  · exact ⟨.refl s, List.prefix_rfl⟩
  · split
    · rename_i h
      exact ⟨(heldError_frame h).1, by rw [(heldError_frame h).2]⟩
    · split
      · exact ⟨.refl s, List.prefix_rfl⟩
      · have hs := engineEof_frame e s
        split
        · exact ⟨hs.1.trans (appendOut_frame _ _), by simp [hs.2]⟩
        · exact ⟨hs.1, by rw [hs.2]⟩

/-- The step the adapter runs never answers `STICKY` (43_adapter.md R92): the line of `stepCode` for it is never
reached (log 13). -/
theorem engineStep_not_sticky {e : Engine} {s : State} (h : heldError e s = none) (u : Byte) :
    (engineStep e u s).2.status ≠ .sticky := by
  cases e with
  | dec => rcases decStep_status (heldError_dec_eq_none_iff.mp h) u with h | h | h <;> simp [engineStep, h]
  | enc =>
    by_cases hf : s.fault.kind = .none
    · obtain ⟨e, n, us, hs, -⟩ := encStep_of_unfaulted hf u
      simp [engineStep, hs]
    · simp [engineStep, encStep, unlessFaulted_of_faulted hf]

end Sys2Proof.Machine
end

