-- ==== Sys2Proof/Laws/PerInstr.lean ====
section
/-! SUPPORT. One lemma per constructor of Instr: the port and the engine bit of its word (30_encoding.md R45, R53). -/

namespace Sys2Proof.Laws.WordOnItsPort

/-- The `ENG` bit of a word: bit 11 on the command port, bit 2 on the request port. -/
def engineBit : PortWord → Bool
  | .command w => w.getLsbD 11
  | .request w => w.getLsbD 2

/-- The instruction is well-formed, and the word it encodes to stands on the port of its kind with the `ENG` bit of its
engine. -/
def Statement (i : Instr) : Prop :=
  i.wf = true ∧
  match i with
  | .decStep _ | .decEof | .decReset | .decCheck => engineBit (encode i) = false ∧ ∃ w, encode i = .command w
  | .encStep _ | .encEof | .encReset => engineBit (encode i) = true ∧ ∃ w, encode i = .command w
  | .adpDecTranscode | .adpDecFlush => engineBit (encode i) = false ∧ ∃ w, encode i = .request w
  | .adpEncTranscode | .adpEncFlush => engineBit (encode i) = true ∧ ∃ w, encode i = .request w

theorem decStep (u : Byte) : Statement (.decStep u) := ⟨rfl, by revert u; decide, _, rfl⟩
theorem decEof : Statement .decEof := ⟨rfl, by decide, _, rfl⟩
theorem decReset : Statement .decReset := ⟨rfl, by decide, _, rfl⟩
theorem decCheck : Statement .decCheck := ⟨rfl, by decide, _, rfl⟩
theorem encStep (b : Byte) : Statement (.encStep b) := ⟨rfl, by revert b; decide, _, rfl⟩
theorem encEof : Statement .encEof := ⟨rfl, by decide, _, rfl⟩
theorem encReset : Statement .encReset := ⟨rfl, by decide, _, rfl⟩
theorem adpDecTranscode : Statement .adpDecTranscode := ⟨rfl, by decide, _, rfl⟩
theorem adpDecFlush : Statement .adpDecFlush := ⟨rfl, by decide, _, rfl⟩
theorem adpEncTranscode : Statement .adpEncTranscode := ⟨rfl, by decide, _, rfl⟩
theorem adpEncFlush : Statement .adpEncFlush := ⟨rfl, by decide, _, rfl⟩

end Sys2Proof.Laws.WordOnItsPort
end

