-- ==== Sys2Proof/Laws/Step.lean ====
section
/-! SUPPORT. What a step is, event by event, and that an instruction runs exactly under a well-formed configuration. -/

namespace Sys2Proof.Machine

theorem step_idle {s : State} (h : s.pending = []) : step s = .next s := by
  simp [step, h]

theorem step_event {s : State} {ev : HostEvent} {rest : List HostEvent} (h : s.pending = ev :: rest) :
    step s = runEvent ev (s.setPending rest) := by
  simp [step, h]

theorem runWord_instr {p : PortWord} {i : Instr} (h : decode p = .instr i) (s : State) : runWord p s = exec i s := by
  simp [runWord, h]

theorem runWord_reserved {p : PortWord} {r : Reserved} (h : decode p = .reserved r) (s : State) :
    runWord p s = execReserved r s := by
  simp [runWord, h]

/-- Every instruction is a command that is answered or a request that is answered. -/
theorem exec_shape (i : Instr) :
    (∃ body, ∀ s, exec i s = answerCommand body s) ∨ (∃ body, ∀ s, exec i s = answerRequest body s) := by
  cases i with
  | decStep u => exact .inl ⟨decStep u, fun _ => rfl⟩
  | decEof => exact .inl ⟨decEof, fun _ => rfl⟩
  | decReset => exact .inl ⟨decReset, fun _ => rfl⟩
  | decCheck => exact .inl ⟨decCheck, fun _ => rfl⟩
  | encStep b => exact .inl ⟨encStep b, fun _ => rfl⟩
  | encEof => exact .inl ⟨encEof, fun _ => rfl⟩
  | encReset => exact .inl ⟨encReset, fun _ => rfl⟩
  | adpDecTranscode => exact .inr ⟨transcode .dec, fun _ => rfl⟩
  | adpDecFlush => exact .inr ⟨flush .dec, fun _ => rfl⟩
  | adpEncTranscode => exact .inr ⟨transcode .enc, fun _ => rfl⟩
  | adpEncFlush => exact .inr ⟨flush .enc, fun _ => rfl⟩

/-- The event a presented word becomes is the one the next step takes. -/
theorem step_withFetchWord (s : State) (nbits w : Nat) :
    step (s.withFetchWord nbits w) = runEvent (eventOfWord s (portWordOf nbits w)) s := rfl

end Sys2Proof.Machine
end

