-- ==== Sys2Proof/Laws/Run.lean ====
section
/-! SUPPORT. How a run is put together, and what one reply adds to what was emitted. -/

namespace Sys2Proof.Machine

@[simp] theorem emitted_pushReply_response (s : State) (r : Response) :
    emitted (s.pushReply (.response r)) = emitted s ++ r.units := by
  simp [emitted, State.pushReply]

@[simp] theorem emitted_pushReply_result (s : State) (r : AdpResult) (o : OutBuf) :
    emitted (s.pushReply (.result r o)) = emitted s := by
  simp [emitted, State.pushReply]

/-- What was emitted depends on the replies alone. -/
theorem emitted_congr {s t : State} (h : s.replies = t.replies) : emitted s = emitted t := by
  simp [emitted, h]

/-- A command that gives one response adds exactly its units to the output of a run. -/
theorem emittedSince_of_response {s t : State} {r : Response} (h : t.replies = s.replies ++ [.response r]) :
    emittedSince s t = r.units := by
  simp [emittedSince, emitted, h]

theorem runOne_of_next {ev : HostEvent} {e : RunEnd} {t : State} (h : runEvent ev e.state = .next t) :
    runOne ev e = .next { state := t, output := e.output ++ eventOutput ev e.state t } := by
  simp [runOne, h]

theorem runHost_nil (e : RunEnd) : runHost [] e = .next e := rfl

theorem runHost_cons_of_next {ev : HostEvent} {e e' : RunEnd} (h : runOne ev e = .next e') (evs : List HostEvent) :
    runHost (ev :: evs) e = runHost evs e' := by
  simp [runHost, h]

/-- A run may be cut anywhere. -/
theorem runHost_append_of_next {evs evs' : List HostEvent} {e e' : RunEnd} (h : runHost evs e = .next e') :
    runHost (evs ++ evs') e = runHost evs' e' := by
  induction evs generalizing e with
  | nil => cases h; rfl
  | cons ev evs ih =>
    simp only [runHost, List.cons_append] at h ⊢
    split at h
    · exact ih h
    · cases h
    · cases h

end Sys2Proof.Machine
end

