-- ==== Sys2Proof/Laws/Stale.lean ====
section
/-! SUPPORT. States that are the same but for a stale accumulator, and outcomes that answer such a state. -/

namespace Sys2Proof.Machine

theorem SameButStale.refl (t : State) : SameButStale t t := ⟨rfl, fun _ => rfl, fun _ => rfl⟩

/-- What the relation says, field by field. -/
theorem sameButStale_iff {u t : State} :
    SameButStale u t ↔
      (u.dec.mode = t.dec.mode ∧ u.dec.errKind = t.dec.errKind ∧ u.dec.errCode = t.dec.errCode ∧
        (t.dec.mode.readsAcc = true → u.dec.acc = t.dec.acc)) ∧
      (u.enc.mode = t.enc.mode ∧ u.enc.col = t.enc.col ∧ (t.enc.mode.readsAcc = true → u.enc.acc = t.enc.acc)) ∧
      u.fault = t.fault ∧ u.config = t.config ∧ u.input = t.input ∧ u.output = t.output ∧ u.pending = t.pending ∧
      u.replies = t.replies ∧ u.freeCount = t.freeCount := by
  rcases u with ⟨⟨_, _, _, _⟩, ⟨_, _, _⟩, _, _, _, _, _, _, _⟩
  rcases t with ⟨⟨_, _, _, _⟩, ⟨_, _, _⟩, _, _, _, _, _, _, _⟩
  simp only [SameButStale, State.mk.injEq, DecRegs.mk.injEq, EncRegs.mk.injEq]
  tauto

theorem SameButStale.symm {u t : State} (h : SameButStale u t) : SameButStale t u := by
  rw [sameButStale_iff] at h ⊢
  obtain ⟨⟨hm, hk, hc, ha⟩, ⟨em, ecol, ea⟩, h1, h2, h3, h4, h5, h6, h7⟩ := h
  exact ⟨⟨hm.symm, hk.symm, hc.symm, fun r => (ha (hm ▸ r)).symm⟩,
    ⟨em.symm, ecol.symm, fun r => (ea (em ▸ r)).symm⟩,
    h1.symm, h2.symm, h3.symm, h4.symm, h5.symm, h6.symm, h7.symm⟩

theorem SameButStale.trans {u t v : State} (h : SameButStale u t) (g : SameButStale t v) : SameButStale u v := by
  rw [sameButStale_iff] at h g ⊢
  obtain ⟨⟨hm, hk, hc, ha⟩, ⟨em, ecol, ea⟩, h1, h2, h3, h4, h5, h6, h7⟩ := h
  obtain ⟨⟨gm, gk, gc, gha⟩, ⟨fm, fcol, fea⟩, g1, g2, g3, g4, g5, g6, g7⟩ := g
  exact ⟨⟨hm.trans gm, hk.trans gk, hc.trans gc, fun r => (ha (by rw [gm]; exact r)).trans (gha r)⟩,
    ⟨em.trans fm, ecol.trans fcol, fun r => (ea (by rw [fm]; exact r)).trans (fea r)⟩,
    h1.trans g1, h2.trans g2, h3.trans g3, h4.trans g4, h5.trans g5, h6.trans g6, h7.trans g7⟩

/-- The decoder's accumulator may be replaced where it is stale. -/
theorem sameButStale_decAcc {t : State} (h : t.dec.mode.readsAcc = false) (a : BitVec 18) :
    SameButStale { t with dec := { t.dec with acc := a } } t :=
  ⟨rfl, by simp [h], fun _ => rfl⟩

/-- The encoder's accumulator may be replaced where it is stale. -/
theorem sameButStale_encAcc {t : State} (h : t.enc.mode.readsAcc = false) (a : BitVec 6) :
    SameButStale { t with enc := { t.enc with acc := a } } t :=
  ⟨rfl, fun _ => rfl, by simp [h]⟩

/-- An outcome that is exactly a next state answers it. -/
theorem Answers.of_eq {o : Host.Outcome State Fault Refusal} {t : State} (h : o = .next t) : Answers o t :=
  ⟨t, h, .refl t⟩

theorem answers_next_iff {u t : State} : Answers (.next u) t ↔ SameButStale u t := by
  constructor
  · rintro ⟨v, h, g⟩; cases h; exact g
  · exact fun h => ⟨u, rfl, h⟩

end Sys2Proof.Machine
end

