-- ==== Sys2Proof/Machine/Assembler.lean ====
section
/-! DEFINITION. The text syntax of 30_encoding.md R56 and R57: a line of text to its tokens, the tokens to a program line,
and what a program line does. It is the host's, and no command reads it. -/

namespace Sys2Proof.Machine

/-- The output buffer of a request line: a fresh, empty one of capacity `cap`, or a named one, which keeps its contents
across lines (30_encoding.md R56). A named buffer is made with `cap` where the line is the first to name it. -/
inductive OutRef where
  | fresh (cap : Nat)
  | named (name : List Char) (cap : Option Nat)
  deriving DecidableEq, Repr

/-- One line of a program (30_encoding.md R56, R57): a command, a request with its operands, a raw word, or a
pseudo-instruction. -/
inductive AsmLine where
  | command (i : Instr)
  | request (i : Instr) (input : List Byte) (out : OutRef)
  | word (w : CommandWord)
  | decFeed (us : List Byte)
  | encFeed (bs : List Byte)
  | decFinish
  | encFinal
  deriving DecidableEq, Repr

/-! ## From text to lines -/

/-- A token of a line. A number or a name stays a word until its place says which it is. -/
inductive Token where
  | word (cs : List Char)
  | unit (u : Byte)
  | text (us : List Byte)
  | comma
  | equals
  deriving DecidableEq, Repr

/-- Where the reading of a line stands: between tokens, in a word, in a string, after a backslash in one, after the quote
of a character, or after the character itself. The characters and units so far stand in reverse. -/
inductive LexMode where
  | between
  | inWord (rev : List Char)
  | inText (rev : List Byte)
  | inEscape (rev : List Byte)
  | inQuote
  | afterQuoted (u : Byte)
  deriving DecidableEq, Repr

/-- The ASCII code of a character (30_encoding.md R56; log 16). -/
def asciiOf (c : Char) : Option Byte := if c.toNat < 0x80 then some (BitVec.ofNat 8 c.toNat) else none

/-- The codes of the four escapes of a string (30_encoding.md R56). -/
def escapeOf (c : Char) : Option Byte :=
  if c = 'n' then some 0x0A#8
  else if c = 'r' then some 0x0D#8
  else if c = 't' then some 0x09#8
  else if c = 'f' then some 0x0C#8
  else none

/-- What one character outside strings and quoted characters starts or is: the tokens complete with it, and where the
reading then stands. The codes 0x22 and 0x27 are the double and the single quote. -/
def lexPlain (c : Char) : List Token × LexMode :=
  if c.toNat = 0x20 ∨ c.toNat = 0x09 then ([], .between)
  else if c = ',' then ([.comma], .between)
  else if c = '=' then ([.equals], .between)
  else if c.toNat = 0x22 then ([], .inText [])
  else if c.toNat = 0x27 then ([], .inQuote)
  else ([], .inWord [c])

/-- The tokens of a line; `;` starts a comment (30_encoding.md R56). A line with an open string or character, an unknown
escape or a character without ASCII code is none. -/
def lex : LexMode → List Char → Option (List Token)
  | .between, [] => some []
  | .inWord r, [] => some [.word r.reverse]
  | .inText _, [] => none
  | .inEscape _, [] => none
  | .inQuote, [] => none
  | .afterQuoted _, [] => none
  | .between, c :: cs =>
    if c = ';' then some [] else (lex (lexPlain c).2 cs).map ((lexPlain c).1 ++ ·)
  | .inWord r, c :: cs =>
    if c = ';' then some [.word r.reverse]
    else
      match lexPlain c with
      | ([], .inWord _) => lex (.inWord (c :: r)) cs
      | (ts, m)         => (lex m cs).map (.word r.reverse :: ts ++ ·)
  | .inText r, c :: cs =>
    if c.toNat = 0x22 then (lex .between cs).map (.text r.reverse :: ·)
    else if c.toNat = 0x5C then lex (.inEscape r) cs
    else
      match asciiOf c with
      | some u => lex (.inText (u :: r)) cs
      | none   => none
  | .inEscape r, c :: cs =>
    match escapeOf c with
    | some u => lex (.inText (u :: r)) cs
    | none   => none
  | .inQuote, c :: cs =>
    match asciiOf c with
    | some u => lex (.afterQuoted u) cs
    | none   => none
  | .afterQuoted u, c :: cs =>
    if c.toNat = 0x27 then (lex .between cs).map (.unit u :: ·) else none

/-- The value of a digit. -/
def digitOf (c : Char) : Option Nat :=
  if 0x30 ≤ c.toNat ∧ c.toNat ≤ 0x39 then some (c.toNat - 0x30)
  else if 0x41 ≤ c.toNat ∧ c.toNat ≤ 0x46 then some (c.toNat - 0x37)
  else if 0x61 ≤ c.toNat ∧ c.toNat ≤ 0x66 then some (c.toNat - 0x57)
  else none

/-- The value of digits after a value `acc`. -/
def digits (base : Nat) : Nat → List Char → Option Nat
  | acc, [] => some acc
  | acc, c :: cs =>
    match digitOf c with
    | some d => if d < base then digits base (acc * base + d) cs else none
    | none   => none

/-- A hexadecimal literal of exactly `n` digits, the form `0xHH` of a unit and `0xHHH` of a raw word (30_encoding.md R56).
MODEL'S CHOICE (log 21): a literal with another number of digits is none, and either case of a digit will do. -/
def hexLiteral (n : Nat) : List Char → Option Nat
  | '0' :: 'x' :: ds => if ds.length = n then digits 16 0 ds else none
  | _ => none

/-- A decimal literal (30_encoding.md R56). MODEL'S CHOICE (log 21): any number of digits, at least one. -/
def decimalLiteral : List Char → Option Nat
  | []      => none
  | c :: cs => digits 10 0 (c :: cs)

/-- The number a `<unit>` writes: `0xHH`, or a decimal literal (30_encoding.md R56). -/
def unitNumber (cs : List Char) : Option Nat :=
  match hexLiteral 2 cs with
  | some n => some n
  | none   => decimalLiteral cs

/-- A `<unit>`: a literal below 256, or a quoted character (30_encoding.md R56). -/
def unitOf : Token → Option Byte
  | .unit u  => some u
  | .word cs =>
    match unitNumber cs with
    | some n => if n < 256 then some (BitVec.ofNat 8 n) else none
    | none   => none
  | .text _ | .comma | .equals => none

/-- Units one after another. -/
def unitsOf : List Token → Option (List Byte)
  | []      => some []
  | t :: ts =>
    match unitOf t with
    | some u => (unitsOf ts).map (u :: ·)
    | none   => none

/-- One string, the form of `"<text>"` and `"<s>"` (30_encoding.md R56, R57). -/
def stringOf : List Token → Option (List Byte)
  | [.text us] => some us
  | _ => none

/-- `<bytes>`, or one string in its place (30_encoding.md R56, R57). MODEL'S CHOICE (log 21): the rules do not say how
`<bytes>` are written; they are one or more `<unit>`s, separated by blanks and ended by a comma or the end of the line. -/
def bytesOf : List Token → Option (List Byte)
  | []         => none
  | [.text us] => some us
  | t :: ts    => unitsOf (t :: ts)

/-- The operands of a request line, which commas separate, as in the forms of 30_encoding.md R56. -/
def fields : List Token → List (List Token)
  | [] => [[]]
  | .comma :: ts => [] :: fields ts
  | t :: ts =>
    match fields ts with
    | f :: fs => (t :: f) :: fs
    | []      => [[t]]

/-- The tokens after `name=` among the operands of a request line. -/
def fieldOf (name : String) : List (List Token) → Option (List Token)
  | [] => none
  | (.word n :: .equals :: ts) :: fs => if n = name.toList then some ts else fieldOf name fs
  | _ :: fs => fieldOf name fs

/-- The number of `cap=<n>` (30_encoding.md R56). MODEL'S CHOICE (log 21): `<n>` is a decimal literal. -/
def capOf : List Token → Option Nat
  | [.word n] => decimalLiteral n
  | _ => none

/-- The output buffer a request line says: `cap=`, or `out=` with or without `cap=` (30_encoding.md R56). -/
def outOf (fs : List (List Token)) : Option OutRef :=
  match fieldOf "out" fs, fieldOf "cap" fs with
  | none, none                    => none
  | none, some c                  => (capOf c).map .fresh
  | some [.word n], none          => some (.named n none)
  | some [.word n], some c        => (capOf c).map fun k => .named n (some k)
  | some _, _                     => none

/-- The name of an operand `name=...` of a request line. -/
def fieldName : List Token → Option (List Char)
  | .word n :: .equals :: _ => some n
  | _ => none

/-- Whether the operands of a request line are of the given names, each at most once. MODEL'S CHOICE (log 21):
30_encoding.md R56 gives the forms of a request line and says nothing of other or repeated operands, so such a line is
no line. -/
def fieldsAre (names : List String) (fs : List (List Token)) : Bool :=
  (fs.all fun f => decide (fieldName f ∈ names.map fun n => some n.toList)) && decide (fs.map fieldName).Nodup

/-- A TRANSCODE line: `in=`, which `units` reads, and the output buffer, in any order (30_encoding.md R56; log 21). -/
def transcodeLine (i : Instr) (units : List Token → Option (List Byte)) (ts : List Token) : Option AsmLine :=
  if fieldsAre ["in", "cap", "out"] (fields ts) then
    match (fieldOf "in" (fields ts)).bind units, outOf (fields ts) with
    | some us, some o => some (.request i us o)
    | some _, none    => none
    | none, _         => none
  else none

/-- A FLUSH line: the output buffer only (30_encoding.md R53, R56; log 21). -/
def flushLine (i : Instr) (ts : List Token) : Option AsmLine :=
  if fieldsAre ["cap", "out"] (fields ts) then (outOf (fields ts)).map fun o => .request i [] o else none

/-- A line whose one operand is a unit. -/
def unitLine (mk : Byte → Instr) : List Token → Option AsmLine
  | [t] => (unitOf t).map fun u => .command (mk u)
  | [] | _ :: _ :: _ => none

/-- A line without operands. -/
def bareLine (l : AsmLine) : List Token → Option AsmLine
  | []     => some l
  | _ :: _ => none

/-- `.word 0xHHH`, exactly three digits (30_encoding.md R56; log 21). -/
def wordLine : List Token → Option AsmLine
  | [.word cs] => (hexLiteral 3 cs).map fun n => .word (BitVec.ofNat 12 n)
  | _ => none

/-- The line of a mnemonic and its operand tokens, in the forms of 30_encoding.md R56 and R57: `ADP.DEC.TRANSCODE` and
`DEC.FEED` take a string only, `ADP.ENC.TRANSCODE` and `ENC.FEED` take `<bytes>` or a string. -/
def lineOf (m : List Char) (ts : List Token) : Option AsmLine :=
  if m = "DEC.STEP".toList then unitLine .decStep ts
  else if m = "DEC.EOF".toList then bareLine (.command .decEof) ts
  else if m = "DEC.RESET".toList then bareLine (.command .decReset) ts
  else if m = "DEC.CHECK".toList then bareLine (.command .decCheck) ts
  else if m = "ENC.STEP".toList then unitLine .encStep ts
  else if m = "ENC.EOF".toList then bareLine (.command .encEof) ts
  else if m = "ENC.RESET".toList then bareLine (.command .encReset) ts
  else if m = "ADP.DEC.TRANSCODE".toList then transcodeLine .adpDecTranscode stringOf ts
  else if m = "ADP.DEC.FLUSH".toList then flushLine .adpDecFlush ts
  else if m = "ADP.ENC.TRANSCODE".toList then transcodeLine .adpEncTranscode bytesOf ts
  else if m = "ADP.ENC.FLUSH".toList then flushLine .adpEncFlush ts
  else if m = ".word".toList then wordLine ts
  else if m = "DEC.FEED".toList then (stringOf ts).map .decFeed
  else if m = "ENC.FEED".toList then (bytesOf ts).map .encFeed
  else if m = "DEC.FINISH".toList then bareLine .decFinish ts
  else if m = "ENC.FINAL".toList then bareLine .encFinal ts
  else none

/-- The program line of one line of text: none of it where the text is blank or a comment, and nothing where the text is
no line of R56 and R57. -/
def assemble (text : String) : Option (List AsmLine) :=
  match lex .between text.toList with
  | some [] => some []
  | some (.word m :: ts) => (lineOf m ts).map ([·])
  | some (.unit _ :: _) | some (.text _ :: _) | some (.comma :: _) | some (.equals :: _) => none
  | none => none

/-! ## What a line does -/

/-- The named output buffers of a program, each name once. -/
abbrev Buffers := List (List Char × OutBuf)

/-- The buffer a request line presents: where a name has none yet, an empty one of the capacity the line says. -/
def OutRef.buffer (bufs : Buffers) : OutRef → Option OutBuf
  | .fresh cap => some { cap := cap, data := [] }
  | .named n cap =>
    match bufs.lookup n with
    | some o => some o
    | none   => cap.map fun c => { cap := c, data := [] }

/-- A named buffer keeps its contents across lines (30_encoding.md R56). -/
def OutRef.keep (bufs : Buffers) (o : OutBuf) : OutRef → Buffers
  | .fresh _   => bufs
  | .named n _ => (n, o) :: bufs.filter fun p => p.1 ≠ n

/-- Issue the event of a line. -/
def issueLine (ev : HostEvent) (bufs : Buffers) (e : RunEnd) : Host.Outcome RunEnd Fault Refusal × Buffers :=
  (runOne ev e, bufs)

/-- Issue a request; a named buffer is kept as the request leaves it. -/
def issueRequest (i : Instr) (input : List Byte) (out : OutRef) (o : OutBuf) (bufs : Buffers) (e : RunEnd) :
    Host.Outcome RunEnd Fault Refusal × Buffers :=
  match runOne (eventOfInstr i input o) e with
  | .next e'   => (.next e', out.keep bufs e'.state.output)
  | .fault r   => (.fault r, bufs)
  | .refused r => (.refused r, bufs)

/-- Issue a `FEED`: what its commands emitted joins the output of the run. -/
def issueFeed (run : State → Host.Outcome State Fault Refusal) (bufs : Buffers) (e : RunEnd) :
    Host.Outcome RunEnd Fault Refusal × Buffers :=
  match run e.state with
  | .next t    => (.next { state := t, output := e.output ++ emittedSince e.state t }, bufs)
  | .fault r   => (.fault r, bufs)
  | .refused r => (.refused r, bufs)

/-- Issue one line: a command or a raw word on the command port, a request with its buffers on the request port, a
pseudo-instruction as its expansion (30_encoding.md R56, R57). Nothing where the line names a buffer that does not exist
and gives it no capacity (log 21). -/
def AsmLine.run (l : AsmLine) (bufs : Buffers) (e : RunEnd) : Option (Host.Outcome RunEnd Fault Refusal × Buffers) :=
  match l with
  | .command i           => some (issueLine (commandEvent i) bufs e)
  | .request i input out => (out.buffer bufs).map fun o => issueRequest i input out o bufs e
  | .word w              => some (issueLine (.command w) bufs e)
  | .decFeed us          => some (issueFeed (Sys2Proof.Machine.decFeed us) bufs e)
  | .encFeed bs          => some (issueFeed (Sys2Proof.Machine.encFeed bs) bufs e)
  | .decFinish           => some (issueLine (commandEvent .decEof) bufs e)
  | .encFinal            => some (issueLine (commandEvent .encEof) bufs e)

/-- Issue the lines of a program in order (30_encoding.md R55). The run ends when no line is left, with its state and its
output (70_reset_and_hazards.md R134), or at a refusal. -/
def runLines : List AsmLine → Buffers → RunEnd → Option (Host.Outcome RunEnd Fault Refusal × Buffers)
  | [], bufs, e => some (.next e, bufs)
  | l :: ls, bufs, e =>
    match l.run bufs e with
    | some (.next e', bufs')   => runLines ls bufs' e'
    | some (.fault r, bufs')   => some (.fault r, bufs')
    | some (.refused r, bufs') => some (.refused r, bufs')
    | none => none

end Sys2Proof.Machine
end

