-- ==== Sys2Proof/Tests/Slice0.lean ====
section
/-! SUPPORT. Tests whose expected values are the spec's: words written out from its encodings, vectors of
95_test_vectors.md, and for every statement with hypotheses a state that meets them. -/

namespace Sys2Proof.Tests

open Sys2Proof.Machine Sys2Proof.Claims

/-- The next state of an outcome. -/
def nextOf : Host.Outcome State Fault Refusal → Option State
  | .next t => some t
  | .fault _ => none
  | .refused _ => none

/-- A fresh block whose decoder is in mode `m` with accumulator `a`. -/
def decAt (m : DecMode) (a : BitVec 18) : State :=
  { State.reset with dec := { mode := m, acc := a, errKind := .none, errCode := 0#9 } }

/-- A fresh block whose encoder is in mode `m` with accumulator `a` and column `c`, under the given configuration. -/
def encAt (cfg : Config) (m : EncMode) (a : BitVec 6) (c : BitVec 17) : State :=
  { State.reset with enc := { mode := m, acc := a, col := c }, config := cfg }

/-- A fresh block whose decoder recorded the error of the unit `$`. -/
def failed : State :=
  { State.reset with dec := { mode := .fourth, acc := 0x1A71B#18, errKind := .invalidSymbol, errCode := 0x024#9 } }

/-- A fresh block that holds the fault of the word 0xC00. -/
def faulted : State := { State.reset with fault := { kind := .illegalCommand, info := 0x0C00#16 } }

/-- The status, `COMPLETE` and units of the one reply of an outcome, where it is a response. -/
def responseOf (o : Host.Outcome State Fault Refusal) : Option Response :=
  match nextOf o with
  | some t =>
    match t.replies with
    | [.response r] => some r
    | _ => none
  | none => none

/-- The output of a run that ended. -/
def outputOf : Host.Outcome RunEnd Fault Refusal → Option (List Byte)
  | .next e => some e.output
  | .fault _ => none
  | .refused _ => none

/-- The adapter result of an outcome and the data of `OUT`. -/
def resultOf (o : Host.Outcome State Fault Refusal) : Option (AdpCode × Nat × Nat × List Byte) :=
  match nextOf o with
  | some t =>
    match t.replies with
    | [.result r out] => some (r.code, r.position, r.consumed, out.data)
    | _ => none
  | none => none

/-! ## Well-formedness: an ill-formed term for each check -/

theorem test_wf_width_zero : Config.wf { lineWidth := 0, sep := [0x0A#8] } = false := by decide
theorem test_wf_width_too_large : Config.wf { lineWidth := 65536, sep := [0x0A#8] } = false := by decide
theorem test_wf_separator_empty : Config.wf { lineWidth := 76, sep := [] } = false := by decide
theorem test_wf_separator_too_long : Config.wf { lineWidth := 76, sep := List.replicate 5 0x0A#8 } = false := by decide
theorem test_wf_limits : Config.wf { lineWidth := 1, sep := [0x0A#8] } = true ∧
    Config.wf { lineWidth := 65535, sep := List.replicate 4 0x0A#8 } = true := by decide
theorem test_wf_buffer_overfull : OutBuf.wf { cap := 1, data := [0x41#8, 0x42#8] } = false ∧
    OutBuf.wf { cap := 2, data := [0x41#8, 0x42#8] } = true := by decide
theorem test_wf_event : HostEvent.wf (.request 0b001#3 [] { cap := 0, data := [0x41#8] }) = false := by decide
theorem test_wf_instr : Instr.wf (.decStep 0xFF#8) = true := by decide

/-! ## Decoding: words written out bit by bit (30_encoding.md R45, R47, R53, R54) -/

theorem test_word_decStep : decode (.command 0b000001010011#12) = .instr (.decStep 0x53#8) := by decide
theorem test_word_decEof : decode (.command 0b000100000000#12) = .instr .decEof := by decide
theorem test_word_decReset : decode (.command 0b001000000000#12) = .instr .decReset := by decide
theorem test_word_decCheck : decode (.command 0b010000000000#12) = .instr .decCheck := by decide
theorem test_word_encStep : decode (.command 0b100001001000#12) = .instr (.encStep 0x48#8) := by decide
theorem test_word_encEof : decode (.command 0b100100000000#12) = .instr .encEof := by decide
theorem test_word_encReset : decode (.command 0b101000000000#12) = .instr .encReset := by decide
theorem test_word_adpDecTranscode : decode (.request 0b000#3) = .instr .adpDecTranscode := by decide
theorem test_word_adpDecFlush : decode (.request 0b001#3) = .instr .adpDecFlush := by decide
theorem test_word_adpEncTranscode : decode (.request 0b100#3) = .instr .adpEncTranscode := by decide
theorem test_word_adpEncFlush : decode (.request 0b101#3) = .instr .adpEncFlush := by decide
theorem test_word_reserved_command : decode (.command 0b001100000000#12) = .reserved (.command 0x300#12) ∧
    decode (.command 0x101#12) = .reserved (.command 0x101#12) ∧
    decode (.command 0x600#12) = .reserved (.command 0x600#12) ∧
    decode (.command 0xDFF#12) = .reserved (.command 0xDFF#12) := by decide
theorem test_word_reserved_request : decode (.request 0b011#3) = .reserved (.request 0b011#3) := by decide
theorem test_table_words : decodeTableWord 16 0x848 = some (.encStep 0x48#8) ∧
    decodeTableWord 8 0b101 = some .adpEncFlush ∧ decodeTableWord 16 0x101 = none ∧ decodeTableWord 8 0b1000 = none ∧
    decodeTableWord 16 0x1000 = none := by decide
theorem test_fetch_word_runs_first :
    (nextOf (step (State.reset.withFetchWord 16 0x053))).map (fun t => (t.dec.mode, t.dec.acc, t.pending)) =
      some (.second, 0x00012#18, []) := by decide

/-! ## Vectors of 95_test_vectors.md -/

/-- 2.1 -/
theorem test_rom : alphabet 25#6 = 0x5A#8 ∧ alphabet 26#6 = 0x61#8 ∧ alphabet 52#6 = 0x30#8 ∧ alphabet 63#6 = 0x2F#8 ∧
    decodeRom 0x7A#8 = 1#1 ++ 51#6 ∧ decodeRom 0x3D#8 = 0#7 ∧ decodeRom 0x5F#8 = 0#7 := by decide
/-- 2.3 -/
theorem test_pack : (Response.emitting [0x41#8, 0x42#8, 0x43#8]).pack = 0x000021A120B0#47 ∧
    (Response.emitting [0x20#8, 0x09#8, 0x0D#8, 0x0A#8, 0x2F#8]).pack = 0x178506849050#47 ∧
    Response.completed.pack = 0x000000000008#47 ∧ (Response.ofStatus .fault).pack = 0x000000000004#47 := by decide
/-- 2.4, corner: the `[17:0]` cut. -/
theorem test_decStep_second_cut : (nextOf (exec (.decStep 0x41#8) (decAt .second 0x3FFFF#18))).map (fun t => t.dec) =
    some { mode := .third, acc := 0x3FFC0#18, errKind := .none, errCode := 0#9 } := by decide
/-- R64, example. -/
theorem test_decStep_fourth : responseOf (exec (.decStep 0x73#8) (decAt .fourth 0x12185#18)) =
    some (okWith [0x48#8, 0x61#8, 0x6C#8]) := by decide
/-- 2.5 -/
theorem test_decEof_third : (nextOf (exec .decEof (decAt .third 0x00740#18))).map (fun t => t.dec) =
    some { mode := .third, acc := 0x00740#18, errKind := .incompleteStream, errCode := 0x100#9 } := by decide
/-- 2.5 -/
theorem test_decCheck_start : responseOf (exec .decCheck (decAt .start 0x2AAAA#18)) =
    some { status := .ok, complete := true, units := [] } := by decide
/-- 2.5: an illegal mode is found before anything else but a fault. -/
theorem test_decCheck_illegal : (nextOf (exec .decCheck (decAt .illegal7 0#18))).map (fun t => t.fault) =
    some { kind := .fatalState, info := 0x4007#16 } := by decide
/-- 2.5: DEC.RESET leaves an illegal mode without a fault. -/
theorem test_decReset_illegal : (nextOf (exec .decReset (decAt .illegal6 5#18))).map (fun t => (t.dec, t.fault)) =
    some (State.reset.dec, State.reset.fault) := by decide
/-- 2.6: the wrap with a separator of four units. -/
theorem test_encStep_wrap : responseOf (exec (.encStep 0xFF#8)
      (encAt { lineWidth := 4, sep := [0x20#8, 0x09#8, 0x0D#8, 0x0A#8] } .start 0#6 4#17)) =
    some (okWith [0x20#8, 0x09#8, 0x0D#8, 0x0A#8, 0x2F#8]) := by decide
/-- 2.6 -/
theorem test_encStep_partial2 : (nextOf (exec (.encStep 0x6E#8) (encAt Config.standard .partial2 0x04#6 2#17))).map
      (fun t => (t.enc.mode, t.enc.col, t.replies)) =
    some (.start, 4#17, [.response (okWith [0x46#8, 0x75#8])]) := by decide
/-- 2.6: no separator on EOF. -/
theorem test_encEof_partial1 : (nextOf (exec .encEof (encAt Config.standard .partial1 0x30#6 75#17))).map
      (fun t => (t.enc.mode, t.enc.col, t.replies)) =
    some (.eof, 78#17, [.response (okWith [0x77#8, 0x3D#8, 0x3D#8])]) := by decide
/-- R81, example. -/
theorem test_encReset : (nextOf (exec .encReset (encAt Config.standard .partial2 0x3C#6 6#17))).map
      (fun t => (t.enc, emitted t)) = some (State.reset.enc, []) := by decide
/-- 2.7, A5 shape: an error under an open gate stands at its own offset. -/
theorem test_adpDecTranscode_malformed : resultOf (exec .adpDecTranscode
      (given State.reset [0x53#8, 0x47#8, 0x46#8, 0x73#8, 0x24#8] { cap := 64, data := [] })) =
    some (.malformed, 4, 4, [0x48#8, 0x61#8, 0x6C#8]) := by decide
/-- 2.7, A7: the gate comes before the error. -/
theorem test_adpDecTranscode_gate : resultOf (exec .adpDecTranscode
      (given State.reset [0x24#8] { cap := 2, data := [] })) = some (.outOfSpace, 0, 0, []) := by decide
/-- 2.7, A1, first line. -/
theorem test_adpEncTranscode_full : resultOf (exec .adpEncTranscode
      (given State.reset [0x48#8, 0x61#8, 0x6C#8, 0x6C#8, 0x6F#8, 0x20#8, 0x57#8, 0x65#8, 0x6C#8, 0x74#8]
        { cap := 8, data := [] })) =
    some (.outOfSpace, 5, 5, [0x53#8, 0x47#8, 0x46#8, 0x73#8, 0x62#8, 0x47#8]) := by decide
/-- 2.7, A4, second line. -/
theorem test_adpDecFlush_underflow : resultOf (exec .adpDecFlush
      (given (decAt .third 0x00740#18) [] { cap := 64, data := [] })) = some (.underflow, 0, 0, []) := by decide
/-- 2.7, A2: two free units are too few for the flush of one byte, three are enough. -/
theorem test_adpEncFlush_reserve :
    resultOf (exec .adpEncFlush (given (encAt Config.standard .partial1 0x10#6 1#17) [] { cap := 3, data := [0x54#8] }))
      = some (.outOfSpace, 0, 0, [0x54#8]) ∧
    resultOf (exec .adpEncFlush (given (encAt Config.standard .partial1 0x10#6 1#17) [] { cap := 3, data := [] }))
      = some (.consumedAll, 0, 0, [0x51#8, 0x3D#8, 0x3D#8]) := by decide
/-- 2.7, A11, and 2.8. -/
theorem test_reserved_words :
    (nextOf (runWord (.request 0b011#3) State.reset)).map (fun t => t.fault) =
      some { kind := .illegalCommand, info := 0x8003#16 } ∧
    (nextOf (runWord (.command 0x601#12) faulted)).map (fun t => t.fault) =
      some { kind := .illegalCommand, info := 0x0C00#16 } := by decide
/-- 2.8 -/
theorem test_power_on_clears_the_fault :
    (nextOf (step { faulted with pending := [.powerOn] })).map (fun t => t.fault) =
      some { kind := .none, info := 0#16 } := by decide
/-- 2.8, with the quote 0x27 and upper-case digits. -/
theorem test_render : renderWith 0x27#8 true 0x24#9 = .text [0x27#8, 0x24#8, 0x27#8] ∧
    renderWith 0x27#8 true 0x0A#9 = .text [0x5C#8, 0x6E#8] ∧
    renderWith 0x27#8 true 0x0B#9 = .text [0x5C#8, 0x78#8, 0x30#8, 0x42#8] ∧
    renderWith 0x27#8 false 0x0FF#9 = .text [0x5C#8, 0x78#8, 0x66#8, 0x66#8] ∧
    renderWith 0x27#8 true 0x100#9 = .noSymbol := by decide
/-- 10_state.md R20. -/
theorem test_ill_formed_configuration : nextOf (exec .encReset { State.reset with config := { lineWidth := 0, sep := [] } })
    = none := by decide
/-- 30_encoding.md R56 and the lines of 95_test_vectors.md part 3. -/
theorem test_assemble_commands : assemble "DEC.STEP 'S' ; 0x053" = some [.command (.decStep 0x53#8)] ∧
    assemble "ENC.STEP 0x48" = some [.command (.encStep 0x48#8)] ∧
    assemble "ENC.STEP 72" = some [.command (.encStep 0x48#8)] ∧ assemble "ENC.STEP 256" = none ∧
    assemble "  ; only a comment" = some [] ∧ assemble ".word 0xC00     ; reserved" = some [.word 0xC00#12] ∧
    assemble "DEC.FEED \"QQ==\"" = some [.decFeed [0x51#8, 0x51#8, 0x3D#8, 0x3D#8]] := by decide
theorem test_assemble_requests :
    assemble "ADP.ENC.TRANSCODE in=\"t\", cap=8, out=o        ; 0b100" =
      some [.request .adpEncTranscode [0x74#8] (.named ['o'] (some 8))] ∧
    assemble "ADP.ENC.FLUSH out=o" = some [.request .adpEncFlush [] (.named ['o'] none)] ∧
    assemble "ADP.DEC.TRANSCODE in=\"A\\n;\", cap=64" =
      some [.request .adpDecTranscode [0x41#8, 0x0A#8, 0x3B#8] (.fresh 64)] := by decide
/-- 30_encoding.md R56 gives no form for these; log 21. -/
theorem test_assemble_refuses_other_operands :
    assemble "ADP.ENC.TRANSCODE in=0x48 0x61, cap=8" = some [.request .adpEncTranscode [0x48#8, 0x61#8] (.fresh 8)] ∧
    assemble "ADP.ENC.TRANSCODE in=0x48, 0x61, cap=8" = none ∧ assemble "ADP.DEC.FLUSH in=0x48, cap=3" = none ∧
    assemble "ADP.DEC.FLUSH cap=3, cap=4" = none ∧ assemble "ADP.DEC.FLUSH cap=3, room=4" = none := by decide
theorem test_assemble_refuses_other_literals :
    assemble ".word 3072" = none ∧ assemble ".word 0xC" = none ∧ assemble ".word 0x0C00" = none ∧
    assemble "DEC.STEP 0x053" = none ∧ assemble "DEC.FEED 0x51" = none ∧ assemble "DEC.FEED" = none ∧
    assemble "ENC.FEED" = none ∧ assemble "ADP.DEC.TRANSCODE in=0x51, cap=3" = none ∧
    assemble "ENC.FEED 0x48 97 'c'" = some [.encFeed [0x48#8, 0x61#8, 0x63#8]] := by decide
/-- 2.7, A2: the buffer `o` keeps its contents across lines. -/
theorem test_named_buffer : ((runLines [.request .adpEncTranscode [0x4D#8] (.named ['o'] (some 3)),
      .request .adpEncFlush [] (.named ['o'] none)] [] (.start State.reset)).map (fun p => p.2)) =
    some [(['o'], { cap := 3, data := [0x54#8] })] := by decide
/-- 2.7, A2 and 70_reset_and_hazards.md R134: the output of a run over two buffers, each unit once, in issue order. -/
theorem test_run_output : ((runLines [.request .adpEncTranscode [0x4D#8] (.named ['o'] (some 8)),
      .request .adpEncFlush [] (.named ['o'] none), .command .encReset, .command (.encStep 0x4D#8)] []
      (.start State.reset)).bind (fun p => outputOf p.1)) = some [0x54#8, 0x51#8, 0x3D#8, 0x3D#8, 0x54#8] := by decide
/-- 30_encoding.md R57: a FEED stops at the first status other than `OK`. -/
theorem test_feed_stops : (nextOf (decFeed [0x24#8, 0x41#8] State.reset)).map (fun t => t.replies) =
    some [.response (endedBy .invalidSymbol)] := by decide

/-! ## Witnesses: for every statement with hypotheses, states and operands that meet them, clause by clause -/

/-- A unit of each class, at the edges of the sets. -/
theorem witness_classes : cls 0x3D#8 = .pad ∧ cls 0x09#8 = .ws ∧ cls 0x20#8 = .ws ∧ cls 0x41#8 = .valid 0#6 ∧
    cls 0x2F#8 = .valid 63#6 ∧ cls 0x00#8 = .invalid ∧ cls 0x0B#8 = .invalid ∧ cls 0xFF#8 = .invalid := by decide

theorem witness_ReservedCommandWordsFault : Running State.reset ∧ inReservedRange 0x101 = true ∧
    inReservedRange 0x1FF = true ∧ inReservedRange 0x201 = true ∧ inReservedRange 0x3FF = true ∧
    inReservedRange 0x401 = true ∧ inReservedRange 0x5FF = true ∧ inReservedRange 0x600 = true ∧
    inReservedRange 0x7FF = true ∧ inReservedRange 0x901 = true ∧ inReservedRange 0xA01 = true ∧
    inReservedRange 0xC00 = true ∧ inReservedRange 0xE00 = true ∧ inReservedRange 0xFFF = true ∧
    inReservedRange 0x100 = false ∧ inReservedRange 0xA00 = false := by decide

theorem witness_RequestWordsAndReservedRequests : Running State.reset ∧
    0b010#3 ∈ [0b010#3, 0b011#3, 0b110#3, 0b111#3] ∧ 0b111#3 ∈ [0b010#3, 0b011#3, 0b110#3, 0b111#3] := by decide

theorem witness_StepRunsTheDecodedInstruction :
    ({ State.reset with pending := [.command 0x053#12] } : State).pending = .command 0x053#12 :: [] ∧
    decode (.command 0x053#12) = .instr (.decStep 0x53#8) ∧
    ({ State.reset with pending := [.request 0b001#3 [] { cap := 3, data := [] }, .powerOn] } : State).pending =
      .request 0b001#3 [] { cap := 3, data := [] } :: [.powerOn] ∧
    decode (.request 0b001#3) = .instr .adpDecFlush ∧
    decode (.command 0xC00#12) = .reserved (.command 0xC00#12) ∧
    decode (.request 0b010#3) = .reserved (.request 0b010#3) ∧
    ({ State.reset with pending := [.powerOn] } : State).pending = .powerOn :: [] ∧ State.reset.pending = [] := by decide

theorem witness_ExactlyWellFormedConfigurationsRun :
    ({ State.reset with config := { lineWidth := 65536, sep := [0x0A#8] } } : State).config.wf = false ∧
    State.reset.config.wf = true := by decide

theorem witness_DecStepInStart : DecLive (decAt .start 0x2AAAA#18) ∧ (decAt .start 0x2AAAA#18).dec.mode = .start := by
  decide
theorem witness_DecStepInSecond : DecLive (decAt .second 0x00013#18) ∧ (decAt .second 0x00013#18).dec.mode = .second := by
  decide
theorem witness_DecStepInThird : DecLive (decAt .third 0x004D6#18) ∧ (decAt .third 0x004D6#18).dec.mode = .third := by
  decide
theorem witness_DecStepInPadding :
    DecLive (decAt .padding 0x00740#18) ∧ (decAt .padding 0x00740#18).dec.mode = .padding := by decide
theorem witness_DecStepInFourth :
    DecLive (decAt .fourth 0x3FFFF#18) ∧ (decAt .fourth 0x3FFFF#18).dec.mode = .fourth := by decide
theorem witness_DecStepInEofIsNoOp : DecLive (decAt .eof 0x12345#18) ∧ (decAt .eof 0x12345#18).dec.mode = .eof := by
  decide

/-- For DEC.EOF and DEC.CHECK: a state the prologue answers on each of its lines, and one of each mode it lets go on. -/
theorem witness_DecEofFollowsItsRule : State.reset.config.wf = true ∧
    prologueAnswer faulted = some (answered faulted (endedBy .fault)) ∧
    (prologueAnswer (decAt .illegal6 0#18)).isSome = true ∧ (prologueAnswer (decAt .illegal7 0#18)).isSome = true ∧
    prologueAnswer failed = some (answered failed (endedBy .sticky)) ∧
    prologueAnswer (decAt .start 0#18) = none ∧ prologueAnswer (decAt .eof 0#18) = none ∧
    prologueAnswer (decAt .second 0#18) = none ∧ prologueAnswer (decAt .third 0#18) = none ∧
    prologueAnswer (decAt .fourth 0#18) = none ∧ prologueAnswer (decAt .padding 0#18) = none := by decide

theorem witness_DecCheckFollowsItsRule : (decAt .eof 0#18).config.wf = true ∧ prologueAnswer (decAt .eof 0#18) = none ∧
    (decAt .padding 0#18).dec.mode ∈ [DecMode.second, .third, .fourth, .padding] := by decide

theorem witness_DecResetFollowsItsRule : failed.config.wf = true ∧ failed.fault.kind = .none ∧
    faulted.config.wf = true ∧ faulted.fault.kind ≠ .none := by decide

theorem witness_DecoderPrologueOrder : runsPrologue (.decStep 0x41#8) = true ∧ runsPrologue .decEof = true ∧
    runsPrologue .decCheck = true ∧ faulted.config.wf = true ∧ faulted.fault.kind ≠ .none ∧
    (decAt .illegal6 0#18).fault.kind = .none ∧ (decAt .illegal7 0#18).fault.kind = .none ∧
    failed.fault.kind = .none ∧ failed.dec.mode ≠ .illegal6 ∧ failed.dec.mode ≠ .illegal7 ∧
    failed.dec.errKind ≠ .none := by decide

theorem witness_DecoderGroupLaw : DecLive State.reset ∧ State.reset.dec.mode = .start := by decide

/-- A full line, and one unit short of it. -/
theorem witness_EncStepInStart :
    Running (encAt Config.standard .start 0#6 76#17) ∧ (encAt Config.standard .start 0#6 76#17).enc.mode = .start ∧
    76 ≤ (encAt Config.standard .start 0#6 76#17).enc.col.toNat ∧
    Running (encAt Config.standard .start 0#6 75#17) ∧ ¬ 76 ≤ (encAt Config.standard .start 0#6 75#17).enc.col.toNat := by
  decide
theorem witness_EncStepInPartial1 : Running (encAt Config.standard .partial1 0x10#6 1#17) ∧
    (encAt Config.standard .partial1 0x10#6 1#17).enc.mode = .partial1 ∧
    (encAt Config.standard .partial1 0x10#6 131070#17).enc.col.toNat + 1 < 2 ^ 17 := by decide
theorem witness_EncStepInPartial2 : Running (encAt Config.standard .partial2 0x04#6 2#17) ∧
    (encAt Config.standard .partial2 0x04#6 2#17).enc.mode = .partial2 ∧
    (encAt Config.standard .partial2 0x04#6 131069#17).enc.col.toNat + 2 < 2 ^ 17 := by decide
theorem witness_EncStepInEofIsNoOp : Running (encAt Config.standard .eof 0x04#6 4#17) ∧
    (encAt Config.standard .eof 0x04#6 4#17).enc.mode = .eof := by decide
theorem witness_EncEofFollowsItsRule : faulted.config.wf = true ∧ faulted.fault.kind ≠ .none ∧
    Running (encAt Config.standard .start 0#6 0#17) ∧ Running (encAt Config.standard .eof 0#6 0#17) ∧
    Running (encAt Config.standard .partial1 0x10#6 131068#17) ∧
    (encAt Config.standard .partial1 0x10#6 131068#17).enc.col.toNat + 3 < 2 ^ 17 ∧
    Running (encAt Config.standard .partial2 0x04#6 131069#17) ∧
    (encAt Config.standard .partial2 0x04#6 131069#17).enc.col.toNat + 2 < 2 ^ 17 := by decide
theorem witness_EncResetFollowsItsRule : State.reset.config.wf = true ∧ State.reset.fault.kind = .none ∧
    faulted.config.wf = true ∧ faulted.fault.kind ≠ .none := by decide

/-- For the statements about whole streams: the limits of a configuration. -/
theorem witness_EncoderOutputIsTheWrappedText : Config.wf { lineWidth := 1, sep := [0x0A#8] } = true ∧
    Config.wf { lineWidth := 65535, sep := [0x20#8, 0x09#8, 0x0D#8, 0x0A#8] } = true := by decide
theorem witness_EncoderOutputLength : Config.wf Config.standard = true := by decide
theorem witness_EncoderPaddingByLength : Config.wf Config.standard = true ∧ 0x3D#8 ∉ Config.standard.sep := by decide
theorem witness_DecodingTheEncodingGivesItBack :
    Config.wf { lineWidth := 10, sep := [0x20#8, 0x09#8, 0x0D#8, 0x0A#8] } = true ∧
    ∀ u ∈ [0x20#8, 0x09#8, 0x0D#8, 0x0A#8], cls u = .ws := by decide

/-- For the first clause of the reserve statement: a step that answers, with its units. -/
theorem witness_ReserveIsTheWorstCase : Config.wf Config.standard = true ∧
    State.reset.config = Config.standard ∧ Instr.encStep 0x4D#8 = stepOf .enc 0x4D#8 ∧
    (nextOf (exec (.encStep 0x4D#8) State.reset)).bind lastUnits = some [0x54#8] := by decide

theorem witness_TranscodeRefinesEngineCommands : failed.config.wf = true ∧ faulted.config.wf = true := by decide

theorem witness_DecTranscodeConsumesSymbols :
    DecLive (given State.reset [0x53#8, 0x47#8] { cap := 9, data := [] }) ∧
    (given State.reset [0x53#8, 0x47#8] { cap := 9, data := [] }).dec.mode ∈ [DecMode.start, .second, .third, .fourth] ∧
    Roomy .dec Config.standard [0x53#8, 0x47#8] { cap := 9, data := [] } ∧
    cls 0x53#8 = .valid 18#6 ∧ cls 0x47#8 = .valid 6#6 := by decide
theorem witness_EncTranscodeConsumesAnyBytes : Running (given State.reset [0x00#8] { cap := 6, data := [] }) ∧
    Roomy .enc Config.standard [0x00#8] { cap := 6, data := [] } := by decide

theorem witness_ClosedGateConsumesNothing : Running (given State.reset [0x24#8] { cap := 2, data := [] }) ∧
    State.reset.dec.errKind = .none ∧ roomOf { cap := 2, data := [] } < reserveOf .dec Config.standard ∧
    roomOf { cap := 2, data := [] } < reserveOf .enc Config.standard := by decide

theorem witness_FlushFollowsItsRule : faulted.config.wf = true ∧ faulted.fault.kind ≠ .none ∧
    Running failed ∧ failed.dec.errKind = .invalidSymbol ∧
    Running { failed with dec := { failed.dec with errKind := .incompleteStream, errCode := 0x100#9 } } ∧
    Running (decAt .start 0#18) ∧ Running (decAt .padding 0#18) ∧ Running (decAt .illegal6 0#18) ∧
    Running (decAt .illegal7 0#18) ∧
    roomOf { cap := 2, data := [] } < 3 ∧ 3 ≤ roomOf { cap := 3, data := [] } ∧
    Running (encAt Config.standard .partial1 0x10#6 1#17) ∧ Running (encAt Config.standard .partial2 0x04#6 2#17) ∧
    reserveOf .enc Config.standard ≤ roomOf { cap := 3, data := [] } := by decide

theorem witness_HeldErrorIsRepeated : Running (given failed [0x41#8] { cap := 0, data := [] }) ∧
    (given failed [0x41#8] { cap := 0, data := [] }).input ≠ [] ∧ failed.dec.errKind = .invalidSymbol := by decide
theorem witness_ReservedErrorKindActsAsAnError :
    Running { failed with dec := { failed.dec with errKind := .reserved3 }, input := [0x41#8] } := by decide

theorem witness_SplittingTheInputChangesNothing : State.reset.config.wf = true ∧
    Roomy .dec Config.standard ([0x51#8] ++ [0x51#8]) { cap := 9, data := [] } ∧
    Roomy .enc Config.standard [0x51#8] { cap := 6, data := [] } := by decide
theorem witness_BackPressureLosesNothing : State.reset.config.wf = true ∧
    Roomy .enc Config.standard [0x51#8, 0x00#8] { cap := 10, data := [0x0A#8] } := by decide

theorem witness_FaultedBlockAnswersOnlyFault : faulted.config.wf = true ∧ faulted.fault.kind ≠ .none ∧
    State.reset.fault.kind = .none ∧ decode (.command 0xC00#12) = .reserved (.command 0xC00#12) ∧
    decode (.request 0b111#3) = .reserved (.request 0b111#3) ∧ runsPrologue .decCheck = true ∧
    (decAt .illegal6 0#18).config.wf = true ∧ (decAt .illegal6 0#18).fault.kind = .none ∧
    (decAt .illegal6 0#18).dec.mode = .illegal6 ∧ (decAt .illegal7 0#18).dec.mode = .illegal7 := by decide

/-- A command that ends in each status other than `OK`. -/
theorem witness_ErrorsArePrecise :
    responseOf (exec (.decStep 0x24#8) (decAt .start 0#18)) = some (endedBy .invalidSymbol) ∧
    responseOf (exec .decEof (decAt .second 0#18)) = some (endedBy .incompleteStream) ∧
    responseOf (exec .decCheck failed) = some (endedBy .sticky) ∧
    responseOf (exec .encReset faulted) = some (endedBy .fault) := by decide

theorem witness_DecoderErrorStaysUntilReset :
    (nextOf (step { failed with pending := [.command 0x100#12] })).isSome = true ∧ failed.dec.errKind ≠ .none ∧
    ({ failed with pending := [.command 0x100#12] } : State).pending.head? ≠ some (.command 0x200#12) ∧
    ({ failed with pending := [.command 0x100#12] } : State).pending.head? ≠ some .powerOn := by decide
theorem witness_FaultStaysUntilPowerOn :
    (nextOf (step { faulted with pending := [.command 0x200#12] })).isSome = true ∧ faulted.fault.kind ≠ .none ∧
    ({ faulted with pending := [.command 0x200#12] } : State).pending.head? ≠ some .powerOn := by decide

theorem witness_EnginesReadOnlyTheirOwnLiveState :
    isDecCommand .decCheck = true ∧ (decAt .start 0x2AAAA#18).config.wf = true ∧
    (encAt { lineWidth := 4, sep := [0x0A#8] } .partial1 0x10#6 1#17).config.wf = true ∧
    SameDec (decAt .start 0x2AAAA#18).dec (encAt { lineWidth := 4, sep := [0x0A#8] } .partial1 0x10#6 1#17).dec ∧
    (decAt .start 0x2AAAA#18).fault = (encAt { lineWidth := 4, sep := [0x0A#8] } .partial1 0x10#6 1#17).fault ∧
    isEncCommand .encEof = true ∧ (encAt Config.standard .start 0x3C#6 4#17).config = failed.config ∧
    SameEnc (encAt Config.standard .start 0x3C#6 4#17).enc (encAt Config.standard .start 0x00#6 4#17).enc ∧
    (encAt Config.standard .start 0x3C#6 4#17).fault = failed.fault ∧
    (encAt Config.standard .start 0x3C#6 4#17).freeCount = failed.freeCount := by decide
theorem witness_HiddenStateIsNeverSeen :
    SeenAlike { decAt .start 0x2AAAA#18 with pending := [.command 0x400#12] }
      { decAt .start 0#18 with pending := [.command 0x400#12] } ∧
    (nextOf (step { decAt .start 0x2AAAA#18 with pending := [.command 0x400#12] })).isSome = true := by
  refine ⟨⟨by decide, by decide, by decide, rfl, rfl, rfl, rfl, rfl, rfl⟩, by decide⟩
/-- Two encoders in `EOF`, two faults and two error codes. -/
theorem witness_hidden_registers :
    SeenAlike (encAt Config.standard .eof 0x3C#6 4#17) (encAt Config.standard .eof 0x00#6 0#17) ∧
    SeenAlike faulted { faulted with fault := { kind := .fatalState, info := 0x4007#16 } } ∧
    SeenAlike failed { failed with dec := { failed.dec with errCode := 0x0FF#9 } } := by
  refine ⟨⟨?_, ?_, ?_, rfl, rfl, rfl, rfl, rfl, rfl⟩, ⟨?_, ?_, ?_, rfl, rfl, rfl, rfl, rfl, rfl⟩,
    ?_, ?_, ?_, rfl, rfl, rfl, rfl, rfl, rfl⟩ <;> decide
theorem witness_RunEndsWithItsConcatenatedOutput : State.reset.config.wf = true ∧
    List.all [HostEvent.command 0x84D#12, .request 0b101#3 [] { cap := 3, data := [] }, .powerOn] presentsEmpty = true ∧
    outputOf (runHost [HostEvent.command 0x84D#12, .request 0b101#3 [] { cap := 3, data := [] }, .powerOn]
      (.start State.reset)) = some [0x54#8, 0x51#8, 0x3D#8, 0x3D#8] := by decide
theorem witness_EngineCommandsCommute : isDecCommand (.decStep 0x41#8) = true ∧ isEncCommand (.encStep 0x41#8) = true ∧
    failed.config.wf = true ∧ failed.dec.mode.illegal = false := by decide

theorem witness_ResetTable : Running failed ∧
    ({ faulted with pending := [.powerOn, .command 0x100#12] } : State).pending = .powerOn :: [.command 0x100#12] := by
  decide

/-- For the invariants: sound states inside a group, with a waiting event, that step. -/
theorem witness_EveryStepKeepsRegistersSound :
    registersSound { encAt Config.standard .partial1 0x30#6 76#17 with pending := [.command 0x861#12] } = true ∧
    registersSound { decAt .third 0x00FFF#18 with pending := [.command 0x03D#12] } = true ∧
    (nextOf (step { decAt .third 0x00FFF#18 with pending := [.command 0x03D#12] })).isSome = true := by decide
theorem witness_EveryStepKeepsPortsSound :
    portsSound { State.reset with pending := [.request 0b100#3 [0x4D#8] { cap := 3, data := [] }] } = true ∧
    (nextOf (step { State.reset with pending := [.request 0b100#3 [0x4D#8] { cap := 3, data := [] }] })).isSome = true := by
  decide
theorem witness_SoundRegistersNeedNoFreeValue :
    registersSound { encAt Config.standard .partial2 0x3C#6 77#17 with pending := [.command 0x900#12] } = true ∧
    (nextOf (step { encAt Config.standard .partial2 0x3C#6 77#17 with pending := [.command 0x900#12] })).isSome = true := by
  decide
theorem witness_RunsFromResetStaySound : Config.wf Config.standard = true ∧
    List.all [HostEvent.command 0x84D#12, .request 0b101#3 [] { cap := 3, data := [] }, .powerOn] HostEvent.wf = true ∧
    (nextOf (Host.Core.run core 2
      { fresh Config.standard with pending := [.command 0x84D#12, .powerOn] })).isSome = true := by decide
theorem witness_NoStepWritesTheConfiguration :
    (nextOf (step { State.reset with pending := [.command 0xA00#12] })).isSome = true := by decide
theorem witness_EngineCommandFrame : (nextOf (exec (.decStep 0x41#8) State.reset)).isSome = true ∧
    (nextOf (exec .encEof State.reset)).isSome = true := by decide
theorem witness_AdapterRequestFrame : (nextOf (exec .adpDecFlush State.reset)).isSome = true ∧
    (nextOf (exec .adpEncTranscode State.reset)).isSome = true := by decide

theorem witness_ResponseRecordFields : (okWith [0x20#8, 0x09#8, 0x0D#8, 0x0A#8, 0x2F#8]).units.length ≤ 5 := by decide
theorem witness_RenderingOfErrorUnits : (0x100#9).toNat ≤ 0x100 ∧ (0x20#9).toNat ≤ 0x100 ∧
    (0x7F#9).toNat ≤ 0xFF ∧ ¬ (0x20 ≤ (0x7F#9).toNat ∧ (0x7F#9).toNat ≤ 0x7E) ∧
    0x7F#9 ∉ [0x0D#9, 0x0A#9, 0x09#9, 0x0C#9] := by decide

end Sys2Proof.Tests
end

section
/-! # What a word and a step can do -/

namespace Sys2Proof.Machine

open Sys2Proof.Claims

/-! ## The bodies behind the words -/

/-- The bodies of the commands of an engine (30_encoding.md R47). -/
inductive CommandOf : Engine → (State → State × Response) → Prop
  | decStep (u : Byte) : CommandOf .dec (decStep u)
  | decEof : CommandOf .dec decEof
  | decCheck : CommandOf .dec decCheck
  | decReset : CommandOf .dec decReset
  | encStep (b : Byte) : CommandOf .enc (encStep b)
  | encEof : CommandOf .enc encEof
  | encReset : CommandOf .enc encReset

theorem engineStep_commandOf (e : Engine) (u : Byte) : CommandOf e (engineStep e u) := by
  cases e with
  | dec => exact .decStep u
  | enc => exact .encStep u

theorem engineEof_commandOf (e : Engine) : CommandOf e (engineEof e) := by
  cases e with
  | dec => exact .decEof
  | enc => exact .encEof

theorem exec_of_isDecCommand {i : Instr} (h : isDecCommand i = true) :
    ∃ body, CommandOf .dec body ∧ ∀ s, exec i s = answerCommand body s := by
  cases i with
  | decStep u => exact ⟨_, .decStep u, fun _ => rfl⟩
  | decEof => exact ⟨_, .decEof, fun _ => rfl⟩
  | decReset => exact ⟨_, .decReset, fun _ => rfl⟩
  | decCheck => exact ⟨_, .decCheck, fun _ => rfl⟩
  | _ => simp [isDecCommand] at h

theorem exec_of_isEncCommand {i : Instr} (h : isEncCommand i = true) :
    ∃ body, CommandOf .enc body ∧ ∀ s, exec i s = answerCommand body s := by
  cases i with
  | encStep b => exact ⟨_, .encStep b, fun _ => rfl⟩
  | encEof => exact ⟨_, .encEof, fun _ => rfl⟩
  | encReset => exact ⟨_, .encReset, fun _ => rfl⟩
  | _ => simp [isEncCommand] at h

/-- What a word of the command port runs: an engine command, or the fault of a reserved word. -/
inductive CommandBody : (State → State × Response) → Prop
  | engine {e : Engine} {body : State → State × Response} (h : CommandOf e body) : CommandBody body
  | reserved (r : Reserved) : CommandBody (raiseFault .illegalCommand (illegalInfo r))

/-- What a word of the request port runs: a request, or the fault of a reserved word. -/
inductive RequestBody : (State → State × AdpResult) → Prop
  | transcode (e : Engine) : RequestBody (transcode e)
  | flush (e : Engine) : RequestBody (flush e)
  | reserved (r : Reserved) :
    RequestBody fun s => ((raiseFault .illegalCommand (illegalInfo r) s).1, stoppedAt .aborted 0)

theorem exec_body (i : Instr) :
    (∃ body, CommandBody body ∧ ∀ s, exec i s = answerCommand body s) ∨
    (∃ body, RequestBody body ∧ ∀ s, exec i s = answerRequest body s) := by
  by_cases hd : isDecCommand i = true
  · obtain ⟨body, hb, he⟩ := exec_of_isDecCommand hd
    exact .inl ⟨body, .engine hb, he⟩
  by_cases hn : isEncCommand i = true
  · obtain ⟨body, hb, he⟩ := exec_of_isEncCommand hn
    exact .inl ⟨body, .engine hb, he⟩
  cases i with
  | adpDecTranscode => exact .inr ⟨_, .transcode .dec, fun _ => rfl⟩
  | adpDecFlush => exact .inr ⟨_, .flush .dec, fun _ => rfl⟩
  | adpEncTranscode => exact .inr ⟨_, .transcode .enc, fun _ => rfl⟩
  | adpEncFlush => exact .inr ⟨_, .flush .enc, fun _ => rfl⟩
  | _ => simp_all [isDecCommand, isEncCommand]

/-- Every word of either port gives the host the answer of one body. -/
theorem runWord_body (p : PortWord) :
    (∃ body, CommandBody body ∧ ∀ s, runWord p s = answerCommand body s) ∨
    (∃ body, RequestBody body ∧ ∀ s, runWord p s = answerRequest body s) := by
  cases h : decode p with
  | instr i =>
    simp only [runWord_instr h]
    exact exec_body i
  | reserved r =>
    simp only [runWord_reserved h]
    cases r with
    | command w => exact .inl ⟨_, .reserved (.command w), fun _ => rfl⟩
    | request w => exact .inr ⟨_, .reserved (.request w), fun _ => rfl⟩

/-- A step is idle, a power-on reset, or the run of one word, with the buffers of its event where it is a request. -/
theorem step_cases {s t : State} (h : step s = .next t) :
    (s.pending = [] ∧ t = s) ∨
    (∃ rest, s.pending = .powerOn :: rest ∧ t = (s.setPending rest).powerOnReset) ∨
    (∃ ev rest p us o, s.pending = ev :: rest ∧ (s.output.wf = true → ev.wf = true → o.wf = true) ∧
      runWord p ((s.setPending rest).present us o) = .next t) := by
  cases hp : s.pending with
  | nil =>
    rw [step_idle hp] at h
    exact .inl ⟨rfl, (Host.Outcome.next.inj h).symm⟩
  | cons ev rest =>
    rw [step_event hp] at h
    cases ev with
    | command w => exact .inr (.inr ⟨_, _, .command w, s.input, s.output, rfl, fun ho _ => ho, h⟩)
    | request w us o => exact .inr (.inr ⟨_, _, .request w, us, o, rfl, fun _ ho => ho, h⟩)
    | powerOn => exact .inr (.inl ⟨rest, rfl, (Host.Outcome.next.inj h).symm⟩)

/-! ## Which configurations run -/

theorem config_wf_iff (c : Config) :
    c.wf = true ↔ (1 ≤ c.lineWidth ∧ c.lineWidth ≤ 65535) ∧ (1 ≤ c.sep.length ∧ c.sep.length ≤ 4) := by
  simp [Config.wf, and_assoc]

theorem runWord_of_illFormed {s : State} (h : s.config.wf = false) (p : PortWord) :
    runWord p s = .refused .illFormedConfig := by
  rcases runWord_body p with ⟨body, -, hb⟩ | ⟨body, -, hb⟩
  · simp [hb, answerCommand, h]
  · simp [hb, answerRequest, h]

theorem exec_of_wellFormed {s : State} (h : s.config.wf = true) (i : Instr) : ∃ t, exec i s = .next t := by
  rcases exec_body i with ⟨body, -, hb⟩ | ⟨body, -, hb⟩
  · exact ⟨_, by rw [hb, answerCommand_of_wf h]⟩
  · exact ⟨_, by rw [hb, answerRequest_of_wf h]⟩

/-- Settles O7: every word runs one body, and both ways to answer a body test the configuration first. -/
theorem exactlyWellFormedConfigurationsRun : Obligations.ExactlyWellFormedConfigurationsRun :=
  ⟨config_wf_iff, fun p _ h => runWord_of_illFormed h p, fun i _ h => exec_of_wellFormed h i⟩

/-- Settles O49: the reset values are closed data. -/
theorem resetIsSound : Obligations.ResetIsSound := by
  unfold Obligations.ResetIsSound
  decide

end Sys2Proof.Machine
end

section
/-! # Two runs of a decoder command -/

namespace Sys2Proof.Machine

open Sys2Proof.Claims

/-! ## The soundness of the decoder's registers -/

/-- The bound of `DEC.ACC` in each mode (10_state.md R13). -/
def AccFits : DecMode → BitVec 18 → Prop
  | .second, a => a.toNat < 2 ^ 6
  | .third, a | .padding, a => a.toNat < 2 ^ 12
  | .start, _ | .fourth, _ | .eof, _ | .illegal6, _ | .illegal7, _ => True

/-- The code that goes with each error kind (10_state.md R14). -/
def CodeFits : ErrKind → BitVec 9 → Prop
  | .none, c => c = 0#9
  | .invalidSymbol, c => c.toNat < 0x100
  | .incompleteStream, c => c = 0x100#9
  | .reserved3, _ => False

theorem DecRegs.sound_iff (d : DecRegs) :
    d.sound = true ↔ d.mode.illegal = false ∧ AccFits d.mode d.acc ∧ CodeFits d.errKind d.errCode := by
  simp only [DecRegs.sound, Bool.and_eq_true, Bool.not_eq_true', and_assoc]
  refine and_congr .rfl (and_congr ?_ ?_)
  · cases d.mode <;> simp [AccFits]
  · cases d.errKind <;> simp [CodeFits]

theorem accFits_second (v : Sextet) : AccFits .second (v.setWidth 18) := by
  have := v.isLt
  simp only [AccFits, BitVec.toNat_setWidth]
  omega

theorem accFits_third {a : BitVec 18} (h : AccFits .second a) (v : Sextet) : AccFits .third (accAppend a v) := by
  have := v.isLt
  simp only [AccFits, accAppend_eq, BitVec.toNat_ofNat] at *
  omega

theorem codeFits_invalidSymbol (u : Byte) : CodeFits .invalidSymbol (u.setWidth 9) := by
  have := u.isLt
  simp only [CodeFits, BitVec.toNat_setWidth]
  omega

theorem Response.wf_emitting {us : List Byte} (h : us.length ≤ 5) : (Response.emitting us).wf = true := by
  simp [Response.wf, h]

/-! ## Two runs -/

/-- The states agree in all that a decoder command reads: the mode, whether an error is recorded and which, the
accumulator where it is live, and whether the block is faulted (41_decoder.md R58 to R68). -/
def DecAlike (s t : State) : Prop :=
  s.dec.mode = t.dec.mode ∧ s.dec.errKind = t.dec.errKind ∧
    (s.dec.mode.readsAcc = true → s.dec.acc = t.dec.acc) ∧ (s.fault.kind = .none ↔ t.fault.kind = .none)

theorem DecAlike.refl (s : State) : DecAlike s s := ⟨rfl, rfl, fun _ => rfl, .rfl⟩

/-- What a decoder command can do, in two states at once: nothing, the fault of an illegal mode, an error, a move to a
legal mode, or the reset. The two accumulators after a move may differ only where they are stale (10_state.md R24). -/
inductive DecTwin (s t : State) : State × Response → State × Response → Prop
  | quiet (r : Response) (hr : r.wf = true) : DecTwin s t (s, r) (t, r)
  | fault (f : FaultReg) (hm : s.dec.mode.illegal = true) :
    DecTwin s t (s.setFault f, .ofStatus .fault) (t.setFault f, .ofStatus .fault)
  | error (k : ErrKind) (c : BitVec 9) (st : Status) (hc : CodeFits k c) :
    DecTwin s t (raiseError k c st s) (raiseError k c st t)
  | move (m : DecMode) (a b : BitVec 18) (us : List Byte) (hm : m.illegal = false)
    (hab : m.readsAcc = true → a = b) (ha : AccFits s.dec.mode s.dec.acc → AccFits m a) (hu : us.length ≤ 3) :
    DecTwin s t (s.setDec { s.dec with mode := m, acc := a }, .emitting us)
      (t.setDec { t.dec with mode := m, acc := b }, .emitting us)
  | reset :
    DecTwin s t (s.setDec State.reset.dec, .emitting []) (t.setDec State.reset.dec, .emitting [])

section
variable {s t : State}

theorem unlessFaulted_decTwin (h : DecAlike s t) {p q : State × Response} (hb : DecTwin s t p q) :
    DecTwin s t (unlessFaulted s p) (unlessFaulted t q) := by
  obtain ⟨-, -, -, hf⟩ := h
  by_cases hs : s.fault.kind = .none
  · rw [unlessFaulted_of_unfaulted hs, unlessFaulted_of_unfaulted (hf.mp hs)]; exact hb
  · rw [unlessFaulted_of_faulted hs, unlessFaulted_of_faulted (mt hf.mpr hs)]; exact .quiet _ rfl

theorem decPrologue_twin (h : DecAlike s t) {p q : State × Response}
    (hb : s.dec.mode.illegal = false → DecTwin s t p q) : DecTwin s t (decPrologue s p) (decPrologue t q) := by
  obtain ⟨hm, hk, -, hf⟩ := h
  rcases decPrologue_cases s p with ⟨h1, e⟩ | ⟨h1, h2, e⟩ | ⟨h1, h2, h3, e⟩ | ⟨⟨h1, h2, h3⟩, e⟩
  · rw [e, decPrologue_of_faulted (mt hf.mpr h1)]; exact .quiet _ rfl
  · rw [e, decPrologue_of_illegal (hf.mp h1) (hm ▸ h2), hm]; exact .fault _ h2
  · rw [e, decPrologue_of_error (hf.mp h1) (hm ▸ h2) (hk ▸ h3)]; exact .quiet _ rfl
  · rw [e, decPrologue_of_ready (hf.mp h1) (hm ▸ h2) (hk ▸ h3)]; exact hb h2

theorem raiseInvalidSymbol_twin (u : Byte) : DecTwin s t (raiseInvalidSymbol u s) (raiseInvalidSymbol u t) :=
  .error _ _ _ (codeFits_invalidSymbol u)

theorem raiseIncompleteStream_twin : DecTwin s t (raiseIncompleteStream s) (raiseIncompleteStream t) :=
  .error _ _ _ rfl

theorem decStart_twin (u : Byte) : DecTwin s t (decStart u s) (decStart u t) := by
  unfold decStart
  cases cls u with
  | valid v => exact .move _ _ _ _ rfl (fun _ => rfl) (fun _ => accFits_second v) (by simp)
  | ws => exact .quiet _ rfl
  | pad | invalid => exact raiseInvalidSymbol_twin u

theorem decSecond_twin (hm : s.dec.mode = .second) (ha : s.dec.acc = t.dec.acc) (u : Byte) :
    DecTwin s t (decSecond u s) (decSecond u t) := by
  unfold decSecond
  cases cls u with
  | valid v =>
    exact .move _ _ _ _ rfl (fun _ => by rw [ha]) (fun h => accFits_third (hm ▸ h) v) (by simp)
  | pad | ws | invalid => exact raiseInvalidSymbol_twin u

theorem decThird_twin (hm : s.dec.mode = .third) (ha : s.dec.acc = t.dec.acc) (u : Byte) :
    DecTwin s t (decThird u s) (decThird u t) := by
  unfold decThird
  cases cls u with
  | pad => exact .move .padding _ _ _ rfl (fun _ => ha) (fun h => by rw [hm] at h; exact h) (by simp)
  | valid v => exact .move _ _ _ _ rfl (fun _ => by rw [ha]) (fun _ => trivial) (by simp)
  | ws | invalid => exact raiseInvalidSymbol_twin u

theorem decPadding_twin (ha : s.dec.acc = t.dec.acc) (u : Byte) :
    DecTwin s t (decPadding u s) (decPadding u t) := by
  unfold decPadding
  rw [← ha]
  cases cls u with
  | pad => exact .move .start _ _ _ rfl (fun _ => ha) (fun _ => trivial) (by simp)
  | ws | valid _ | invalid => exact raiseInvalidSymbol_twin u

theorem decFourth_twin (ha : s.dec.acc = t.dec.acc) (u : Byte) : DecTwin s t (decFourth u s) (decFourth u t) := by
  unfold decFourth
  rw [← ha]
  cases cls u with
  | pad => exact .move .start _ _ _ rfl (fun _ => ha) (fun _ => trivial) (by simp)
  | valid v => exact .move .start _ _ _ rfl (fun _ => ha) (fun _ => trivial) (by simp)
  | ws | invalid => exact raiseInvalidSymbol_twin u

theorem decStep_twin (h : DecAlike s t) (u : Byte) : DecTwin s t (decStep u s) (decStep u t) := by
  refine decPrologue_twin h fun hl => ?_
  obtain ⟨hm, -, ha, -⟩ := h
  rw [← hm]
  cases hs : s.dec.mode with
  | start => exact decStart_twin u
  | second => exact decSecond_twin hs (ha (by rw [hs]; rfl)) u
  | third => exact decThird_twin hs (ha (by rw [hs]; rfl)) u
  | fourth => exact decFourth_twin (ha (by rw [hs]; rfl)) u
  | padding => exact decPadding_twin (ha (by rw [hs]; rfl)) u
  | eof => exact .quiet _ rfl
  | illegal6 | illegal7 => simp [hs, DecMode.illegal] at hl

theorem decEof_twin (h : DecAlike s t) : DecTwin s t (decEof s) (decEof t) := by
  refine decPrologue_twin h fun hl => ?_
  obtain ⟨hm, -, -, -⟩ := h
  rw [← hm]
  cases hs : s.dec.mode with
  | start => exact .move .eof _ _ _ rfl (fun h => by simp [DecMode.readsAcc] at h) (fun _ => trivial) (by simp)
  | second | third | fourth | padding => exact raiseIncompleteStream_twin
  | eof => exact .quiet _ rfl
  | illegal6 | illegal7 => simp [hs, DecMode.illegal] at hl

theorem decCheck_twin (h : DecAlike s t) : DecTwin s t (decCheck s) (decCheck t) := by
  refine decPrologue_twin h fun _ => ?_
  obtain ⟨hm, -, -, -⟩ := h
  rw [← hm]
  split
  · exact .quiet _ rfl
  · exact raiseIncompleteStream_twin

theorem CommandOf.decTwin {body : State → State × Response} (hb : CommandOf .dec body) (h : DecAlike s t) :
    DecTwin s t (body s) (body t) := by
  cases hb with
  | decStep u => exact decStep_twin h u
  | decEof => exact decEof_twin h
  | decCheck => exact decCheck_twin h
  | decReset => exact unlessFaulted_decTwin h .reset

/-! ## What follows for one run, and for two -/

variable {p q : State × Response}

theorem DecTwin.writes (h : DecTwin s t p q) : ∃ d f, p.1 = (s.setDec d).setFault f := by
  cases h with
  | quiet => exact ⟨s.dec, s.fault, rfl⟩
  | fault f => exact ⟨s.dec, f, rfl⟩
  | error | move | reset => exact ⟨_, s.fault, rfl⟩

theorem DecTwin.response_eq (h : DecTwin s t p q) : p.2 = q.2 := by
  cases h <;> rfl

theorem DecTwin.response_wf (h : DecTwin s t p q) : p.2.wf = true := by
  cases h with
  | quiet r hr => exact hr
  | fault | reset => rfl
  | error k c st => simp [raiseError, Response.wf]
  | move m a b us hm hab ha hu => exact Response.wf_emitting (by omega)

/-- Sound registers never meet the fault of an illegal mode, so the fault register stays. -/
theorem DecTwin.keeps_sound (h : DecTwin s t p q) (hs : s.dec.sound = true) :
    p.1.dec.sound = true ∧ p.1.fault = s.fault := by
  obtain ⟨hl, ha, hc⟩ := (DecRegs.sound_iff _).mp hs
  cases h with
  | quiet => exact ⟨hs, rfl⟩
  | fault f hm => simp [hl] at hm
  | error k c st hk => exact ⟨(DecRegs.sound_iff _).mpr ⟨hl, ha, hk⟩, rfl⟩
  | move m a b us hm hab hacc => exact ⟨(DecRegs.sound_iff _).mpr ⟨hm, hacc ha, hc⟩, rfl⟩
  | reset => exact ⟨rfl, rfl⟩

theorem DecTwin.keeps_sameDec (h : DecTwin s t p q) (hd : SameDec s.dec t.dec) (hf : s.fault = t.fault) :
    SameDec p.1.dec q.1.dec ∧ p.1.fault = q.1.fault := by
  obtain ⟨hm, hk, hc, ha⟩ := hd
  cases h with
  | quiet => exact ⟨⟨hm, hk, hc, ha⟩, hf⟩
  | fault => exact ⟨⟨hm, hk, hc, ha⟩, rfl⟩
  | error => exact ⟨⟨hm, rfl, rfl, ha⟩, hf⟩
  | move m a b us hl hab => exact ⟨⟨rfl, hk, hc, hab⟩, hf⟩
  | reset => exact ⟨⟨rfl, rfl, rfl, fun _ => rfl⟩, hf⟩

theorem DecTwin.keeps_seenAlike (h : DecTwin s t p q) (hst : SeenAlike s t) : SeenAlike p.1 q.1 := by
  obtain ⟨⟨hm, hk, ha⟩, he, hf, hrest⟩ := hst
  cases h with
  | quiet => exact ⟨⟨hm, hk, ha⟩, he, hf, hrest⟩
  | fault => exact ⟨⟨hm, hk, ha⟩, he, .rfl, hrest⟩
  | error => exact ⟨⟨hm, rfl, ha⟩, he, hf, hrest⟩
  | move m a b us hl hab => exact ⟨⟨rfl, hk, hab⟩, he, hf, hrest⟩
  | reset => exact ⟨⟨rfl, rfl, fun _ => rfl⟩, he, hf, hrest⟩

end

end Sys2Proof.Machine
end

section
/-! # Two runs of an encoder command -/

namespace Sys2Proof.Machine

open Sys2Proof.Claims

/-- The states agree in all that an encoder command reads: the mode, the accumulator and the column where they are live,
whether the block is faulted, the configuration, and the counter of the free values (42_encoder.md R74 to R81). -/
def EncAlike (s t : State) : Prop :=
  (s.enc.mode = t.enc.mode ∧ (s.enc.mode.readsAcc = true → s.enc.acc = t.enc.acc) ∧
    (s.enc.mode.readsCol = true → s.enc.col = t.enc.col)) ∧
  (s.fault.kind = .none ↔ t.fault.kind = .none) ∧ s.config = t.config ∧ s.freeCount = t.freeCount

theorem EncAlike.refl (s : State) : EncAlike s s := ⟨⟨rfl, fun _ => rfl, fun _ => rfl⟩, .rfl, rfl, rfl⟩

/-- The encoder is sound under a well-formed configuration. -/
def EncFits (s : State) : Prop := s.config.wf = true ∧ s.enc.sound s.config.lineWidth = true

/-- What an encoder command can do, in two states at once: nothing, or write the encoder and the counter. The two
encoders then differ at most in a stale accumulator (10_state.md R24); from a sound one the written encoder is sound and
takes no free value (10_state.md R17). -/
inductive EncTwin (s t : State) : State × Response → State × Response → Prop
  | quiet (r : Response) (hr : r.wf = true) : EncTwin s t (s, r) (t, r)
  | write (e e' : EncRegs) (n : Nat) (us : List Byte) (he : SameEnc e e')
    (hs : EncFits s → e.sound s.config.lineWidth = true ∧ n = s.freeCount)
    (hu : us.length ≤ max 3 (s.config.sep.length + 1)) :
    EncTwin s t (s.withEnc e n, .emitting us) (t.withEnc e' n, .emitting us)

section
variable {s t : State}

theorem unlessFaulted_encTwin (h : EncAlike s t) {p q : State × Response} (hb : EncTwin s t p q) :
    EncTwin s t (unlessFaulted s p) (unlessFaulted t q) := by
  obtain ⟨-, hf, -⟩ := h
  by_cases hs : s.fault.kind = .none
  · rw [unlessFaulted_of_unfaulted hs, unlessFaulted_of_unfaulted (hf.mp hs)]; exact hb
  · rw [unlessFaulted_of_faulted hs, unlessFaulted_of_faulted (mt hf.mpr hs)]; exact .quiet _ rfl

/-- Equal columns and counters take the same sum or the same free value, and a sum that fits takes none. -/
theorem addColumn_twin (hc : s.enc.col = t.enc.col) (hn : s.freeCount = t.freeCount) (k : Nat) :
    ∃ c n, addColumn k s = s.withEnc { s.enc with col := c } n ∧
      addColumn k t = t.withEnc { t.enc with col := c } n ∧
      (s.enc.col.toNat + k < 2 ^ 17 → c.toNat = s.enc.col.toNat + k ∧ n = s.freeCount) := by
  by_cases h : s.enc.col.toNat + k < 2 ^ 17
  · refine ⟨BitVec.ofNat 17 (s.enc.col.toNat + k), s.freeCount, ?_, ?_, fun _ => ⟨?_, rfl⟩⟩
    · rw [addColumn_of_fits h]; rfl
    · rw [addColumn_of_fits (hc ▸ h), hc, hn]; rfl
    · rw [BitVec.toNat_ofNat, Nat.mod_eq_of_lt h]
  · refine ⟨Config.freeColumn s.freeCount, s.freeCount + 1, ?_, ?_, fun h' => absurd h' h⟩
    · rw [addColumn_of_overflow h]; rfl
    · rw [addColumn_of_overflow (hc ▸ h), hn]; rfl

theorem pendingTwo_mod (b : Byte) : (pendingTwo b).toNat % 16 = 0 := by
  rw [pendingTwo_eq, BitVec.toNat_ofNat]; omega

theorem pendingFour_mod (b : Byte) : (pendingFour b).toNat % 4 = 0 := by
  rw [pendingFour_eq, BitVec.toNat_ofNat]; omega

theorem sound_start_iff {e : EncRegs} (hm : e.mode = .start) (w : Nat) :
    e.sound w = true ↔ e.col.toNat ≤ w + 3 := by
  simp [EncRegs.sound, hm]

theorem sound_eof_iff {e : EncRegs} (hm : e.mode = .eof) (w : Nat) :
    e.sound w = true ↔ e.col.toNat ≤ w + 3 := by
  simp [EncRegs.sound, hm]

theorem sound_partial1_iff {e : EncRegs} (hm : e.mode = .partial1) (w : Nat) :
    e.sound w = true ↔ e.acc.toNat % 16 = 0 ∧ 1 ≤ e.col.toNat ∧ e.col.toNat ≤ w := by
  simp [EncRegs.sound, hm, and_assoc]

theorem sound_partial2_iff {e : EncRegs} (hm : e.mode = .partial2) (w : Nat) :
    e.sound w = true ↔ e.acc.toNat % 4 = 0 ∧ 2 ≤ e.col.toNat ∧ e.col.toNat ≤ w + 1 := by
  simp [EncRegs.sound, hm, and_assoc]

/-- Whatever the mode, a sound column passes the line width by at most 3 (10_state.md R17). -/
theorem col_le_of_sound {e : EncRegs} {w : Nat} (h : e.sound w = true) : e.col.toNat ≤ w + 3 := by
  cases hm : e.mode with
  | start => exact (sound_start_iff hm w).mp h
  | partial1 => obtain ⟨-, -, hc⟩ := (sound_partial1_iff hm w).mp h; omega
  | partial2 => obtain ⟨-, -, hc⟩ := (sound_partial2_iff hm w).mp h; omega
  | eof => exact (sound_eof_iff hm w).mp h

theorem EncFits.lineWidth_bounds (h : EncFits s) : 1 ≤ s.config.lineWidth ∧ s.config.lineWidth ≤ 65535 :=
  ((config_wf_iff _).mp h.1).1

/-- What `ENC.STEP` in `START` does once it is known at which column the group opens and what it emits. -/
def openGroup (x : BitVec 17) (b : Byte) (us : List Byte) (s : State) : State × Response :=
  let counted := addColumn 1 (s.setEnc { s.enc with col := x })
  (counted.setEnc { counted.enc with acc := pendingTwo b, mode := .partial1 }, .emitting us)

theorem encStart_eq_openGroup (b : Byte) (s : State) :
    encStart b s = openGroup (if mustWrap s then 0#17 else s.enc.col) b
      ((if mustWrap s then s.config.sep else []) ++ [alphabet (firstIndex b)]) s := by
  unfold encStart openGroup
  cases mustWrap s <;> rfl

theorem openGroup_twin {x : BitVec 17} (hx : EncFits s → x.toNat < s.config.lineWidth)
    (hn : s.freeCount = t.freeCount) (b : Byte) {us : List Byte} (hu : us.length ≤ max 3 (s.config.sep.length + 1)) :
    EncTwin s t (openGroup x b us s) (openGroup x b us t) := by
  obtain ⟨c, n, e1, e2, hfit⟩ :=
    addColumn_twin (s := s.setEnc { s.enc with col := x }) (t := t.setEnc { t.enc with col := x }) rfl hn 1
  simp only [openGroup, e1, e2]
  refine .write ⟨.partial1, pendingTwo b, c⟩ ⟨.partial1, pendingTwo b, c⟩ n _ ⟨rfl, rfl, fun _ => rfl⟩
    (fun hf => ?_) hu
  have hlt := hx hf
  obtain ⟨h1, h2⟩ := hf.lineWidth_bounds
  obtain ⟨hcol, hfree⟩ := hfit (by simp only [State.setEnc_enc]; omega)
  simp only [State.setEnc_enc] at hcol
  have hc : 1 ≤ c.toNat ∧ c.toNat ≤ s.config.lineWidth := by omega
  exact ⟨(sound_partial1_iff rfl _).mpr ⟨pendingTwo_mod b, hc⟩, hfree⟩

/-- A group opens at column 0 of a new line, or on a line that has room: either way before the line's end. -/
theorem encStart_twin (hc : s.enc.col = t.enc.col) (hcfg : s.config = t.config) (hn : s.freeCount = t.freeCount)
    (b : Byte) : EncTwin s t (encStart b s) (encStart b t) := by
  have hw : mustWrap t = mustWrap s := by simp only [mustWrap, hc, hcfg]
  rw [encStart_eq_openGroup, encStart_eq_openGroup, hw, ← hc, ← hcfg]
  refine openGroup_twin (fun hf => ?_) hn b (by split <;> simp)
  obtain ⟨h1, -⟩ := hf.lineWidth_bounds
  split
  · exact h1
  · rename_i h
    simpa [mustWrap] using h

theorem encPartial1_twin (hm : s.enc.mode = .partial1) (ha : s.enc.acc = t.enc.acc) (hc : s.enc.col = t.enc.col)
    (hn : s.freeCount = t.freeCount) (b : Byte) : EncTwin s t (encPartial1 b s) (encPartial1 b t) := by
  obtain ⟨c, n, e1, e2, hfit⟩ := addColumn_twin hc hn 1
  unfold encPartial1
  rw [← ha]
  simp only [e1, e2]
  refine .write ⟨.partial2, pendingFour b, c⟩ ⟨.partial2, pendingFour b, c⟩ n _ ⟨rfl, rfl, fun _ => rfl⟩
    (fun hf => ?_) (by simp)
  obtain ⟨-, h2⟩ := hf.lineWidth_bounds
  obtain ⟨-, hlo, hhi⟩ := (sound_partial1_iff hm _).mp hf.2
  obtain ⟨hcol, hfree⟩ := hfit (by omega)
  have hc : 2 ≤ c.toNat ∧ c.toNat ≤ s.config.lineWidth + 1 := by omega
  exact ⟨(sound_partial2_iff rfl _).mpr ⟨pendingFour_mod b, hc⟩, hfree⟩

theorem encPartial2_twin (hm : s.enc.mode = .partial2) (ha : s.enc.acc = t.enc.acc) (hc : s.enc.col = t.enc.col)
    (hn : s.freeCount = t.freeCount) (b : Byte) : EncTwin s t (encPartial2 b s) (encPartial2 b t) := by
  obtain ⟨c, n, e1, e2, hfit⟩ := addColumn_twin hc hn 2
  unfold encPartial2
  rw [← ha]
  simp only [e1, e2]
  refine .write ⟨.start, s.enc.acc, c⟩ ⟨.start, t.enc.acc, c⟩ n _ ⟨rfl, rfl, fun _ => ha⟩
    (fun hf => ?_) (by simp)
  obtain ⟨-, h2⟩ := hf.lineWidth_bounds
  obtain ⟨-, hlo, hhi⟩ := (sound_partial2_iff hm _).mp hf.2
  obtain ⟨hcol, hfree⟩ := hfit (by omega)
  have hc : c.toNat ≤ s.config.lineWidth + 3 := by omega
  exact ⟨(sound_start_iff rfl _).mpr hc, hfree⟩

/-- A flush completes its group, so the column stays within the bound at the end of one. -/
theorem encFlushGroup_twin {pads : Nat}
    (hm : (s.enc.mode = .partial1 ∧ pads = 2) ∨ (s.enc.mode = .partial2 ∧ pads = 1))
    (ha : s.enc.acc = t.enc.acc) (hc : s.enc.col = t.enc.col) (hn : s.freeCount = t.freeCount) :
    EncTwin s t (encFlushGroup pads s) (encFlushGroup pads t) := by
  obtain ⟨c, n, e1, e2, hfit⟩ := addColumn_twin hc hn (1 + pads)
  unfold encFlushGroup
  rw [← ha]
  simp only [e1, e2]
  refine .write ⟨.eof, s.enc.acc, c⟩ ⟨.eof, t.enc.acc, c⟩ n _ ⟨rfl, rfl, fun _ => ha⟩ (fun hf => ?_) ?_
  · obtain ⟨-, h2⟩ := hf.lineWidth_bounds
    have hcol : s.enc.col.toNat + (1 + pads) ≤ s.config.lineWidth + 3 := by
      rcases hm with ⟨hm, rfl⟩ | ⟨hm, rfl⟩
      · obtain ⟨-, -, hhi⟩ := (sound_partial1_iff hm _).mp hf.2; omega
      · obtain ⟨-, -, hhi⟩ := (sound_partial2_iff hm _).mp hf.2; omega
    obtain ⟨hsum, hfree⟩ := hfit (by omega)
    rw [← hsum] at hcol
    exact ⟨(sound_eof_iff rfl _).mpr hcol, hfree⟩
  · rcases hm with ⟨-, rfl⟩ | ⟨-, rfl⟩ <;> simp

theorem encStep_twin (h : EncAlike s t) (b : Byte) : EncTwin s t (encStep b s) (encStep b t) := by
  refine unlessFaulted_encTwin h ?_
  obtain ⟨⟨hm, ha, hc⟩, -, hcfg, hn⟩ := h
  rw [← hm]
  cases hs : s.enc.mode with
  | start => exact encStart_twin (hc (by rw [hs]; rfl)) hcfg hn b
  | partial1 => exact encPartial1_twin hs (ha (by rw [hs]; rfl)) (hc (by rw [hs]; rfl)) hn b
  | partial2 => exact encPartial2_twin hs (ha (by rw [hs]; rfl)) (hc (by rw [hs]; rfl)) hn b
  | eof => exact .quiet _ rfl

theorem encEof_twin (h : EncAlike s t) : EncTwin s t (encEof s) (encEof t) := by
  refine unlessFaulted_encTwin h ?_
  obtain ⟨⟨hm, ha, hc⟩, -, -, hn⟩ := h
  rw [← hm]
  cases hs : s.enc.mode with
  | start =>
    have ht : t.setEnc { t.enc with mode := .eof } = t.withEnc ⟨.eof, t.enc.acc, t.enc.col⟩ s.freeCount := by
      rw [hn]; rfl
    dsimp only
    rw [ht]
    exact .write ⟨.eof, s.enc.acc, s.enc.col⟩ _ s.freeCount _
      ⟨rfl, hc (by rw [hs]; rfl), fun h => by simp [EncMode.readsAcc] at h⟩
      (fun hf => ⟨(sound_eof_iff rfl _).mpr (col_le_of_sound (e := s.enc) hf.2), rfl⟩) (by simp)
  | partial1 => exact encFlushGroup_twin (.inl ⟨hs, rfl⟩) (ha (by rw [hs]; rfl)) (hc (by rw [hs]; rfl)) hn
  | partial2 => exact encFlushGroup_twin (.inr ⟨hs, rfl⟩) (ha (by rw [hs]; rfl)) (hc (by rw [hs]; rfl)) hn
  | eof => exact .quiet _ rfl

theorem encReset_twin (h : EncAlike s t) : EncTwin s t (encReset s) (encReset t) := by
  refine unlessFaulted_encTwin h ?_
  obtain ⟨-, -, -, hn⟩ := h
  have ht : t.setEnc { mode := .start, acc := 0#6, col := 0#17 } = t.withEnc State.reset.enc s.freeCount := by
    rw [hn]; rfl
  rw [ht]
  exact .write State.reset.enc _ s.freeCount _ ⟨rfl, rfl, fun _ => rfl⟩
    (fun _ => ⟨(sound_start_iff rfl _).mpr (Nat.zero_le _), rfl⟩) (by simp)

theorem CommandOf.encTwin {body : State → State × Response} (hb : CommandOf .enc body) (h : EncAlike s t) :
    EncTwin s t (body s) (body t) := by
  cases hb with
  | encStep b => exact encStep_twin h b
  | encEof => exact encEof_twin h
  | encReset => exact encReset_twin h

/-! ## What follows for one run, and for two -/

variable {p q : State × Response}

theorem EncTwin.writes (h : EncTwin s t p q) : ∃ e n, p.1 = s.withEnc e n := by
  cases h with
  | quiet => exact ⟨s.enc, s.freeCount, rfl⟩
  | write e e' n => exact ⟨e, n, rfl⟩

theorem EncTwin.response_eq (h : EncTwin s t p q) : p.2 = q.2 := by
  cases h <;> rfl

/-- A separator has at most four units, so no response has more than five. -/
theorem EncTwin.response_wf (h : EncTwin s t p q) (hw : s.config.wf = true) : p.2.wf = true := by
  obtain ⟨-, -, hsep⟩ := (config_wf_iff _).mp hw
  cases h with
  | quiet r hr => exact hr
  | write e e' n us he hs hu => exact Response.wf_emitting (by omega)

theorem EncTwin.keeps_sound (h : EncTwin s t p q) (hs : EncFits s) :
    p.1.enc.sound s.config.lineWidth = true ∧ p.1.freeCount = s.freeCount := by
  cases h with
  | quiet => exact ⟨hs.2, rfl⟩
  | write e e' n us he hsound => exact hsound hs

theorem EncTwin.keeps_sameEnc (h : EncTwin s t p q) (hst : SameEnc s.enc t.enc) (hf : s.fault = t.fault) :
    SameEnc p.1.enc q.1.enc ∧ p.1.fault = q.1.fault := by
  cases h with
  | quiet => exact ⟨hst, hf⟩
  | write e e' n us he => exact ⟨he, hf⟩

theorem EncTwin.keeps_seenAlike (h : EncTwin s t p q) (hst : SeenAlike s t) : SeenAlike p.1 q.1 := by
  obtain ⟨hd, he, hf, hcfg, hi, ho, hp, hr, hn⟩ := hst
  cases h with
  | quiet => exact ⟨hd, he, hf, hcfg, hi, ho, hp, hr, hn⟩
  | write e e' n us hee =>
    obtain ⟨hm, hc, ha⟩ := hee
    exact ⟨hd, ⟨hm, ha, fun _ => hc⟩, hf, hcfg, hi, ho, hp, hr, rfl⟩

end

end Sys2Proof.Machine
end

section
/-! # Frames and invariants of a step -/

namespace Sys2Proof.Machine

open Sys2Proof.Claims

/-! ## What an engine command writes -/

theorem CommandOf.dec_writes {body : State → State × Response} (h : CommandOf .dec body) (s : State) :
    ∃ d f, (body s).1 = (s.setDec d).setFault f :=
  (h.decTwin (.refl s)).writes

theorem CommandOf.enc_writes {body : State → State × Response} (h : CommandOf .enc body) (s : State) :
    ∃ e n, (body s).1 = s.withEnc e n :=
  (h.encTwin (.refl s)).writes

theorem CommandOf.frame {e : Engine} {body : State → State × Response} (h : CommandOf e body) (s : State) :
    SameFrame s (body s).1 ∧ (body s).1.output = s.output := by
  cases e with
  | dec => obtain ⟨d, f, hb⟩ := h.dec_writes s; rw [hb]; exact ⟨⟨rfl, rfl, rfl, rfl, rfl⟩, rfl⟩
  | enc => obtain ⟨e, n, hb⟩ := h.enc_writes s; rw [hb]; exact ⟨⟨rfl, rfl, rfl, rfl, rfl⟩, rfl⟩

theorem CommandOf.of_faulted {e : Engine} {body : State → State × Response} (h : CommandOf e body) {s : State}
    (hf : s.fault.kind ≠ .none) : body s = (s, .ofStatus .fault) := by
  cases h with
  | decStep | decEof | decCheck => exact decPrologue_of_faulted hf _
  | decReset | encStep | encEof | encReset => exact unlessFaulted_of_faulted hf _

/-! ## What one word does, as a chain of engine commands -/

/-- `Moves e s t`: commands of engine `e`, appends to `OUT` and repeats of a reserved error kind lead from `s` to
`t`. -/
inductive Moves (e : Engine) (s : State) : State → Prop
  | refl : Moves e s s
  | run {t : State} (h : Moves e s t) {body : State → State × Response} (hb : CommandOf e body) :
    Moves e s (body t).1
  | append {t : State} (h : Moves e s t) (us : List Byte) : Moves e s (appendOut us t)
  | bumpFree {t : State} (h : Moves e s t) (hk : t.dec.errKind = .reserved3) : Moves e s t.bumpFree

theorem heldError_moves {e : Engine} {s t u : State} {c : AdpCode} (h : Moves e s t)
    (hh : heldError e t = some (u, c)) : Moves e s u := by
  cases e with
  | enc => simp at hh
  | dec =>
    unfold heldError at hh
    cases hk : t.dec.errKind <;> simp only [hk, reduceCtorEq, Option.some.injEq, Prod.mk.injEq] at hh
    · rw [← hh.1]; exact h
    · rw [← hh.1]; exact h
    · rw [← hh.1]; exact h.bumpFree hk

theorem transcodeFrom_moves {e : Engine} {s t : State} (h : Moves e s t) (us : List Byte) (k : Nat) :
    Moves e s (transcodeFrom e us k t).1 := by
  induction us generalizing t k with
  | nil => exact h
  | cons u us ih =>
    have hstep : Moves e s (engineStep e u t).1 := h.run (engineStep_commandOf e u)
    unfold transcodeFrom
    split
    · exact h
    · split
      · exact heldError_moves h ‹_›
      · split
        · exact h
        · split
          · exact ih (hstep.append _) _
          · exact hstep

theorem flush_moves (e : Engine) (s : State) : Moves e s (flush e s).1 := by
  have heof : Moves e s (engineEof e s).1 := Moves.refl.run (engineEof_commandOf e)
  unfold flush
  split
  · exact .refl
  · split
    · exact heldError_moves .refl ‹_›
    · split
      · exact .refl
      · split
        · exact heof.append _
        · exact heof

theorem flush_position (e : Engine) (s : State) : (flush e s).2.position = (flush e s).2.consumed := by
  unfold flush
  split
  · rfl
  · split
    · rfl
    · split
      · rfl
      · split <;> rfl

theorem RequestBody.position_eq {body : State → State × AdpResult} (h : RequestBody body) (s : State) :
    (body s).2.position = (body s).2.consumed := by
  cases h with
  | transcode e => exact (transcodeFrom_position e s.input 0 s).1
  | flush e => exact flush_position e s
  | reserved r => rfl

/-- What an answered word does to the block: moves of one engine or the fault of a reserved word, then one reply. -/
theorem runWord_cases {p : PortWord} {s t : State} (h : runWord p s = .next t) :
    s.config.wf = true ∧ ∃ u r, t = u.pushReply r ∧
      ((∃ e, Moves e s u) ∨ ∃ w, u = (raiseFault .illegalCommand (illegalInfo w) s).1) := by
  rcases runWord_body p with ⟨body, hb, hrun⟩ | ⟨body, hb, hrun⟩
  · obtain ⟨hw, rfl⟩ := answerCommand_next_iff.mp (hrun s ▸ h)
    refine ⟨hw, _, _, rfl, ?_⟩
    cases hb with
    | engine hb => exact .inl ⟨_, Moves.refl.run hb⟩
    | reserved r => exact .inr ⟨r, rfl⟩
  · obtain ⟨hw, rfl⟩ := answerRequest_next_iff.mp (hrun s ▸ h)
    refine ⟨hw, _, _, rfl, ?_⟩
    cases hb with
    | transcode e => exact .inl ⟨e, transcodeFrom_moves .refl _ _⟩
    | flush e => exact .inl ⟨e, flush_moves e s⟩
    | reserved r => exact .inr ⟨r, rfl⟩

/-! ## The configuration -/

theorem Moves.config_eq {e : Engine} {s t : State} (h : Moves e s t) : t.config = s.config := by
  induction h with
  | refl => rfl
  | run h hb ih =>
    obtain ⟨⟨hc, -⟩, -⟩ := hb.frame _
    exact hc.trans ih
  | append h us ih => exact ih
  | bumpFree h hk ih => exact ih

theorem runWord_config {p : PortWord} {s t : State} (h : runWord p s = .next t) : t.config = s.config := by
  obtain ⟨-, u, r, rfl, ⟨e, hm⟩ | ⟨w, rfl⟩⟩ := runWord_cases h
  · exact hm.config_eq
  · obtain ⟨f, hf⟩ := raiseFault_writes_fault .illegalCommand (illegalInfo w) s
    rw [hf]; rfl

theorem step_config {s t : State} (h : step s = .next t) : t.config = s.config := by
  rcases step_cases h with ⟨-, rfl⟩ | ⟨rest, -, rfl⟩ | ⟨ev, rest, p, us, o, -, -, hw⟩
  · rfl
  · rfl
  · exact runWord_config (s := (s.setPending rest).present us o) hw

/-- Settles O54: a word only moves an engine or the fault register, and power-on resets registers only. -/
theorem noStepWritesTheConfiguration : Obligations.NoStepWritesTheConfiguration :=
  fun _ _ h => step_config h

/-! ## The faulted block -/

theorem Moves.keeps_faulted {e : Engine} {s t : State} (h : Moves e s t) (hf : s.fault.kind ≠ .none) :
    t.dec = s.dec ∧ t.enc = s.enc ∧ t.fault = s.fault := by
  induction h with
  | refl => exact ⟨rfl, rfl, rfl⟩
  | run h hb ih =>
    have ⟨_, _, hfault⟩ := ih
    rw [hb.of_faulted (hfault ▸ hf)]; exact ih
  | append h us ih => exact ih
  | bumpFree h hk ih => exact ih

theorem runWord_of_faulted {p : PortWord} {s t : State} (h : runWord p s = .next t) (hf : s.fault.kind ≠ .none) :
    t.dec = s.dec ∧ t.enc = s.enc ∧ t.fault = s.fault := by
  obtain ⟨-, u, r, rfl, ⟨e, hm⟩ | ⟨w, rfl⟩⟩ := runWord_cases h
  · exact hm.keeps_faulted hf
  · rw [raiseFault_of_faulted hf]; exact ⟨rfl, rfl, rfl⟩

theorem sameRegisters_of_eq {s t : State} (hd : t.dec = s.dec) (he : t.enc = s.enc) (hf : t.fault = s.fault) :
    SameRegisters t s := by
  simp [SameRegisters, SameDec, SameEnc, hd, he, hf]

/-- Settles O45: every body a word can run returns the registers of a faulted block as they are. -/
theorem faultStaysUntilPowerOn : Obligations.FaultStaysUntilPowerOn := by
  intro s t h hf hpow
  rcases step_cases h with ⟨-, rfl⟩ | ⟨rest, hp, -⟩ | ⟨ev, rest, p, us, o, -, -, hw⟩
  · exact sameRegisters_of_eq rfl rfl rfl
  · simp [hp] at hpow
  · obtain ⟨hd, he, hfault⟩ := runWord_of_faulted hw hf
    exact sameRegisters_of_eq hd he hfault

/-! ## Sound registers -/

theorem registersSound_iff (s : State) :
    registersSound s = true ↔
      s.dec.sound = true ∧ s.enc.sound s.config.lineWidth = true ∧ s.fault.sound = true := by
  simp [registersSound, and_assoc]

theorem CommandOf.keeps_registersSound {e : Engine} {body : State → State × Response} (h : CommandOf e body)
    {s : State} (hw : s.config.wf = true) (hs : registersSound s = true) :
    registersSound (body s).1 = true ∧ (body s).1.freeCount = s.freeCount := by
  obtain ⟨hd, he, hf⟩ := (registersSound_iff s).mp hs
  rw [registersSound_iff]
  cases e with
  | dec =>
    obtain ⟨hd', hf'⟩ := (h.decTwin (.refl s)).keeps_sound hd
    obtain ⟨d, f, hb⟩ := h.dec_writes s
    rw [hb] at hd' hf' ⊢
    exact ⟨⟨hd', he, hf' ▸ hf⟩, rfl⟩
  | enc =>
    obtain ⟨he', hn⟩ := (h.encTwin (.refl s)).keeps_sound ⟨hw, he⟩
    obtain ⟨e, n, hb⟩ := h.enc_writes s
    rw [hb] at he' hn ⊢
    exact ⟨⟨hd, he', hf⟩, hn⟩

theorem Moves.keeps_registersSound {e : Engine} {s t : State} (h : Moves e s t) (hw : s.config.wf = true)
    (hs : registersSound s = true) : registersSound t = true ∧ t.freeCount = s.freeCount := by
  induction h with
  | refl => exact ⟨hs, rfl⟩
  | run h hb ih =>
    obtain ⟨ht, hn⟩ := ih
    obtain ⟨hb', hn'⟩ := hb.keeps_registersSound (by rw [h.config_eq]; exact hw) ht
    exact ⟨hb', hn'.trans hn⟩
  | append h us ih => exact ih
  | bumpFree h hk ih =>
    obtain ⟨ht, -⟩ := ih
    obtain ⟨hd, -⟩ := (registersSound_iff _).mp ht
    obtain ⟨-, -, hc⟩ := (DecRegs.sound_iff _).mp hd
    rw [hk] at hc
    exact hc.elim

/-- The information of a reserved word is the word, with bit 15 for one of the request port (60_exceptions.md R108). -/
theorem illegalInfo_sound (r : Reserved) :
    FaultReg.sound { kind := .illegalCommand, info := illegalInfo r } = true := by
  cases r with
  | command w =>
    have := w.isLt
    simp only [FaultReg.sound, illegalInfo, BitVec.toNat_setWidth, Bool.or_eq_true, decide_eq_true_eq]
    omega
  | request w => revert w; decide

theorem raiseFault_keeps_registersSound {s : State} (hs : registersSound s = true) (r : Reserved) :
    registersSound (raiseFault .illegalCommand (illegalInfo r) s).1 = true ∧
      (raiseFault .illegalCommand (illegalInfo r) s).1.freeCount = s.freeCount := by
  by_cases hf : s.fault.kind = .none
  · rw [raiseFault_of_unfaulted hf, registersSound_iff]
    obtain ⟨hd, he, -⟩ := (registersSound_iff s).mp hs
    exact ⟨⟨hd, he, illegalInfo_sound r⟩, rfl⟩
  · rw [raiseFault_of_faulted hf]; exact ⟨hs, rfl⟩

theorem runWord_keeps_registersSound {p : PortWord} {s t : State} (hs : registersSound s = true)
    (h : runWord p s = .next t) : registersSound t = true ∧ t.freeCount = s.freeCount := by
  obtain ⟨hw, u, r, rfl, ⟨e, hm⟩ | ⟨w, rfl⟩⟩ := runWord_cases h
  · exact hm.keeps_registersSound hw hs
  · exact raiseFault_keeps_registersSound hs w

theorem powerOnReset_registersSound (s : State) : registersSound s.powerOnReset = true :=
  (registersSound_iff _).mpr ⟨rfl, (sound_start_iff rfl _).mpr (Nat.zero_le _), rfl⟩

/-- The inductive step of the invariant on the registers, and that no step from sound ones takes a free value. -/
theorem step_keeps_registersSound {s t : State} (hs : registersSound s = true) (h : step s = .next t) :
    registersSound t = true ∧ t.freeCount = s.freeCount := by
  rcases step_cases h with ⟨-, rfl⟩ | ⟨rest, -, rfl⟩ | ⟨ev, rest, p, us, o, -, -, hw⟩
  · exact ⟨hs, rfl⟩
  · exact ⟨powerOnReset_registersSound _, rfl⟩
  · exact runWord_keeps_registersSound (s := (s.setPending rest).present us o) hs hw

/-- Settles O50, by induction over the engine commands that one word runs. -/
theorem everyStepKeepsRegistersSound : Obligations.EveryStepKeepsRegistersSound := by
  intro s t hs h
  obtain ⟨ht, -⟩ := step_keeps_registersSound hs h
  exact ht

/-- Settles O52: a sound column has room for every sum, and no sound decoder holds the reserved error kind. -/
theorem soundRegistersNeedNoFreeValue : Obligations.SoundRegistersNeedNoFreeValue := by
  intro s t hs h
  obtain ⟨-, hn⟩ := step_keeps_registersSound hs h
  exact hn

/-! ## Sound ports, and runs -/

theorem CommandBody.response_wf {body : State → State × Response} (h : CommandBody body) {s : State}
    (hw : s.config.wf = true) : (body s).2.wf = true := by
  cases h with
  | reserved r => rfl
  | @engine e _ hb =>
    cases e with
    | dec => exact (hb.decTwin (.refl s)).response_wf
    | enc => exact (hb.encTwin (.refl s)).response_wf hw

theorem CommandBody.frame {body : State → State × Response} (h : CommandBody body) (s : State) :
    SameFrame s (body s).1 ∧ (body s).1.output = s.output := by
  cases h with
  | engine hb => exact hb.frame s
  | reserved r =>
    obtain ⟨f, hf⟩ := raiseFault_writes_fault .illegalCommand (illegalInfo r) s
    rw [hf]; exact ⟨⟨rfl, rfl, rfl, rfl, rfl⟩, rfl⟩

/-- A request leaves the frame alone and keeps `OUT` within its capacity. -/
theorem RequestBody.frame {body : State → State × AdpResult} (h : RequestBody body) {s : State} :
    SameFrame s (body s).1 ∧ (s.output.wf = true → (body s).1.output.wf = true) := by
  cases h with
  | transcode e => exact ⟨(transcodeFrom_frame e _ _ s).1, fun ho => transcodeFrom_keeps_wf ho e _ _⟩
  | flush e => exact ⟨(flush_frame e s).1, fun ho => flush_keeps_wf ho e⟩
  | reserved r =>
    obtain ⟨hframe, hout⟩ := (CommandBody.reserved r).frame s
    exact ⟨hframe, fun ho => hout ▸ ho⟩

theorem portsSound_iff (s : State) :
    portsSound s = true ↔
      s.output.wf = true ∧ s.pending.all HostEvent.wf = true ∧ s.replies.all Reply.sound = true := by
  simp only [portsSound, Bool.and_eq_true, and_assoc]

/-- One more sound reply keeps the ports sound, where `OUT` is within its capacity and the frame is as it was. -/
theorem pushReply_portsSound {s u : State} (hs : portsSound s = true) (hf : SameFrame s u) (ho : u.output.wf = true)
    {r : Reply} (hr : r.sound = true) : portsSound (u.pushReply r) = true := by
  obtain ⟨-, hp, hrs⟩ := (portsSound_iff s).mp hs
  obtain ⟨-, -, -, hpend, hrep⟩ := hf
  refine (portsSound_iff _).mpr ⟨ho, by rw [State.pushReply_pending, hpend]; exact hp, ?_⟩
  rw [State.pushReply_replies, hrep, List.all_append, hrs, List.all_cons, hr]
  rfl

theorem runWord_keeps_portsSound {p : PortWord} {s t : State} (hs : portsSound s = true)
    (h : runWord p s = .next t) : portsSound t = true := by
  obtain ⟨ho, -⟩ := (portsSound_iff s).mp hs
  rcases runWord_body p with ⟨body, hb, hrun⟩ | ⟨body, hb, hrun⟩
  · obtain ⟨hw, rfl⟩ := answerCommand_next_iff.mp (hrun s ▸ h)
    obtain ⟨hframe, hout⟩ := hb.frame s
    exact pushReply_portsSound hs hframe (hout ▸ ho) (hb.response_wf hw)
  · obtain ⟨hw, rfl⟩ := answerRequest_next_iff.mp (hrun s ▸ h)
    obtain ⟨hframe, hout⟩ := hb.frame (s := s)
    exact pushReply_portsSound hs hframe (hout ho) (by simp [Reply.sound, hb.position_eq s, hout ho])

theorem step_keeps_portsSound {s t : State} (hs : portsSound s = true) (h : step s = .next t) :
    portsSound t = true := by
  obtain ⟨ho, hp, hr⟩ := (portsSound_iff s).mp hs
  rcases step_cases h with ⟨-, rfl⟩ | ⟨rest, he, rfl⟩ | ⟨ev, rest, p, us, o, he, hoev, hw⟩
  · exact hs
  · rw [he, List.all_cons, Bool.and_eq_true] at hp
    exact (portsSound_iff _).mpr ⟨ho, hp.2, hr⟩
  · rw [he, List.all_cons, Bool.and_eq_true] at hp
    obtain ⟨hev, hrest⟩ := hp
    have hgiven : portsSound ((s.setPending rest).present us o) = true :=
      (portsSound_iff _).mpr ⟨hoev ho hev, hrest, hr⟩
    exact runWord_keeps_portsSound hgiven hw

/-- What every step keeps holds at the end of every run. -/
theorem run_keeps {M : Host.Core} {P : M.State → Prop} (hP : ∀ s t, P s → M.step s = .next t → P t) (n : Nat)
    {s t : M.State} (hs : P s) (h : M.run n s = .next t) : P t := by
  induction n generalizing s with
  | zero => cases h; exact hs
  | succ n ih =>
    unfold Host.Core.run at h
    split at h
    · rename_i u hu
      exact ih (hP s u hs hu) h
    · cases h
    · cases h

/-- What a run from a fresh block keeps: the two invariants, and the configuration. -/
def SoundUnder (c : Config) (s : State) : Prop := registersSound s = true ∧ portsSound s = true ∧ s.config = c

theorem step_keeps_soundUnder {c : Config} (s t : State) (hs : SoundUnder c s) (h : step s = .next t) :
    SoundUnder c t := by
  obtain ⟨hr, hp, hc⟩ := hs
  obtain ⟨hr', -⟩ := step_keeps_registersSound hr h
  exact ⟨hr', step_keeps_portsSound hp h, (step_config h).trans hc⟩

/-- Settles O53: a fresh block is sound under its configuration, and every step of the run keeps it so. -/
theorem runsFromResetStaySound : Obligations.RunsFromResetStaySound := by
  intro c evs n t _ hevs hrun
  have hregs : registersSound { fresh c with pending := evs } = true :=
    (registersSound_iff _).mpr ⟨rfl, (sound_start_iff rfl _).mpr (Nat.zero_le _), rfl⟩
  have hports : portsSound { fresh c with pending := evs } = true := (portsSound_iff _).mpr ⟨rfl, hevs, rfl⟩
  obtain ⟨hr, hp, hcfg⟩ :=
    run_keeps (M := core) (P := SoundUnder c) step_keeps_soundUnder n ⟨hregs, hports, rfl⟩ hrun
  obtain ⟨-, he, -⟩ := (registersSound_iff t).mp hr
  exact ⟨hr, hp, hcfg ▸ col_le_of_sound he⟩

/-! ## Frames of commands and requests -/

/-- Settles O55: the state after an engine command is the one before it but for its own registers and one response. -/
theorem engineCommandFrame : Obligations.EngineCommandFrame := by
  intro i s t h
  constructor
  · intro hi
    obtain ⟨body, hb, hexec⟩ := exec_of_isDecCommand hi
    obtain ⟨-, rfl⟩ := answerCommand_next_iff.mp (hexec s ▸ h)
    obtain ⟨d, f, hw⟩ := hb.dec_writes s
    exact ⟨d, f, _, by rw [hw]; exact .refl _⟩
  · intro hi
    obtain ⟨body, hb, hexec⟩ := exec_of_isEncCommand hi
    obtain ⟨-, rfl⟩ := answerCommand_next_iff.mp (hexec s ▸ h)
    obtain ⟨e, n, hw⟩ := hb.enc_writes s
    exact ⟨e, n, _, by rw [hw]; exact .refl _⟩

/-- The state with other registers, another counter, and `w` appended to the data of `OUT`. -/
def State.after (s : State) (d : DecRegs) (e : EncRegs) (f : FaultReg) (n : Nat) (w : List Byte) : State :=
  { s with dec := d, enc := e, fault := f, freeCount := n,
           output := { s.output with data := s.output.data ++ w } }

/-- The registers that the commands of an engine never write are as in `s` (10_state.md R11). -/
def KeepsOthers : Engine → State → DecRegs → EncRegs → FaultReg → Prop
  | .dec, s, _, e, _ => e = s.enc
  | .enc, s, d, _, f => d = s.dec ∧ f = s.fault

theorem Moves.writes {g : Engine} {s t : State} (h : Moves g s t) :
    ∃ d e f n w, t = s.after d e f n w ∧ KeepsOthers g s d e f := by
  induction h with
  | refl =>
    refine ⟨s.dec, s.enc, s.fault, s.freeCount, [], by simp [State.after], ?_⟩
    cases g with
    | dec => rfl
    | enc => exact ⟨rfl, rfl⟩
  | run h hb ih =>
    obtain ⟨d, e, f, n, w, rfl, hk⟩ := ih
    cases g with
    | dec =>
      obtain ⟨d', f', hw⟩ := hb.dec_writes (s.after d e f n w)
      exact ⟨d', e, f', n, w, hw, hk⟩
    | enc =>
      obtain ⟨e', n', hw⟩ := hb.enc_writes (s.after d e f n w)
      exact ⟨d, e', f, n', w, hw, hk⟩
  | append h us ih =>
    obtain ⟨d, e, f, n, w, rfl, hk⟩ := ih
    exact ⟨d, e, f, n, w ++ us, by simp [State.after, appendOut, State.setOutput], hk⟩
  | bumpFree h hr ih =>
    obtain ⟨d, e, f, n, w, rfl, hk⟩ := ih
    exact ⟨d, e, f, n + 1, w, rfl, hk⟩

theorem eq_stoppedAt {r : AdpResult} (h : r.position = r.consumed) : r = stoppedAt r.code r.consumed := by
  cases r
  simp_all [stoppedAt]

theorem answerRequest_resulted {body : State → State × AdpResult} (hb : RequestBody body) {s t : State}
    (h : answerRequest body s = .next t) : t = resulted (body s).1 (body s).2.code (body s).2.consumed := by
  obtain ⟨-, rfl⟩ := answerRequest_next_iff.mp h
  exact congrArg (fun r => (body s).1.pushReply (.result r (body s).1.output)) (eq_stoppedAt (hb.position_eq s))

/-- A request of engine `e` moves that engine alone and gives one result. -/
theorem exec_request_moves {e : Engine} {i : Instr} (hi : i = transcodeOf e ∨ i = flushOf e) {s t : State}
    (h : exec i s = .next t) : ∃ u code k, Moves e s u ∧ t = resulted u code k := by
  rcases hi with rfl | rfl
  · have hexec : exec (transcodeOf e) s = answerRequest (transcode e) s := by cases e <;> rfl
    exact ⟨_, _, _, transcodeFrom_moves .refl _ _, answerRequest_resulted (.transcode e) (hexec ▸ h)⟩
  · have hexec : exec (flushOf e) s = answerRequest (flush e) s := by cases e <;> rfl
    exact ⟨_, _, _, flush_moves e s, answerRequest_resulted (.flush e) (hexec ▸ h)⟩

/-- Settles O56, by what the moves of one engine write. -/
theorem adapterRequestFrame : Obligations.AdapterRequestFrame := by
  intro s t i h
  constructor
  · intro hi
    obtain ⟨u, code, k, hm, rfl⟩ := exec_request_moves (e := .dec) hi h
    obtain ⟨d, _, f, n, w, rfl, rfl⟩ := hm.writes
    exact ⟨d, f, n, w, code, k, .refl _⟩
  · intro hi
    obtain ⟨u, code, k, hm, rfl⟩ := exec_request_moves (e := .enc) hi h
    obtain ⟨_, e, _, n, w, rfl, rfl, rfl⟩ := hm.writes
    exact ⟨e, n, w, code, k, .refl _⟩

end Sys2Proof.Machine
end

section
/-! # Two runs of one step -/

namespace Sys2Proof.Machine

open Sys2Proof.Claims

/-! ## What an engine command reads -/

theorem CommandOf.pushReply_replies {e : Engine} {body : State → State × Response} (hb : CommandOf e body)
    (s : State) (r : Reply) : ((body s).1.pushReply r).replies = s.replies ++ [r] := by
  obtain ⟨⟨-, -, -, -, hr⟩, -⟩ := hb.frame s
  rw [State.pushReply_replies, hr]

/-- Settles O46: in states alike for its engine a command does the same, whatever else they hold. -/
theorem enginesReadOnlyTheirOwnLiveState : Obligations.EnginesReadOnlyTheirOwnLiveState := by
  constructor
  · intro i s t hi hs ht hdec hf
    obtain ⟨body, hb, hexec⟩ := exec_of_isDecCommand hi
    have ⟨hm, hk, _, ha⟩ := hdec
    have htwin : DecTwin s t (body s) (body t) := hb.decTwin ⟨hm, hk, ha, by rw [hf]⟩
    obtain ⟨hsame, hfault⟩ := htwin.keeps_sameDec hdec hf
    refine ⟨_, _, (body s).2, (hexec s).trans (answerCommand_of_wf hs _), (hexec t).trans (answerCommand_of_wf ht _),
      hsame, hfault, hb.pushReply_replies s _, ?_⟩
    rw [htwin.response_eq]
    exact hb.pushReply_replies t _
  · intro i s t hi hs hcfg henc hf hn
    obtain ⟨body, hb, hexec⟩ := exec_of_isEncCommand hi
    have ⟨hm, hc, ha⟩ := henc
    have htwin : EncTwin s t (body s) (body t) := hb.encTwin ⟨⟨hm, ha, fun _ => hc⟩, by rw [hf], hcfg, hn⟩
    obtain ⟨hsame, hfault⟩ := htwin.keeps_sameEnc henc hf
    refine ⟨_, _, (body s).2, (hexec s).trans (answerCommand_of_wf hs _),
      (hexec t).trans (answerCommand_of_wf (hcfg ▸ hs) _), hsame, hfault, hb.pushReply_replies s _, ?_⟩
    rw [htwin.response_eq]
    exact hb.pushReply_replies t _

/-! ## What is never seen -/

/-- Two outcomes are seen alike: the same answer, and states that differ at most in what is never seen. -/
def OutcomesAlike {α : Type} (p q : State × α) : Prop := SeenAlike p.1 q.1 ∧ p.2 = q.2

section
variable {s t : State}

theorem decAlike_of_seenAlike (h : SeenAlike s t) : DecAlike s t := by
  obtain ⟨⟨hm, hk, ha⟩, -, hf, -⟩ := h
  exact ⟨hm, hk, ha, hf⟩

theorem encAlike_of_seenAlike (h : SeenAlike s t) : EncAlike s t := by
  obtain ⟨-, he, hf, hc, -, -, -, -, hn⟩ := h
  exact ⟨he, hf, hc, hn⟩

theorem seenAlike_setPending (h : SeenAlike s t) (es : List HostEvent) :
    SeenAlike (s.setPending es) (t.setPending es) := by
  obtain ⟨hd, he, hf, hc, hi, ho, -, hr, hn⟩ := h
  exact ⟨hd, he, hf, hc, hi, ho, rfl, hr, hn⟩

theorem seenAlike_present (h : SeenAlike s t) (us : List Byte) (o : OutBuf) :
    SeenAlike (s.present us o) (t.present us o) := by
  obtain ⟨hd, he, hf, hc, -, -, hp, hr, hn⟩ := h
  exact ⟨hd, he, hf, hc, rfl, rfl, hp, hr, hn⟩

theorem seenAlike_powerOnReset (h : SeenAlike s t) : SeenAlike s.powerOnReset t.powerOnReset := by
  obtain ⟨-, -, -, hc, hi, ho, hp, hr, hn⟩ := h
  exact ⟨⟨rfl, rfl, fun _ => rfl⟩, ⟨rfl, fun _ => rfl, fun _ => rfl⟩, .rfl, hc, hi, ho, hp, hr, hn⟩

theorem seenAlike_pushReply (h : SeenAlike s t) (r : Reply) : SeenAlike (s.pushReply r) (t.pushReply r) := by
  obtain ⟨hd, he, hf, hc, hi, ho, hp, hr, hn⟩ := h
  exact ⟨hd, he, hf, hc, hi, ho, hp, by simp only [State.pushReply_replies, hr], hn⟩

theorem seenAlike_bumpFree (h : SeenAlike s t) : SeenAlike s.bumpFree t.bumpFree := by
  obtain ⟨hd, he, hf, hc, hi, ho, hp, hr, hn⟩ := h
  exact ⟨hd, he, hf, hc, hi, ho, hp, hr, by simp only [State.bumpFree_freeCount, hn]⟩

theorem seenAlike_appendOut (h : SeenAlike s t) (us : List Byte) : SeenAlike (appendOut us s) (appendOut us t) := by
  obtain ⟨hd, he, hf, hc, hi, ho, hp, hr, hn⟩ := h
  exact ⟨hd, he, hf, hc, hi, by simp only [appendOut_output, ho], hp, hr, hn⟩

theorem seenAlike_setFault (h : SeenAlike s t) (f : FaultReg) : SeenAlike (s.setFault f) (t.setFault f) := by
  obtain ⟨hd, he, -, hc, hi, ho, hp, hr, hn⟩ := h
  exact ⟨hd, he, .rfl, hc, hi, ho, hp, hr, hn⟩

/-- A fault is taken in both states or, where both are faulted, in neither. -/
theorem raiseFault_outcomesAlike (h : SeenAlike s t) (k : FaultKind) (i : BitVec 16) :
    OutcomesAlike (raiseFault k i s) (raiseFault k i t) := by
  have ⟨_, _, hf, _⟩ := h
  by_cases hs : s.fault.kind = .none
  · rw [raiseFault_of_unfaulted hs, raiseFault_of_unfaulted (hf.mp hs)]
    exact ⟨seenAlike_setFault h _, rfl⟩
  · rw [raiseFault_of_faulted hs, raiseFault_of_faulted (mt hf.mpr hs)]
    exact ⟨h, rfl⟩

theorem CommandOf.outcomesAlike {e : Engine} {body : State → State × Response} (hb : CommandOf e body)
    (h : SeenAlike s t) : OutcomesAlike (body s) (body t) := by
  cases e with
  | dec => have htwin := hb.decTwin (decAlike_of_seenAlike h); exact ⟨htwin.keeps_seenAlike h, htwin.response_eq⟩
  | enc => have htwin := hb.encTwin (encAlike_of_seenAlike h); exact ⟨htwin.keeps_seenAlike h, htwin.response_eq⟩

theorem CommandBody.outcomesAlike {body : State → State × Response} (hb : CommandBody body) (h : SeenAlike s t) :
    OutcomesAlike (body s) (body t) := by
  cases hb with
  | engine hb => exact hb.outcomesAlike h
  | reserved r => exact raiseFault_outcomesAlike h _ _

/-- The error kind and the counter alone decide which held error a request repeats. -/
theorem heldError_alike (h : SeenAlike s t) (e : Engine) :
    (heldError e s = none ∧ heldError e t = none) ∨
    ∃ u v c, heldError e s = some (u, c) ∧ heldError e t = some (v, c) ∧ SeenAlike u v := by
  have ⟨⟨_, hk, _⟩, _, _, _, _, _, _, _, hn⟩ := h
  cases e with
  | enc => exact .inl ⟨rfl, rfl⟩
  | dec =>
    unfold heldError
    rw [← hk, ← hn]
    cases s.dec.errKind with
    | none => exact .inl ⟨rfl, rfl⟩
    | invalidSymbol | incompleteStream => exact .inr ⟨s, t, _, rfl, rfl, h⟩
    | reserved3 => exact .inr ⟨s.bumpFree, t.bumpFree, _, rfl, rfl, seenAlike_bumpFree h⟩

/-- The loop takes the same turn on each unit in both states: each of its tests reads what is seen. -/
theorem transcodeFrom_alike (h : SeenAlike s t) (e : Engine) (us : List Byte) (k : Nat) :
    OutcomesAlike (transcodeFrom e us k s) (transcodeFrom e us k t) := by
  induction us generalizing s t k with
  | nil =>
    have ⟨_, _, hf, _⟩ := h
    exact ⟨h, by simp only [transcodeFrom_nil, ne_eq, hf]⟩
  | cons u us ih =>
    have ⟨_, _, hf, hc, _, ho, _⟩ := h
    by_cases hs : s.fault.kind = .none
    · have ht := hf.mp hs
      rcases heldError_alike h e with ⟨hes, het⟩ | ⟨s', t', c, hes, het, h'⟩
      · by_cases hg : remaining s.output < reserve e s.config
        · have hg' : remaining t.output < reserve e t.config := by rw [← ho, ← hc]; exact hg
          rw [transcodeFrom_of_full hs hes hg, transcodeFrom_of_full ht het hg']
          exact ⟨h, rfl⟩
        · have hg' : ¬ remaining t.output < reserve e t.config := by rw [← ho, ← hc]; exact hg
          obtain ⟨hstep, hresp⟩ := (engineStep_commandOf e u).outcomesAlike h
          by_cases hok : (engineStep e u s).2.status = .ok
          · rw [transcodeFrom_of_ok hs hes hg hok, transcodeFrom_of_ok ht het hg' (hresp ▸ hok), ← hresp]
            exact ih (seenAlike_appendOut hstep _) _
          · rw [transcodeFrom_of_stop hs hes hg hok, transcodeFrom_of_stop ht het hg' (hresp ▸ hok), ← hresp]
            exact ⟨hstep, rfl⟩
      · rw [transcodeFrom_of_held hs hes, transcodeFrom_of_held ht het]
        exact ⟨h', rfl⟩
    · rw [transcodeFrom_of_faulted hs, transcodeFrom_of_faulted (mt hf.mpr hs)]
      exact ⟨h, rfl⟩

theorem flush_alike (h : SeenAlike s t) (e : Engine) : OutcomesAlike (flush e s) (flush e t) := by
  have ⟨_, _, hf, hc, _, ho, _⟩ := h
  obtain ⟨hstep, hresp⟩ := (engineEof_commandOf e).outcomesAlike h
  unfold flush
  rw [← hresp, ← ho, ← hc]
  by_cases hs : s.fault.kind = .none
  · rw [if_neg (not_not.mpr hs), if_neg (not_not.mpr (hf.mp hs))]
    rcases heldError_alike h e with ⟨hes, het⟩ | ⟨s', t', c, hes, het, h'⟩
    · rw [hes, het]
      dsimp only
      split
      · exact ⟨h, rfl⟩
      · split
        · exact ⟨seenAlike_appendOut hstep _, rfl⟩
        · exact ⟨hstep, rfl⟩
    · rw [hes, het]
      exact ⟨h', rfl⟩
  · rw [if_pos hs, if_pos (mt hf.mpr hs)]
    exact ⟨h, rfl⟩

theorem RequestBody.outcomesAlike {body : State → State × AdpResult} (hb : RequestBody body) (h : SeenAlike s t) :
    OutcomesAlike (body s) (body t) := by
  cases hb with
  | transcode e =>
    have ⟨_, _, _, _, hi, _⟩ := h
    unfold Machine.transcode
    rw [← hi]
    exact transcodeFrom_alike h e s.input 0
  | flush e => exact flush_alike h e
  | reserved r => exact ⟨(raiseFault_outcomesAlike h _ _).1, rfl⟩

theorem runWord_alike (h : SeenAlike s t) {p : PortWord} {u : State} (hu : runWord p s = .next u) :
    ∃ v, runWord p t = .next v ∧ SeenAlike u v := by
  have ⟨_, _, _, hc, _⟩ := h
  rcases runWord_body p with ⟨body, hb, hrun⟩ | ⟨body, hb, hrun⟩
  · obtain ⟨hw, rfl⟩ := answerCommand_next_iff.mp (hrun s ▸ hu)
    obtain ⟨hbody, hresp⟩ := hb.outcomesAlike h
    refine ⟨_, (hrun t).trans (answerCommand_of_wf (hc ▸ hw) body), ?_⟩
    rw [← hresp]
    exact seenAlike_pushReply hbody _
  · obtain ⟨hw, rfl⟩ := answerRequest_next_iff.mp (hrun s ▸ hu)
    obtain ⟨hbody, hresult⟩ := hb.outcomesAlike h
    have ⟨_, _, _, _, _, hout, _⟩ := hbody
    refine ⟨_, (hrun t).trans (answerRequest_of_wf (hc ▸ hw) body), ?_⟩
    rw [← hresult, ← hout]
    exact seenAlike_pushReply hbody _

theorem runEvent_alike (h : SeenAlike s t) {ev : HostEvent} {u : State} (hu : runEvent ev s = .next u) :
    ∃ v, runEvent ev t = .next v ∧ SeenAlike u v := by
  cases ev with
  | command w => exact runWord_alike h hu
  | request w us o => exact runWord_alike (seenAlike_present h us o) hu
  | powerOn =>
    cases hu
    exact ⟨_, rfl, seenAlike_powerOnReset h⟩

end

/-- Settles O59: the two states hold the same events, and each event gives outcomes that are seen alike. -/
theorem hiddenStateIsNeverSeen : Obligations.HiddenStateIsNeverSeen := by
  intro s t u h hu
  have ⟨_, _, _, _, _, _, hp, _⟩ := h
  cases hs : s.pending with
  | nil =>
    rw [step_idle hs] at hu
    cases hu
    exact ⟨t, step_idle (hp ▸ hs), h⟩
  | cons ev rest =>
    rw [step_event hs] at hu
    rw [step_event (hp ▸ hs)]
    exact runEvent_alike (seenAlike_setPending h rest) hu

end Sys2Proof.Machine
end

section
/-! # The lookup ROMs, the ports, and the order of commands (20_memory.md) -/

namespace Sys2Proof.Machine

open Sys2Proof.Claims

/-! ## The lookup ROMs -/

theorem alphabet_eq_getElem (i : Sextet) : alphabet i = alphabetRom[i.toNat]'i.isLt :=
  List.getD_eq_getElem _ _ i.isLt

theorem alphabet_mem_alphabetRom (i : Sextet) : alphabet i ∈ alphabetRom :=
  alphabet_eq_getElem i ▸ List.getElem_mem i.isLt

@[simp] theorem entryValid_append (i : Sextet) : entryValid (1#1 ++ i) = true := by
  rw [entryValid, BitVec.getLsbD_append]; rfl

@[simp] theorem entryValue_append (i : Sextet) : entryValue (1#1 ++ i) = i :=
  BitVec.extractLsb'_append_eq_right

theorem validEntry_ne_zero (i : Sextet) : 1#1 ++ i ≠ 0#7 := by
  intro h
  have hv := entryValid_append i
  rw [h] at hv
  exact absurd hv (by decide)

/-- Searching `ALPHABET` for a code finds the index of the symbol, or tells that the code is no symbol (20_memory.md R28). -/
theorem decodeRom_cases (c : Byte) :
    (∃ i : Sextet, alphabet i = c ∧ decodeRom c = 1#1 ++ i) ∨ ((∀ i, alphabet i ≠ c) ∧ decodeRom c = 0#7) := by
  cases hf : alphabetRom.findIdx? (fun a => a == c) with
  | some k =>
    obtain ⟨hk, hc, -⟩ := List.findIdx?_eq_some_iff_getElem.mp hf
    have hi : (BitVec.ofNat 6 k).toNat = k := by rw [BitVec.toNat_ofNat]; exact Nat.mod_eq_of_lt hk
    refine .inl ⟨BitVec.ofNat 6 k, ?_, by simp only [decodeRom, hf]⟩
    simpa only [alphabet_eq_getElem, hi, beq_iff_eq] using hc
  | none =>
    have hnone := List.findIdx?_eq_none_iff.mp hf
    refine .inr ⟨fun i hi => ?_, by simp only [decodeRom, hf]⟩
    simpa [hi] using hnone _ (alphabet_mem_alphabetRom i)

theorem decodeRom_eq_valid_iff (c : Byte) (i : Sextet) : decodeRom c = 1#1 ++ i ↔ alphabet i = c := by
  rcases decodeRom_cases c with ⟨k, hk, he⟩ | ⟨hno, he⟩
  · rw [he, ← hk]
    exact ⟨fun h => by rw [← entryValue_append k, h, entryValue_append],
      fun h => by rw [alphabet_injective h]⟩
  · rw [he]
    exact ⟨fun h => absurd h.symm (validEntry_ne_zero i), fun h => absurd h (hno i)⟩

theorem decodeRom_eq_zero_iff (c : Byte) : decodeRom c = 0#7 ↔ ∀ i, alphabet i ≠ c := by
  constructor
  · exact fun h i hi => validEntry_ne_zero i (((decodeRom_eq_valid_iff c i).mpr hi).symm.trans h)
  · intro hno
    rcases decodeRom_cases c with ⟨i, hi, -⟩ | ⟨-, he⟩
    · exact absurd hi (hno i)
    · exact he

/-- Settles O8: both sides are closed at each of the 64 indices. -/
theorem alphabetFollowsItsFormula : Obligations.AlphabetFollowsItsFormula := by
  unfold Obligations.AlphabetFollowsItsFormula
  decide +kernel

/-- Settles O9: the search of `ALPHABET` finds the one index of a symbol; the count and the six named entries are closed
data. -/
theorem decodeRomInvertsAlphabet : Obligations.DecodeRomInvertsAlphabet :=
  ⟨decodeRom_eq_valid_iff, fun c => (decodeRom_eq_zero_iff c).mpr, by decide +kernel, by decide⟩

/-! ## The symbol classes -/

theorem cls_eq_pad_iff (u : Byte) : cls u = .pad ↔ u = padCode := by
  constructor
  · unfold cls
    split_ifs <;> simp_all
  · rintro rfl
    exact cls_padCode

theorem cls_eq_ws_iff (u : Byte) : cls u = .ws ↔ u ∈ whitespaceCodes := by
  constructor
  · unfold cls
    split_ifs <;> simp_all
  · exact cls_of_whitespace

theorem cls_eq_valid_iff (u : Byte) (v : Sextet) : cls u = .valid v ↔ decodeRom u = 1#1 ++ v := by
  rw [decodeRom_eq_valid_iff]
  exact ⟨alphabet_of_cls, fun h => h ▸ cls_alphabet v⟩

theorem cls_eq_invalid_iff (u : Byte) :
    cls u = .invalid ↔ u ≠ padCode ∧ u ∉ whitespaceCodes ∧ decodeRom u = 0#7 := by
  rw [ne_eq, ← cls_eq_pad_iff, ← cls_eq_ws_iff, decodeRom_eq_zero_iff]
  simp only [ne_eq, ← decodeRom_eq_valid_iff, ← cls_eq_valid_iff]
  cases cls u <;> simp

/-- Settles O10, class by class. -/
theorem unitsFallInTheirClasses : Obligations.UnitsFallInTheirClasses :=
  fun u => ⟨cls_eq_pad_iff u, cls_eq_ws_iff u, cls_eq_valid_iff u, cls_eq_invalid_iff u⟩

/-! ## The output buffer and the replies -/

/-- Settles O51: every word runs one body, which keeps `OUT` within its capacity and gives one sound reply. -/
theorem everyStepKeepsPortsSound : Obligations.EveryStepKeepsPortsSound :=
  fun _ _ => step_keeps_portsSound

/-! ## Commands of the two engines in either order -/

/-- Only an illegal mode makes a decoder command write the fault register (41_decoder.md R58). -/
theorem DecTwin.writes_dec_only {s t : State} {p q : State × Response} (h : DecTwin s t p q)
    (hl : s.dec.mode.illegal = false) : ∃ d, p.1 = s.setDec d := by
  cases h with
  | quiet => exact ⟨s.dec, rfl⟩
  | fault f hm => simp [hl] at hm
  | error | move | reset => exact ⟨_, rfl⟩

/-- What an encoder command reads, a decoder command in a legal mode leaves alone. -/
theorem decCommand_frame {i : Instr} (hi : isDecCommand i = true) {s t : State} (hl : s.dec.mode.illegal = false)
    (h : exec i s = .next t) :
    t.enc = s.enc ∧ t.fault = s.fault ∧ t.config = s.config ∧ t.freeCount = s.freeCount := by
  obtain ⟨body, hb, hexec⟩ := exec_of_isDecCommand hi
  obtain ⟨-, rfl⟩ := answerCommand_next_iff.mp (hexec s ▸ h)
  obtain ⟨d, hd⟩ := (hb.decTwin (.refl s)).writes_dec_only hl
  rw [hd]
  exact ⟨rfl, rfl, rfl, rfl⟩

/-- What a decoder command reads, an encoder command leaves alone. -/
theorem encCommand_frame {j : Instr} (hj : isEncCommand j = true) {s t : State} (h : exec j s = .next t) :
    t.dec = s.dec ∧ t.fault = s.fault ∧ t.config = s.config := by
  obtain ⟨body, hb, hexec⟩ := exec_of_isEncCommand hj
  obtain ⟨-, rfl⟩ := answerCommand_next_iff.mp (hexec s ▸ h)
  obtain ⟨e, n, he⟩ := hb.enc_writes s
  rw [he]
  exact ⟨rfl, rfl, rfl⟩

/-- Settles O47: each command finds what it reads as it stood before the other, so it does there what it does first. -/
theorem engineCommandsCommute : Obligations.EngineCommandsCommute := by
  intro i j s hi hj hw hl
  obtain ⟨hdec, henc⟩ := enginesReadOnlyTheirOwnLiveState
  obtain ⟨a, ha⟩ := exec_of_wellFormed hw i
  obtain ⟨b, hb⟩ := exec_of_wellFormed hw j
  obtain ⟨ae, af, ac, an⟩ := decCommand_frame hi hl ha
  obtain ⟨bd, bf, bc⟩ := encCommand_frame hj hb
  obtain ⟨a', ba, ri, ha', hba, hsameDec, -, har, hbar⟩ :=
    hdec i s b hi hw (bc ▸ hw) (bd ▸ ⟨rfl, rfl, rfl, fun _ => rfl⟩) bf.symm
  obtain ⟨ab, b', rj, hab, hb', hsameEnc, hfault, habr, hbr⟩ :=
    henc j a s hj (ac ▸ hw) ac (ae ▸ ⟨rfl, rfl, fun _ => rfl⟩) af an
  obtain rfl : a = a' := Host.Outcome.next.inj (ha.symm.trans ha')
  obtain rfl : b = b' := Host.Outcome.next.inj (hb.symm.trans hb')
  obtain ⟨abd, -, -⟩ := encCommand_frame hj hab
  obtain ⟨bae, baf, -, -⟩ := decCommand_frame hi (bd ▸ hl) hba
  refine ⟨a, ab, b, ba, ri, rj, ha, hab, hb, hba, ⟨abd ▸ hsameDec, bae ▸ hsameEnc, hfault.trans baf.symm⟩, ?_, ?_⟩
  · rw [habr, har, List.append_assoc, List.singleton_append]
  · rw [hbar, hbr, List.append_assoc, List.singleton_append]

end Sys2Proof.Machine
end

section
/-! # Words, their meanings and the response record (30_encoding.md) -/

namespace Sys2Proof.Machine

open Sys2Proof.Claims

/-! ## The fields of a command word -/

@[simp] theorem selector_append (k : BitVec 4) (u : Byte) : BitVec.extractLsb' 8 4 (k ++ u : CommandWord) = k :=
  BitVec.extractLsb'_append_eq_left

@[simp] theorem data_append (k : BitVec 4) (u : Byte) : BitVec.extractLsb' 0 8 (k ++ u : CommandWord) = u :=
  BitVec.extractLsb'_append_eq_right

/-- Bits 11:8 of a command word, before its `DATA`, make it up (30_encoding.md R45). -/
theorem selector_append_data (w : CommandWord) : w.extractLsb' 8 4 ++ w.extractLsb' 0 8 = w :=
  BitVec.extractLsb'_append_extractLsb' (w := 4) (len := 8)

theorem selector_eq_iff (w : CommandWord) (k : BitVec 4) : w.extractLsb' 8 4 = k ↔ w = k ++ w.extractLsb' 0 8 := by
  constructor
  · rintro rfl
    exact (selector_append_data w).symm
  · intro h
    rw [h, selector_append]

theorem data_eq_byteOf (w : CommandWord) : w.extractLsb' 0 8 = byteOf (w.toNat % 256) := by
  apply BitVec.eq_of_toNat_eq
  simp [byteOf]

theorem and_selectorMask (w : CommandWord) : w &&& 0xF00#12 = w.extractLsb' 8 4 ++ 0x00#8 := by
  have hmask : 0xF00#12 = BitVec.allOnes 4 ++ 0x00#8 := rfl
  conv_lhs => rw [← selector_append_data w, hmask]
  rw [BitVec.and_append, BitVec.and_allOnes, BitVec.and_zero]

/-! ## Words and instructions -/

theorem encode_decStep (u : Byte) : encode (.decStep u) = .command (0x0#4 ++ u) := rfl

theorem encode_encStep (b : Byte) : encode (.encStep b) = .command (0x8#4 ++ b) := rfl

theorem decode_decStep (u : Byte) : decode (.command (0x0#4 ++ u)) = .instr (.decStep u) := by
  simp [decode, decodeCommand]

/-- The rows of one word that stand before `ENC.STEP` in R49 do not take its words: their bits 11:8 differ. -/
theorem decode_encStep (b : Byte) : decode (.command (0x8#4 ++ b)) = .instr (.encStep b) := by
  have hrows (k : CommandWord) (hk : k.extractLsb' 8 4 ≠ 0x8#4) : 0x8#4 ++ b ≠ k := by
    rintro rfl
    exact hk (selector_append _ _)
  simp [decode, decodeCommand, hrows]

theorem decode_encode (i : Instr) : decode (encode i) = .instr i := by
  cases i with
  | decStep u => rw [encode_decStep, decode_decStep]
  | encStep b => rw [encode_encStep, decode_encStep]
  | _ => decide

theorem eq_encode_of_decodeCommand {w : CommandWord} {i : Instr} (h : decodeCommand w = .instr i) :
    PortWord.command w = encode i := by
  unfold decodeCommand at h
  split_ifs at h with hdec heof hreset hcheck henc heof' hreset' <;> cases h
  · rw [encode_decStep, ← (selector_eq_iff w _).mp hdec]
  · rw [heof]; rfl
  · rw [hreset]; rfl
  · rw [hcheck]; rfl
  · rw [encode_encStep, ← (selector_eq_iff w _).mp henc]
  · rw [heof']; rfl
  · rw [hreset']; rfl

theorem eq_encode_of_decodeRequest {w : RequestWord} {i : Instr} (h : decodeRequest w = .instr i) :
    PortWord.request w = encode i := by
  unfold decodeRequest at h
  split_ifs at h with hw hw hw hw <;> cases h <;> rw [hw] <;> rfl

/-- Settles O1: the decoder reads every instruction back from its word, and each test of the decoder fixes the word that
passes it, but for the operand bits. -/
theorem decodeInvertsEncode : Obligations.DecodeInvertsEncode := by
  intro p i
  constructor
  · intro h
    cases p with
    | command w => exact eq_encode_of_decodeCommand h
    | request w => exact eq_encode_of_decodeRequest h
  · rintro rfl
    exact decode_encode i

/-! ## The opcode map -/

/-- A row's mask and match say that the word is the encoding of the row's command with `DATA` (30_encoding.md R47). -/
theorem matches_row_iff {row : CommandWord × CommandWord × (Byte → Instr)} (hrow : row ∈ commandRows)
    (w : CommandWord) :
    w &&& row.2.1 = row.1 ↔ PortWord.command w = encode (row.2.2 (w.extractLsb' 0 8)) := by
  have hstep (k : BitVec 4) :
      w &&& 0xF00#12 = k ++ 0x00#8 ↔ PortWord.command w = .command (k ++ w.extractLsb' 0 8) := by
    rw [and_selectorMask, BitVec.append_left_inj, selector_eq_iff, PortWord.command.injEq]
  have hfixed (k : CommandWord) : w &&& 0xFFF#12 = k ↔ PortWord.command w = .command k := by
    rw [show w &&& 0xFFF#12 = w from BitVec.and_allOnes, PortWord.command.injEq]
  simp only [commandRows, List.mem_cons, List.not_mem_nil, or_false] at hrow
  rcases hrow with rfl | rfl | rfl | rfl | rfl | rfl | rfl
  exacts [hstep 0x0#4, hfixed _, hfixed _, hfixed _, hstep 0x8#4, hfixed _, hfixed _]

theorem row_selects_iff {row : CommandWord × CommandWord × (Byte → Instr)} (hrow : row ∈ commandRows)
    (w : CommandWord) :
    w &&& row.2.1 = row.1 ↔ decode (.command w) = .instr (row.2.2 (byteOf (w.toNat % 256))) := by
  rw [matches_row_iff hrow, decodeInvertsEncode, data_eq_byteOf]

theorem commandRows_differ : commandRows.Pairwise fun a b => ∀ u v : Byte, a.2.2 u ≠ b.2.2 v := by
  simp [commandRows]

/-- Settles O2: a row's test is that the word is its command's; no word is the word of two commands. -/
theorem commandRowsSelectTheirCommands : Obligations.CommandRowsSelectTheirCommands := by
  refine ⟨fun row hrow w => row_selects_iff hrow w, commandRows_differ.imp_of_mem ?_⟩
  rintro a b ha hb hne w ⟨hwa, hwb⟩
  rw [row_selects_iff ha] at hwa
  rw [row_selects_iff hb, hwa, Decoded.instr.injEq] at hwb
  exact hne _ _ hwb

/-! ## Reserved words -/

/-- The tests of R49 as arithmetic on the word: it is reserved when it fails them all. -/
theorem decode_eq_reserved_iff (w : CommandWord) :
    decode (.command w) = .reserved (.command w) ↔
      ¬ w.toNat / 256 = 0 ∧ ¬ w.toNat = 0x100 ∧ ¬ w.toNat = 0x200 ∧ ¬ w.toNat = 0x400 ∧ ¬ w.toNat / 256 = 8 ∧
        ¬ w.toNat = 0x900 ∧ ¬ w.toNat = 0xA00 := by
  have hselector (k : BitVec 4) : w.extractLsb' 8 4 = k ↔ w.toNat / 256 = k.toNat := by
    have hw := w.isLt
    rw [← BitVec.toNat_inj, BitVec.extractLsb'_toNat, Nat.shiftRight_eq_div_pow]
    omega
  have hword (k : CommandWord) : w = k ↔ w.toNat = k.toNat := BitVec.toNat_inj.symm
  simp only [decode, decodeCommand, hselector]
  split_ifs <;> simp_all

theorem decode_reserved_iff_inReservedRange (w : CommandWord) :
    decode (.command w) = .reserved (.command w) ↔ inReservedRange w.toNat = true := by
  have hw := w.isLt
  simp only [decode_eq_reserved_iff, inReservedRange, Bool.or_eq_true, Bool.and_eq_true, decide_eq_true_eq]
  omega

theorem execReserved_command {s : State} (hs : Running s) (w : CommandWord) :
    execReserved (.command w) s = .next
      (answered { s with fault := { kind := .illegalCommand, info := BitVec.ofNat 16 w.toNat } } (endedBy .fault)) := by
  obtain ⟨hwf, hfault⟩ := hs
  rw [BitVec.ofNat_toNat, execReserved, answerCommand_of_wf hwf, raiseFault_of_unfaulted hfault]
  rfl

theorem illegalInfo_request (w : RequestWord) : illegalInfo (.request w) = BitVec.ofNat 16 (0x8000 + w.toNat) := by
  revert w
  decide

theorem execReserved_request {s : State} (hs : Running s) (w : RequestWord) :
    execReserved (.request w) s = .next
      (resulted { s with fault := { kind := .illegalCommand, info := BitVec.ofNat 16 (0x8000 + w.toNat) } }
        .aborted 0) := by
  obtain ⟨hwf, hfault⟩ := hs
  rw [← illegalInfo_request, execReserved, answerRequest_of_wf hwf, raiseFault_of_unfaulted hfault]
  rfl

/-- Settles O3: a word fails every test of the decoder exactly in the listed ranges. -/
theorem reservedCommandWordsFault : Obligations.ReservedCommandWordsFault := by
  refine ⟨decode_reserved_iff_inReservedRange, by decide +kernel, fun s w hs hw => .of_eq ?_⟩
  rw [runWord_reserved ((decode_reserved_iff_inReservedRange w).mpr hw), execReserved_command hs]

/-- Settles O4: the four request words are closed data; each other word runs as its fault. -/
theorem requestWordsAndReservedRequests : Obligations.RequestWordsAndReservedRequests := by
  have hreserved : ∀ w ∈ [0b010#3, 0b011#3, 0b110#3, 0b111#3], decode (.request w) = .reserved (.request w) := by
    decide
  refine ⟨by decide, by decide, by decide, by decide, fun s w hs hw => .of_eq ?_⟩
  rw [runWord_reserved (hreserved w hw), execReserved_request hs]

/-- Settles O5: each word is closed data. -/
theorem specWordsDecodeAsListed : Obligations.SpecWordsDecodeAsListed := by
  unfold Obligations.SpecWordsDecodeAsListed
  decide

/-! ## The step -/

/-- Settles O6: a step is the run of the oldest event, and the run of a word is the run of what it decodes to. -/
theorem stepRunsTheDecodedInstruction : Obligations.StepRunsTheDecodedInstruction :=
  ⟨fun _ _ _ _ hp hw => (step_event hp).trans (runWord_instr hw _),
    fun _ _ _ _ _ _ hp hw => (step_event hp).trans (runWord_instr hw _),
    fun _ _ _ hp hw => (step_event hp).trans (runWord_reserved hw _),
    fun _ _ _ _ _ hp hw => (step_event hp).trans (runWord_reserved hw _),
    fun _ _ hp => step_event hp,
    fun _ hp => .of_eq (step_idle hp)⟩

/-! ## The response record -/

theorem pack_status (r : Response) : r.pack.extractLsb' 0 3 = r.status.code :=
  BitVec.extractLsb'_append_eq_right

/-- The fields above `STATUS` make up the upper 44 bits of the record. -/
theorem pack_extract_above_status (r : Response) {i : Nat} (hi : 3 ≤ i) (len : Nat) :
    r.pack.extractLsb' i len =
      (r.out 4 ++ r.out 3 ++ r.out 2 ++ r.out 1 ++ r.out 0 ++ BitVec.ofNat 3 r.units.length
        ++ BitVec.ofBool r.complete).extractLsb' (i - 3) len :=
  BitVec.extractLsb'_append_eq_of_le hi

theorem pack_complete (r : Response) : r.pack.getLsbD 3 = r.complete := by
  have h : r.pack.extractLsb' 3 1 = BitVec.ofBool r.complete := by
    rw [pack_extract_above_status r le_rfl]
    exact BitVec.extractLsb'_append_eq_right
  simpa using congrArg (BitVec.getLsbD · 0) h

theorem pack_count (r : Response) : r.pack.extractLsb' 4 3 = BitVec.ofNat 3 r.units.length := by
  rw [pack_extract_above_status r (by decide), BitVec.extractLsb'_append_eq_of_le le_rfl]
  exact BitVec.extractLsb'_append_eq_right

/-- Each unit is reached by dropping the fields below it; `simp` finds them only while the widths stand as sums. -/
theorem pack_out (r : Response) {i : Nat} (hi : i < 5) : r.pack.extractLsb' (7 + 8 * i) 8 = r.out i := by
  rw [pack_extract_above_status r (by omega)]
  interval_cases i
  all_goals
    simp (disch := decide) only [BitVec.extractLsb'_append_eq_of_le, BitVec.extractLsb'_append_eq_of_add_le,
      -Nat.reduceAdd]
    exact BitVec.extractLsb'_eq_self

/-- Settles O57, field by field; a count of at most five fits its three bits. -/
theorem responseRecordFields : Obligations.ResponseRecordFields := by
  intro r hr
  refine ⟨?_, pack_complete r, ?_, fun i hi => pack_out r hi⟩
  · rw [pack_status]
    cases r.status <;> rfl
  · rw [pack_count, BitVec.toNat_ofNat, Nat.mod_eq_of_lt (by omega)]

end Sys2Proof.Machine
end

section
/-! # The decoder engine, command by command (41_decoder.md) -/

namespace Sys2Proof.Machine

open Sys2Proof.Claims

/-! ## What a command hands back -/

/-- The state and the response of a command's body, as the state that holds the response. -/
def replied (p : State × Response) : State := p.1.pushReply (.response p.2)

theorem answerCommand_eq_replied {s : State} (h : s.config.wf = true) (body : State → State × Response) :
    answerCommand body s = .next (replied (body s)) := answerCommand_of_wf h body

@[simp] theorem replied_emitting (s : State) (us : List Byte) :
    replied (s, .emitting us) = answered s (okWith us) := rfl

@[simp] theorem replied_ofStatus (s : State) (st : Status) :
    replied (s, .ofStatus st) = answered s (endedBy st) := rfl

@[simp] theorem replied_raiseInvalidSymbol (u : Byte) (s : State) :
    replied (raiseInvalidSymbol u s) = invalidSymbolAt u s := by
  rw [invalidSymbolAt, BitVec.ofNat_toNat]; rfl

@[simp] theorem replied_raiseIncompleteStream (s : State) :
    replied (raiseIncompleteStream s) = answered (truncated s) (endedBy .incompleteStream) := rfl

/-! ## The prologue -/

section
variable {s : State}

theorem prologueAnswer_of_faulted (hf : s.fault.kind ≠ .none) :
    prologueAnswer s = some (answered s (endedBy .fault)) := if_pos hf

theorem prologueAnswer_of_illegal (hf : s.fault.kind = .none) (hm : s.dec.mode.illegal = true) :
    prologueAnswer s = some (answered
      (s.setFault { kind := .fatalState, info := fatalInfo 0#1 s.dec.mode.code }) (endedBy .fault)) := by
  rw [prologueAnswer, if_neg (not_not.mpr hf)]
  cases hs : s.dec.mode with
  | illegal6 | illegal7 => rfl
  | _ => simp [hs, DecMode.illegal] at hm

theorem prologueAnswer_of_legal (hf : s.fault.kind = .none) (hm : s.dec.mode.illegal = false) :
    prologueAnswer s = if s.dec.errKind ≠ .none then some (answered s (endedBy .sticky)) else none := by
  rw [prologueAnswer, if_neg (not_not.mpr hf)]
  cases hs : s.dec.mode with
  | illegal6 | illegal7 => simp [hs, DecMode.illegal] at hm
  | _ => rfl

/-- Where the prologue of R58 answers, the machine's prologue gives that answer and drops the body; elsewhere the
decoder is ready. -/
theorem prologueAnswer_cases (body : State × Response) :
    prologueAnswer s = some (replied (decPrologue s body)) ∨ (prologueAnswer s = none ∧ DecReady s) := by
  rcases decPrologue_cases s body with ⟨hf, e⟩ | ⟨hf, hm, e⟩ | ⟨hf, hm, he, e⟩ | ⟨⟨hf, hm, he⟩, -⟩
  · exact .inl (by rw [e, prologueAnswer_of_faulted hf, replied_ofStatus])
  · exact .inl (by rw [e, prologueAnswer_of_illegal hf hm, replied_ofStatus])
  · exact .inl (by rw [e, prologueAnswer_of_legal hf hm, if_pos he, replied_ofStatus])
  · exact .inr ⟨by rw [prologueAnswer_of_legal hf hm, if_neg (not_not.mpr he)], hf, hm, he⟩

theorem decReady_of_prologueAnswer (h : prologueAnswer s = none) : DecReady s := by
  rcases prologueAnswer_cases (s, .emitting []) with e | ⟨-, hr⟩
  · cases h.symm.trans e
  · exact hr

theorem exec_of_runsPrologue {i : Instr} (hi : runsPrologue i = true) (hw : s.config.wf = true) :
    ∃ body, exec i s = .next (replied (decPrologue s body)) := by
  cases i with
  | decStep u => exact ⟨_, answerCommand_eq_replied hw (decStep u)⟩
  | decEof => exact ⟨_, answerCommand_eq_replied hw decEof⟩
  | decCheck => exact ⟨_, answerCommand_eq_replied hw decCheck⟩
  | _ => simp [runsPrologue] at hi

theorem exec_of_prologueAnswer {i : Instr} (hi : runsPrologue i = true) (hw : s.config.wf = true) {t : State}
    (h : prologueAnswer s = some t) : exec i s = .next t := by
  obtain ⟨body, hexec⟩ := exec_of_runsPrologue hi hw
  rcases prologueAnswer_cases body with e | ⟨e, -⟩
  · rw [hexec, Option.some.inj (e.symm.trans h)]
  · cases e.symm.trans h

end

/-- Settles O20: the three commands answer what the prologue answers, whose tests stand in the stated order. -/
theorem decoderPrologueOrder : Obligations.DecoderPrologueOrder := by
  intro i s hi hw
  have answers {t : State} (h : prologueAnswer s = some t) : Answers (exec i s) t :=
    .of_eq (exec_of_prologueAnswer hi hw h)
  refine ⟨fun hf => answers (prologueAnswer_of_faulted hf), fun hf hm => answers ?_, fun hf hm => answers ?_,
    fun hf h6 h7 he => answers ?_⟩
  · rw [prologueAnswer_of_illegal hf (by rw [hm]; rfl), hm]; rfl
  · rw [prologueAnswer_of_illegal hf (by rw [hm]; rfl), hm]; rfl
  · have hm : s.dec.mode.illegal = false := by cases hs : s.dec.mode <;> simp_all [DecMode.illegal]
    rw [prologueAnswer_of_legal hf hm, if_pos he]

/-! ## `DEC.EOF`, `DEC.CHECK` and `DEC.RESET` -/

section
variable {s : State}

theorem decEof_of_start (hr : DecReady s) (hm : s.dec.mode = .start) :
    decEof s = (s.setDec { s.dec with mode := .eof }, .emitting []) := by
  obtain ⟨hf, hl, he⟩ := hr
  rw [decEof, decPrologue_of_ready hf hl he, hm]

theorem decEof_of_eof (hr : DecReady s) (hm : s.dec.mode = .eof) : decEof s = (s, .emitting []) := by
  obtain ⟨hf, hl, he⟩ := hr
  rw [decEof, decPrologue_of_ready hf hl he, hm]

theorem decEof_in_group (hr : DecReady s) (hm : s.dec.mode ∈ [DecMode.second, .third, .fourth, .padding]) :
    decEof s = raiseIncompleteStream s := by
  obtain ⟨hf, hl, he⟩ := hr
  rw [decEof, decPrologue_of_ready hf hl he]
  simp only [List.mem_cons, List.not_mem_nil, or_false] at hm
  rcases hm with hm | hm | hm | hm <;> rw [hm]

theorem decCheck_of_complete (hr : DecReady s) (hm : s.dec.mode = .start ∨ s.dec.mode = .eof) :
    decCheck s = (s, .completed) := by
  rw [decCheck_of_ready hr, if_pos]
  rcases hm with hm | hm <;> rw [hm] <;> rfl

theorem decCheck_in_group (hr : DecReady s) (hm : s.dec.mode ∈ [DecMode.second, .third, .fourth, .padding]) :
    decCheck s = raiseIncompleteStream s := by
  rw [decCheck_of_ready hr, if_neg]
  simp only [List.mem_cons, List.not_mem_nil, or_false] at hm
  rcases hm with hm | hm | hm | hm <;> rw [hm] <;> decide

end

/-- Settles O17, by the prologue's answer and then by the mode. -/
theorem decEofFollowsItsRule : Obligations.DecEofFollowsItsRule := by
  intro s hw
  have answers {p : State × Response} (h : decEof s = p) : Answers (exec .decEof s) (replied p) :=
    .of_eq (h ▸ answerCommand_eq_replied hw decEof)
  exact ⟨fun t h => .of_eq (exec_of_prologueAnswer rfl hw h),
    fun h hm => answers (decEof_of_start (decReady_of_prologueAnswer h) hm),
    fun h hm => answers (decEof_of_eof (decReady_of_prologueAnswer h) hm),
    fun h hm => answers (decEof_in_group (decReady_of_prologueAnswer h) hm)⟩

/-- Settles O18, by the prologue's answer and then by the mode. -/
theorem decCheckFollowsItsRule : Obligations.DecCheckFollowsItsRule := by
  intro s hw
  have answers {p : State × Response} (h : decCheck s = p) : Answers (exec .decCheck s) (replied p) :=
    .of_eq (h ▸ answerCommand_eq_replied hw decCheck)
  exact ⟨fun t h => .of_eq (exec_of_prologueAnswer rfl hw h),
    fun h hm => answers (decCheck_of_complete (decReady_of_prologueAnswer h) hm),
    fun h hm => answers (decCheck_in_group (decReady_of_prologueAnswer h) hm)⟩

/-- Settles O19: the reset runs no prologue but the test for a fault. -/
theorem decResetFollowsItsRule : Obligations.DecResetFollowsItsRule := by
  intro s hw
  have hexec : exec .decReset s = .next (replied (decReset s)) := answerCommand_eq_replied hw decReset
  constructor
  · intro hf
    rw [decReset, unlessFaulted_of_faulted hf, replied_ofStatus] at hexec
    exact .of_eq hexec
  · intro hf
    rw [decReset, unlessFaulted_of_unfaulted hf, replied_emitting] at hexec
    exact ⟨_, hexec, rfl, .refl _⟩

/-! ## `DEC.STEP`, mode by mode -/

/-- What a `DEC.STEP` that the prologue lets through does in each mode (41_decoder.md R59). It lets none through in an
illegal mode. -/
def decModeStep (m : DecMode) (u : Byte) (s : State) : State × Response :=
  match m with
  | .start => decStart u s
  | .second => decSecond u s
  | .third => decThird u s
  | .fourth => decFourth u s
  | .padding => decPadding u s
  | .eof => (s, .emitting [])
  | .illegal6 | .illegal7 => raiseFault .fatalState (fatalInfo 0#1 m.code) s

section
variable {s : State} {m : DecMode}

theorem decReady_of_decLive (h : DecLive s) : DecReady s := ⟨h.1.2, h.2⟩

theorem decStep_eq_decModeStep (hr : DecReady s) (hm : s.dec.mode = m) (u : Byte) :
    decStep u s = decModeStep m u s := by
  obtain ⟨hf, hl, he⟩ := hr
  rw [decStep, decPrologue_of_ready hf hl he, hm]
  cases m <;> rfl

theorem exec_decStep (h : DecLive s) (hm : s.dec.mode = m) (u : Byte) :
    exec (.decStep u) s = .next (replied (decModeStep m u s)) := by
  have hw : s.config.wf = true := h.1.1
  rw [← decStep_eq_decModeStep (decReady_of_decLive h) hm]
  exact answerCommand_eq_replied hw (decStep u)

end

/-- The state after a command that put the decoder in mode `m` with accumulator `a` and emitted `us`. -/
def moved (s : State) (m : DecMode) (a : BitVec 18) (us : List Byte) : State :=
  answered { s with dec := { s.dec with mode := m, acc := a } } (okWith us)

section
variable {u : Byte} {v : Sextet}

theorem replied_decStart_valid (hc : cls u = .valid v) (s : State) :
    replied (decStart u s) = moved s .second (BitVec.ofNat 18 v.toNat) [] := by
  simp only [decStart, hc, BitVec.ofNat_toNat]; rfl

theorem replied_decSecond_valid (hc : cls u = .valid v) (s : State) :
    replied (decSecond u s) = moved s .third (BitVec.ofNat 18 (s.dec.acc.toNat * 64 + v.toNat)) [] := by
  simp only [decSecond, hc, ← accAppend_eq]; rfl

theorem replied_decThird_valid (hc : cls u = .valid v) (s : State) :
    replied (decThird u s) = moved s .fourth (BitVec.ofNat 18 (s.dec.acc.toNat * 64 + v.toNat)) [] := by
  simp only [decThird, hc, ← accAppend_eq]; rfl

theorem replied_decThird_pad (hc : cls u = .pad) (s : State) :
    replied (decThird u s) = moved s .padding s.dec.acc [] := by
  simp only [decThird, hc]; rfl

theorem replied_decPadding_pad (hc : cls u = .pad) (s : State) :
    replied (decPadding u s) = moved s .start s.dec.acc [byteOf (s.dec.acc.toNat / 16 % 256)] := by
  simp only [decPadding, hc, onePaddedByte_eq]; rfl

theorem replied_decFourth_valid (hc : cls u = .valid v) (s : State) :
    replied (decFourth u s) = moved s .start s.dec.acc (Claims.bytesOf (s.dec.acc.toNat * 64 + v.toNat)) := by
  simp only [decFourth, hc, groupBytes_eq, groupWord_toNat]; rfl

theorem replied_decFourth_pad (hc : cls u = .pad) (s : State) :
    replied (decFourth u s) =
      moved s .start s.dec.acc [byteOf (s.dec.acc.toNat / 1024), byteOf (s.dec.acc.toNat / 4 % 256)] := by
  simp only [decFourth, hc, twoPaddedBytes_eq]; rfl

end

/-- Settles O11: only a symbol moves the decoder, and whitespace is passed over. -/
theorem decStepInStart : Obligations.DecStepInStart := by
  intro s u hs hm
  refine .of_eq ((exec_decStep hs hm u).trans (congrArg _ ?_))
  unfold decModeStep
  cases hc : cls u with
  | valid v => exact replied_decStart_valid hc s
  | pad | ws | invalid => simp [decStart, hc]

/-- Settles O12: the appended bits of the accumulator are its product with 64 and the symbol's value. -/
theorem decStepInSecond : Obligations.DecStepInSecond := by
  intro s u hs hm
  refine .of_eq ((exec_decStep hs hm u).trans (congrArg _ ?_))
  unfold decModeStep
  cases hc : cls u with
  | valid v => exact replied_decSecond_valid hc s
  | pad | ws | invalid => simp [decSecond, hc]

/-- Settles O13: a symbol goes to `FOURTH`, the first `=` to `PADDING`. -/
theorem decStepInThird : Obligations.DecStepInThird := by
  intro s u hs hm
  refine .of_eq ((exec_decStep hs hm u).trans (congrArg _ ?_))
  unfold decModeStep
  cases hc : cls u with
  | pad => exact replied_decThird_pad hc s
  | valid v => exact replied_decThird_valid hc s
  | ws | invalid => simp [decThird, hc]

/-- Settles O14: only the second `=` moves the decoder. -/
theorem decStepInPadding : Obligations.DecStepInPadding := by
  intro s u hs hm
  refine .of_eq ((exec_decStep hs hm u).trans (congrArg _ ?_))
  unfold decModeStep
  cases hc : cls u with
  | pad => exact replied_decPadding_pad hc s
  | ws | valid | invalid => simp [decPadding, hc]

/-- Settles O15: the extracted bit fields are quotients and remainders of the group's value. -/
theorem decStepInFourth : Obligations.DecStepInFourth := by
  intro s u hs hm
  refine .of_eq ((exec_decStep hs hm u).trans (congrArg _ ?_))
  unfold decModeStep
  cases hc : cls u with
  | pad => exact replied_decFourth_pad hc s
  | valid v => exact replied_decFourth_valid hc s
  | ws | invalid => simp [decFourth, hc]

/-- Settles O16: the body of `EOF` returns the state as it is. -/
theorem decStepInEofIsNoOp : Obligations.DecStepInEofIsNoOp :=
  fun _ u hs hm => .of_eq (exec_decStep hs hm u)

/-! ## A group of symbols -/

section
variable {s t : State} {m : DecMode} {n : Nat}

@[simp] theorem emitted_moved (s : State) (m : DecMode) (a : BitVec 18) (us : List Byte) :
    emitted (moved s m a us) = emitted s ++ us :=
  emitted_pushReply_response (s.setDec { s.dec with mode := m, acc := a }) (okWith us)

@[simp] theorem lastStatus_moved (s : State) (m : DecMode) (a : BitVec 18) (us : List Byte) :
    lastStatus (moved s m a us) = some .ok := by
  simp [lastStatus, moved, answered, okWith]

theorem decFeed_of_moved {u : Byte} {a : BitVec 18} {ws : List Byte}
    (h : exec (.decStep u) s = .next (moved s m a ws)) (us : List Byte) :
    decFeed (u :: us) s = decFeed us (moved s m a ws) := by
  simp [decFeed, feed, h]

/-- `t` is a state the decoder reached from `s` without emitting: in mode `m`, with the value `n` in the accumulator. -/
def InGroup (s t : State) (m : DecMode) (n : Nat) : Prop :=
  DecLive t ∧ t.dec.mode = m ∧ t.dec.acc.toNat = n ∧ emitted t = emitted s

theorem inGroup_moved (ht : DecLive t) (he : emitted t = emitted s) {a : BitVec 18} (hm : m.illegal = false)
    (ha : a.toNat = n) : InGroup s (moved t m a []) m n := by
  obtain ⟨hrun, -, herr⟩ := ht
  exact ⟨⟨hrun, hm, herr⟩, rfl, ha, by rw [emitted_moved, he, List.append_nil]⟩

/-- In `START` a symbol opens a group, whatever the stale accumulator holds. -/
theorem decFeed_start (hs : DecLive s) (hm : s.dec.mode = .start) (v : Sextet) :
    ∃ t, InGroup s t .second v.toNat ∧ ∀ us, decFeed (alphabet v :: us) s = decFeed us t := by
  have hstep := exec_decStep hs hm (alphabet v)
  rw [decModeStep, replied_decStart_valid (cls_alphabet v)] at hstep
  exact ⟨_, inGroup_moved hs rfl rfl (Nat.mod_eq_of_lt (by omega)), decFeed_of_moved hstep⟩

theorem InGroup.decFeed_second (h : InGroup s t .second n) (hn : n < 2 ^ 6) (v : Sextet) :
    ∃ t', InGroup s t' .third (n * 64 + v.toNat) ∧ ∀ us, decFeed (alphabet v :: us) t = decFeed us t' := by
  obtain ⟨ht, hm, ha, he⟩ := h
  have hstep := exec_decStep ht hm (alphabet v)
  rw [decModeStep, replied_decSecond_valid (cls_alphabet v), ha] at hstep
  exact ⟨_, inGroup_moved ht he rfl (Nat.mod_eq_of_lt (by omega)), decFeed_of_moved hstep⟩

theorem InGroup.decFeed_third (h : InGroup s t .third n) (hn : n < 2 ^ 12) (v : Sextet) :
    ∃ t', InGroup s t' .fourth (n * 64 + v.toNat) ∧ ∀ us, decFeed (alphabet v :: us) t = decFeed us t' := by
  obtain ⟨ht, hm, ha, he⟩ := h
  have hstep := exec_decStep ht hm (alphabet v)
  rw [decModeStep, replied_decThird_valid (cls_alphabet v), ha] at hstep
  exact ⟨_, inGroup_moved ht he rfl (Nat.mod_eq_of_lt (by omega)), decFeed_of_moved hstep⟩

theorem InGroup.decFeed_third_pad (h : InGroup s t .third n) :
    ∃ t', InGroup s t' .padding n ∧ ∀ us, decFeed (padCode :: us) t = decFeed us t' := by
  obtain ⟨ht, hm, ha, he⟩ := h
  have hstep := exec_decStep ht hm padCode
  rw [decModeStep, replied_decThird_pad cls_padCode] at hstep
  exact ⟨_, inGroup_moved ht he rfl ha, decFeed_of_moved hstep⟩

/-- The unit that closes a group emits the bytes of the group and leaves `START` with no error. -/
theorem InGroup.closes (h : InGroup s t m n) {u : Byte} {a : BitVec 18} {ws : List Byte}
    (hu : replied (decModeStep m u t) = moved t .start a ws) :
    ∃ t', decFeed [u] t = .next t' ∧ t'.dec.mode = .start ∧ t'.dec.errKind = .none ∧
      emitted t' = emitted s ++ ws := by
  obtain ⟨ht, hm, -, he⟩ := h
  have ⟨_, _, herr⟩ := ht
  have hstep := exec_decStep ht hm u
  rw [hu] at hstep
  exact ⟨_, decFeed_of_moved hstep [], rfl, herr, by rw [emitted_moved, he]⟩

end

/-- Settles O21: three symbols lead to the accumulator of the group, and the fourth unit closes it; after two symbols
the first `=` waits in `PADDING` for the second. -/
theorem decoderGroupLaw : Obligations.DecoderGroupLaw := by
  intro s v0 v1 v2 v3 hs hm
  obtain ⟨t1, h1, f1⟩ := decFeed_start hs hm v0
  obtain ⟨t2, h2, f2⟩ := h1.decFeed_second (by omega) v1
  obtain ⟨t3, h3, f3⟩ := h2.decFeed_third (by omega) v2
  obtain ⟨tp, hp, fp⟩ := h2.decFeed_third_pad
  have ⟨_, hfourth, ha3, he3⟩ := h3
  have ⟨_, _, hap, _⟩ := hp
  simp only [f1, f2, f3]
  refine ⟨?_, ⟨t3, rfl, hfourth, he3⟩, ?_, ?_⟩
  · rw [← ha3]
    exact h3.closes (replied_decFourth_valid (cls_alphabet v3) t3)
  · rw [← ha3]
    exact h3.closes (replied_decFourth_pad cls_padCode t3)
  · have hbyte : (v0.toNat * 64 + v1.toNat) / 16 % 256 = (v0.toNat * 64 + v1.toNat) / 16 :=
      Nat.mod_eq_of_lt (by omega)
    rw [← hbyte, ← hap, show 0x3D#8 = padCode from rfl, fp]
    exact hp.closes (replied_decPadding_pad cls_padCode tp)

end Sys2Proof.Machine
end

section
/-! # One input in two requests (41_decoder.md R72, 42_encoder.md R85, 43_adapter.md R100) -/

namespace Sys2Proof.Machine

open Sys2Proof.Claims

/-! ## Two runs at different ports -/

/-- The states agree in all that a request reads besides its buffers: the registers but for stale accumulators, the
configuration, and the counter of the free values. -/
def SameRun (s t : State) : Prop := SameRegisters s t ∧ s.config = t.config ∧ s.freeCount = t.freeCount

theorem SameRun.refl (s : State) : SameRun s s := ⟨sameRegisters_of_eq rfl rfl rfl, rfl, rfl⟩

section
variable {s t u : State}

theorem sameRegisters_trans (h : SameRegisters s t) (g : SameRegisters t u) : SameRegisters s u := by
  obtain ⟨⟨hm, hk, hc, ha⟩, ⟨hem, hecol, hea⟩, hf⟩ := h
  obtain ⟨⟨gm, gk, gc, ga⟩, ⟨gem, gecol, gea⟩, gf⟩ := g
  exact ⟨⟨hm.trans gm, hk.trans gk, hc.trans gc, fun r => (ha r).trans (ga (hm ▸ r))⟩,
    ⟨hem.trans gem, hecol.trans gecol, fun r => (hea r).trans (gea (hem ▸ r))⟩, hf.trans gf⟩

theorem SameRun.trans (h : SameRun s t) (g : SameRun t u) : SameRun s u :=
  have ⟨hr, hc, hn⟩ := h
  have ⟨gr, gc, gn⟩ := g
  ⟨sameRegisters_trans hr gr, hc.trans gc, hn.trans gn⟩

/-- Two runs of an encoder command that end alike used the same number of free values. -/
theorem EncTwin.freeCount_eq {p q : State × Response} (h : EncTwin s t p q) (hn : s.freeCount = t.freeCount) :
    p.1.freeCount = q.1.freeCount := by
  cases h with
  | quiet => exact hn
  | write => rfl

theorem CommandOf.sameRun {e : Engine} {body : State → State × Response} (hb : CommandOf e body) (h : SameRun s t) :
    SameRun (body s).1 (body t).1 ∧ (body s).2 = (body t).2 := by
  obtain ⟨⟨hdec, henc, hf⟩, hc, hn⟩ := h
  cases e with
  | dec =>
    have ⟨hm, hk, _, ha⟩ := hdec
    have htwin := hb.decTwin (s := s) (t := t) ⟨hm, hk, ha, by rw [hf]⟩
    obtain ⟨hdec', hf'⟩ := htwin.keeps_sameDec hdec hf
    obtain ⟨d, f, hs⟩ := hb.dec_writes s
    obtain ⟨d', f', ht⟩ := hb.dec_writes t
    refine ⟨⟨⟨hdec', ?_, hf'⟩, ?_⟩, htwin.response_eq⟩ <;> rw [hs, ht]
    · exact henc
    · exact ⟨hc, hn⟩
  | enc =>
    have ⟨hm, hcol, ha⟩ := henc
    have htwin := hb.encTwin (s := s) (t := t) ⟨⟨hm, ha, fun _ => hcol⟩, by rw [hf], hc, hn⟩
    obtain ⟨henc', hf'⟩ := htwin.keeps_sameEnc henc hf
    have hn' := htwin.freeCount_eq hn
    obtain ⟨e, n, hs⟩ := hb.enc_writes s
    obtain ⟨e', n', ht⟩ := hb.enc_writes t
    refine ⟨⟨⟨?_, henc', hf'⟩, ?_, hn'⟩, htwin.response_eq⟩ <;> rw [hs, ht]
    · exact hdec
    · exact hc

theorem appendOut_sameRun (h : SameRun s t) (ws : List Byte) : SameRun (appendOut ws s) (appendOut ws t) := h

/-- The error kind and the counter alone decide which held error a request repeats. -/
theorem heldError_sameRun (h : SameRun s t) (e : Engine) :
    (heldError e s = none ∧ heldError e t = none) ∨
    ∃ u v c, heldError e s = some (u, c) ∧ heldError e t = some (v, c) ∧ SameRun u v := by
  have ⟨hregs, hc, hn⟩ := h
  have ⟨⟨_, hk, _⟩, _⟩ := hregs
  cases e with
  | enc => exact .inl ⟨rfl, rfl⟩
  | dec =>
    unfold heldError
    rw [← hk, ← hn]
    cases s.dec.errKind with
    | none => exact .inl ⟨rfl, rfl⟩
    | invalidSymbol | incompleteStream => exact .inr ⟨s, t, _, rfl, rfl, h⟩
    | reserved3 => exact .inr ⟨s.bumpFree, t.bumpFree, _, rfl, rfl, hregs, hc, congrArg (· + 1) hn⟩

end

/-! ## Room -/

theorem reserveOf_eq (e : Engine) (c : Config) : reserveOf e c = reserve e c := by
  cases e <;> rfl

section
variable {e : Engine} {c : Config} {us xs ys : List Byte} {o : OutBuf}

/-- A roomy buffer never closes the gate (43_adapter.md R91). -/
theorem gate_open_of_roomy (h : Roomy e c us o) : ¬ remaining o < reserve e c := by
  have : reserve e c ≤ reserve e c * (us.length + 1) := Nat.le_mul_of_pos_right _ (Nat.succ_pos _)
  rw [Roomy, reserveOf_eq] at h
  exact not_lt.mpr (this.trans h)

/-- The units that `xs` emitted, at most the reserve for each, leave the room for the units after it. -/
theorem roomy_rest (h : Roomy e c (xs ++ ys) o) {w : List Byte} (hw : w.length ≤ reserve e c * xs.length) :
    Roomy e c ys { o with data := o.data ++ w } := by
  simp only [Roomy, reserveOf_eq, roomOf, List.length_append, add_assoc, mul_add] at h ⊢
  omega

theorem roomy_left (h : Roomy e c (xs ++ ys) o) : Roomy e c xs o := by
  refine le_trans (Nat.mul_le_mul_left _ ?_) h
  rw [List.length_append]
  omega

end

/-! ## The loop in two runs -/

/-- Two loops that started in `s` and `t` end in the same registers with the same code, and appended the same units, `n`
at most, to the two buffers. -/
def SameOutcome (n : Nat) (s t : State) (p q : State × AdpResult) : Prop :=
  SameRun p.1 q.1 ∧ p.2.code = q.2.code ∧
    ∃ w, p.1.output.data = s.output.data ++ w ∧ q.1.output.data = t.output.data ++ w ∧ w.length ≤ n

section
variable {s t a b : State} {n : Nat}

theorem sameOutcome_of_output_eq (h : SameRun a b) (ha : a.output = s.output) (hb : b.output = t.output)
    {r q : AdpResult} (hc : r.code = q.code) : SameOutcome n s t (a, r) (b, q) :=
  ⟨h, hc, [], by simp [ha], by simp [hb], Nat.zero_le n⟩

/-- What an engine step emitted comes before what the rest of the loop appends. -/
theorem SameOutcome.after_append {p q : State × AdpResult} {ws : List Byte} {n0 : Nat}
    (h : SameOutcome n (appendOut ws a) (appendOut ws b) p q) (ha : a.output = s.output) (hb : b.output = t.output)
    (hw : ws.length ≤ n0) : SameOutcome (n + n0) s t p q := by
  obtain ⟨hrun, hcode, w, hp, hq, hlen⟩ := h
  refine ⟨hrun, hcode, ws ++ w, ?_, ?_, ?_⟩
  · rw [hp, appendOut_output, ha, List.append_assoc]
  · rw [hq, appendOut_output, hb, List.append_assoc]
  · rw [List.length_append]; omega

end

/-- A step within the reserve leaves room for the units after it. -/
theorem roomy_after_step {e : Engine} {s : State} {u : Byte} {us : List Byte}
    (h : Roomy e s.config (u :: us) s.output) {ws : List Byte} (hw : ws.length ≤ reserve e s.config) :
    Roomy e (appendOut ws (engineStep e u s).1).config us (appendOut ws (engineStep e u s).1).output := by
  obtain ⟨⟨hcfg, -⟩, hout⟩ := engineStep_frame e u s
  rw [appendOut_output, appendOut_config, hcfg, hout]
  exact roomy_rest (xs := [u]) h (by simpa using hw)

/-- With room enough, the buffers decide nothing: the loop takes the same turn on each unit in both states. -/
theorem transcodeFrom_sameOutcome (e : Engine) (us : List Byte) (k j : Nat) {s t : State} (h : SameRun s t)
    (hs : Roomy e s.config us s.output) (ht : Roomy e t.config us t.output) :
    SameOutcome (reserve e s.config * us.length) s t (transcodeFrom e us k s) (transcodeFrom e us j t) := by
  induction us generalizing s t k j with
  | nil =>
    have ⟨⟨_, _, hf⟩, _⟩ := h
    rw [transcodeFrom_nil, transcodeFrom_nil, hf]
    exact sameOutcome_of_output_eq h rfl rfl rfl
  | cons u us ih =>
    have ⟨⟨_, _, hf⟩, hc, _⟩ := h
    by_cases hfs : s.fault.kind = .none
    · have hft : t.fault.kind = .none := hf ▸ hfs
      rcases heldError_sameRun h e with ⟨hes, het⟩ | ⟨s', t', c, hes, het, h'⟩
      · have hgs := gate_open_of_roomy hs
        have hgt := gate_open_of_roomy ht
        obtain ⟨hstep, hresp⟩ := (engineStep_commandOf e u).sameRun h
        obtain ⟨⟨hcs, -⟩, hos⟩ := engineStep_frame e u s
        obtain ⟨-, hot⟩ := engineStep_frame e u t
        have hle := engineStep_units_le e u s
        by_cases hok : (engineStep e u s).2.status = .ok
        · rw [transcodeFrom_of_ok hfs hes hgs hok, transcodeFrom_of_ok hft het hgt (hresp ▸ hok), ← hresp]
          have hrest := ih (k + 1) (j + 1) (appendOut_sameRun hstep _) (roomy_after_step hs hle)
            (roomy_after_step ht (hc ▸ hle))
          rw [appendOut_config, hcs] at hrest
          exact hrest.after_append hos hot hle
        · rw [transcodeFrom_of_stop hfs hes hgs hok, transcodeFrom_of_stop hft het hgt (hresp ▸ hok), ← hresp]
          exact sameOutcome_of_output_eq hstep hos hot rfl
      · rw [transcodeFrom_of_held hfs hes, transcodeFrom_of_held hft het]
        obtain ⟨-, hos⟩ := heldError_frame hes
        obtain ⟨-, hot⟩ := heldError_frame het
        exact sameOutcome_of_output_eq h' hos hot rfl
    · rw [transcodeFrom_of_faulted hfs, transcodeFrom_of_faulted (hf ▸ hfs)]
      exact sameOutcome_of_output_eq h rfl rfl rfl

/-! ## The loop on an input in two parts -/

theorem stepCode_eq_consumedAll_iff (st : Status) : stepCode st = .consumedAll ↔ st = .ok := by
  cases st <;> simp [stepCode]

/-- The loop on `xs ++ ys` is the loop on `xs`, and where that consumed all of it, the loop on `ys` from there. -/
theorem transcodeFrom_append (e : Engine) (xs ys : List Byte) (k : Nat) (s : State) :
    transcodeFrom e (xs ++ ys) k s =
      if (transcodeFrom e xs k s).2.code = .consumedAll then
        transcodeFrom e ys (k + xs.length) (transcodeFrom e xs k s).1
      else transcodeFrom e xs k s := by
  induction xs generalizing k s with
  | nil =>
    by_cases hf : s.fault.kind = .none
    · simp [transcodeFrom_nil, hf]
    · simp [transcodeFrom_of_faulted hf]
  | cons u xs ih =>
    rw [List.cons_append]
    by_cases hf : s.fault.kind = .none
    · cases hh : heldError e s with
      | some tc =>
        obtain ⟨-, hc | hc⟩ := heldError_effect hh <;> simp [transcodeFrom_of_held hf hh, hc]
      | none =>
        by_cases hg : remaining s.output < reserve e s.config
        · simp [transcodeFrom_of_full hf hh hg]
        · by_cases hok : (engineStep e u s).2.status = .ok
          · rw [transcodeFrom_of_ok hf hh hg hok, transcodeFrom_of_ok hf hh hg hok, ih, List.length_cons,
              Nat.add_right_comm, Nat.add_assoc]
          · simp [transcodeFrom_of_stop hf hh hg hok, stepCode_eq_consumedAll_iff, hok]
    · simp [transcodeFrom_of_faulted hf]

/-! ## The stopped engine -/

/-- No request writes the engine's registers any more: the block is faulted, or the decoder holds an error. -/
def Stopped (e : Engine) (s : State) : Prop := s.fault.kind ≠ .none ∨ (e = .dec ∧ s.dec.errKind ≠ .none)

section
variable {e : Engine} {s t : State}

theorem stopped_congr (h : SameRegisters s t) : Stopped e s ↔ Stopped e t := by
  obtain ⟨⟨-, hk, -⟩, -, hf⟩ := h
  rw [Stopped, Stopped, hk, hf]

theorem heldError_ne_none_iff : heldError e s ≠ none ↔ e = .dec ∧ s.dec.errKind ≠ .none := by
  cases e with
  | dec => simp [heldError_dec_eq_none_iff]
  | enc => simp

theorem transcodeFrom_of_stopped (h : Stopped e s) (us : List Byte) (k : Nat) :
    ∃ n, (transcodeFrom e us k s).1 = s.withEnc s.enc n := by
  cases us with
  | nil => exact ⟨s.freeCount, rfl⟩
  | cons u us =>
    by_cases hf : s.fault.kind = .none
    · have hheld : heldError e s ≠ none := heldError_ne_none_iff.mpr (h.resolve_left (not_not.mpr hf))
      obtain ⟨⟨t, c⟩, hh⟩ := Option.ne_none_iff_exists'.mp hheld
      rw [transcodeFrom_of_held hf hh]
      obtain ⟨heffect, -⟩ := heldError_effect hh
      exact heffect
    · rw [transcodeFrom_of_faulted hf]
      exact ⟨s.freeCount, rfl⟩

/-- A step that does not answer `OK` leaves its engine stopped (60_exceptions.md R105, R107, R109). -/
theorem engineStep_stopped {u : Byte} (hok : (engineStep e u s).2.status ≠ .ok) : Stopped e (engineStep e u s).1 := by
  cases e with
  | dec =>
    change (decStep u s).2.status ≠ .ok at hok
    change Stopped .dec (decStep u s).1
    rcases decPrologue_cases s _ with ⟨hf, h⟩ | ⟨-, -, h⟩ | ⟨-, -, he, h⟩ | ⟨hr, -⟩
    · rw [decStep, h]; exact .inl hf
    · rw [decStep, h]; exact .inl (by simp)
    · rw [decStep, h]; exact .inr ⟨rfl, he⟩
    · rcases decStep_of_ready hr u with h | ⟨m, a, us, h, -⟩
      · rw [h]; exact .inr ⟨rfl, by simp⟩
      · rw [h] at hok; exact absurd rfl hok
  | enc =>
    change (encStep u s).2.status ≠ .ok at hok
    change Stopped .enc (encStep u s).1
    by_cases hf : s.fault.kind = .none
    · obtain ⟨e, n, us, h, -⟩ := encStep_of_unfaulted hf u
      rw [h] at hok; exact absurd rfl hok
    · rw [encStep, unlessFaulted_of_faulted hf]; exact .inl hf

/-- The loop ends with the input, at a stopped engine, or at a closed gate (43_adapter.md R92). -/
theorem transcodeFrom_end (e : Engine) (us : List Byte) (k : Nat) (s : State) :
    (transcodeFrom e us k s).2.code = .consumedAll ∨ Stopped e (transcodeFrom e us k s).1 ∨
      remaining (transcodeFrom e us k s).1.output < reserve e (transcodeFrom e us k s).1.config := by
  induction us generalizing k s with
  | nil =>
    by_cases hf : s.fault.kind = .none
    · exact .inl (by simp [transcodeFrom_nil, hf])
    · exact .inr (.inl (.inl hf))
  | cons u us ih =>
    by_cases hf : s.fault.kind = .none
    · cases hh : heldError e s with
      | some tc =>
        obtain ⟨⟨n, ht⟩, -⟩ := heldError_effect hh
        have hs : Stopped e s := .inr (heldError_ne_none_iff.mp (by simp [hh]))
        rw [transcodeFrom_of_held hf hh, ht]
        exact .inr (.inl hs)
      | none =>
        by_cases hg : remaining s.output < reserve e s.config
        · rw [transcodeFrom_of_full hf hh hg]; exact .inr (.inr hg)
        · by_cases hok : (engineStep e u s).2.status = .ok
          · rw [transcodeFrom_of_ok hf hh hg hok]; exact ih _ _
          · rw [transcodeFrom_of_stop hf hh hg hok]; exact .inr (.inl (engineStep_stopped hok))
    · rw [transcodeFrom_of_faulted hf]; exact .inr (.inl (.inl hf))

end

/-! ## Two requests for one -/

/-- The loop on `xs` and then, at other buffers with room, the loop on `ys`: together the loop on `xs ++ ys`. -/
theorem transcodeFrom_split {e : Engine} {s s1 : State} (h : SameRun s1 s) {xs ys : List Byte}
    (hroom : Roomy e s.config (xs ++ ys) s.output) (hroom1 : Roomy e s1.config xs s1.output) :
    ∃ w1, (transcodeFrom e xs 0 s1).1.output.data = s1.output.data ++ w1 ∧
      ∀ s2, SameRun s2 (transcodeFrom e xs 0 s1).1 → Roomy e s2.config ys s2.output →
        ∃ w2, SameRegisters (transcodeFrom e ys 0 s2).1 (transcodeFrom e (xs ++ ys) 0 s).1 ∧
          (transcodeFrom e ys 0 s2).1.output.data = s2.output.data ++ w2 ∧
          (transcodeFrom e (xs ++ ys) 0 s).1.output.data = s.output.data ++ (w1 ++ w2) := by
  obtain ⟨hrun, -, w1, hout1, hout, hlen⟩ := transcodeFrom_sameOutcome e xs 0 0 h hroom1 (roomy_left hroom)
  refine ⟨w1, hout1, fun s2 h2 hroom2 => ?_⟩
  have ⟨_, hc, _⟩ := h
  obtain ⟨⟨hcfg, -, hcap, -⟩, -⟩ := transcodeFrom_frame e xs 0 s
  have hrest : Roomy e (transcodeFrom e xs 0 s).1.config ys (transcodeFrom e xs 0 s).1.output := by
    have := roomy_rest hroom (hc ▸ hlen)
    simpa only [Roomy, roomOf, hcfg, hcap, hout] using this
  rw [transcodeFrom_append]
  split
  · obtain ⟨⟨hregs, -⟩, -, w2, hw2, hw, -⟩ :=
      transcodeFrom_sameOutcome e ys 0 (0 + xs.length) (h2.trans hrun) hroom2 hrest
    exact ⟨w2, hregs, hw2, by rw [hw, hout, List.append_assoc]⟩
  · rename_i hstop
    have hstopped : Stopped e (transcodeFrom e xs 0 s).1 :=
      ((transcodeFrom_end e xs 0 s).resolve_left hstop).resolve_right (gate_open_of_roomy hrest)
    obtain ⟨hregs, -⟩ := h2.trans hrun
    obtain ⟨n, hn⟩ := transcodeFrom_of_stopped ((stopped_congr hregs).mpr hstopped) ys 0
    rw [hn]
    exact ⟨[], hregs, by simp, by simpa using hout⟩

theorem exec_transcodeOf (e : Engine) {s : State} (hw : s.config.wf = true) (us : List Byte) (o : OutBuf) :
    ∃ r, exec (transcodeOf e) (given s us o) = .next ((transcodeFrom e us 0 (given s us o)).1.pushReply r) := by
  have hexec : exec (transcodeOf e) (given s us o) = answerRequest (transcode e) (given s us o) := by cases e <;> rfl
  exact ⟨_, hexec.trans (answerRequest_of_wf (s := given s us o) hw _)⟩

/-- Settles O40: with room enough the loop does not depend on the buffers, and a stop in the first part is a stop for
good. -/
theorem splittingTheInputChangesNothing : Obligations.SplittingTheInputChangesNothing := by
  intro e s xs ys o o1 o2 hw hroom hroom1 hroom2
  obtain ⟨r, ht⟩ := exec_transcodeOf e hw (xs ++ ys) o
  obtain ⟨r1, ha⟩ := exec_transcodeOf e hw xs o1
  obtain ⟨⟨hcfg, -⟩, -⟩ := transcodeFrom_frame e xs 0 (given s xs o1)
  have hw' : ((transcodeFrom e xs 0 (given s xs o1)).1.pushReply r1).config.wf = true := by
    rw [State.pushReply_config, hcfg]; exact hw
  obtain ⟨r2, hb⟩ := exec_transcodeOf e hw' ys o2
  obtain ⟨w1, hout1, hsplit⟩ :=
    transcodeFrom_split (s := given s (xs ++ ys) o) (s1 := given s xs o1) (.refl s) hroom hroom1
  obtain ⟨w2, hregs, hout2, hout⟩ :=
    hsplit (given ((transcodeFrom e xs 0 (given s xs o1)).1.pushReply r1) ys o2) (.refl _) (hcfg ▸ hroom2)
  exact ⟨_, _, _, w1, w2, ht, ha, hb, hregs, hout1, hout2, hout⟩

end Sys2Proof.Machine
end

section
/-! # The encoder engine, command by command (42_encoder.md) -/

namespace Sys2Proof.Machine

open Sys2Proof.Claims

/-! ## `ENC.STEP`, mode by mode -/

/-- The state after an encoder command that wrote `e`, left the counter of the free values at `n` and emitted `us`. -/
def encMoved (s : State) (e : EncRegs) (n : Nat) (us : List Byte) : State := answered (s.withEnc e n) (okWith us)

/-- The column and the counter after `k` was added to the column of `s`; where the sum does not fit, nothing is said. -/
def ColumnPlus (s : State) (k : Nat) (c : BitVec 17) (n : Nat) : Prop :=
  s.enc.col.toNat + k < 2 ^ 17 → c.toNat = s.enc.col.toNat + k ∧ n = s.freeCount

/-- What an `ENC.STEP` of an unfaulted block does in each mode (42_encoder.md R75). -/
def encModeStep (m : EncMode) (b : Byte) (s : State) : State × Response :=
  match m with
  | .start => encStart b s
  | .partial1 => encPartial1 b s
  | .partial2 => encPartial2 b s
  | .eof => (s, .emitting [])

/-- What an `ENC.EOF` of an unfaulted block does in each mode (42_encoder.md R80). -/
def encModeEof (m : EncMode) (s : State) : State × Response :=
  match m with
  | .start => (s.setEnc { s.enc with mode := .eof }, .emitting [])
  | .partial1 => encFlushGroup 2 s
  | .partial2 => encFlushGroup 1 s
  | .eof => (s, .emitting [])

section
variable {s : State} {m : EncMode}

theorem exec_encStep (h : Running s) (hm : s.enc.mode = m) (b : Byte) :
    exec (.encStep b) s = .next (replied (encModeStep m b s)) := by
  obtain ⟨hw, hf⟩ := h
  have hbody : encStep b s = encModeStep m b s := by
    rw [encStep, unlessFaulted_of_unfaulted hf, hm]
    cases m <;> rfl
  rw [← hbody]
  exact answerCommand_eq_replied hw (encStep b)

theorem exec_encEof (h : Running s) (hm : s.enc.mode = m) : exec .encEof s = .next (replied (encModeEof m s)) := by
  obtain ⟨hw, hf⟩ := h
  have hbody : encEof s = encModeEof m s := by
    rw [encEof, unlessFaulted_of_unfaulted hf, hm]
    cases m <;> rfl
  rw [← hbody]
  exact answerCommand_eq_replied hw encEof

theorem addColumn_columnPlus (k : Nat) (s : State) :
    ∃ c n, addColumn k s = s.withEnc { s.enc with col := c } n ∧ ColumnPlus s k c n := by
  obtain ⟨c, n, h, -, hfit⟩ := addColumn_twin (s := s) rfl rfl k
  exact ⟨c, n, h, hfit⟩

theorem replied_openGroup {x : BitVec 17} (hx : x.toNat + 1 < 2 ^ 17) (b : Byte) (us : List Byte) (s : State) :
    replied (openGroup x b us s) =
      encMoved s ⟨.partial1, pendingTwo b, BitVec.ofNat 17 (x.toNat + 1)⟩ s.freeCount us := by
  rw [openGroup, addColumn_of_fits hx]; rfl

theorem replied_encStart_full (h : s.config.lineWidth ≤ s.enc.col.toNat) (b : Byte) :
    replied (encStart b s) =
      encMoved s ⟨.partial1, pendingTwo b, 1#17⟩ s.freeCount (s.config.sep ++ [symbolOf (b.toNat / 4)]) := by
  have hw : mustWrap s = true := decide_eq_true h
  rw [encStart_eq_openGroup, hw, firstIndex_eq]
  exact replied_openGroup (x := 0#17) (by decide) b _ s

/-- A line that has room is at most 65535 units wide, so the column fits its register. -/
theorem replied_encStart_room (hw : s.config.wf = true) (h : s.enc.col.toNat < s.config.lineWidth) (b : Byte) :
    replied (encStart b s) =
      encMoved s ⟨.partial1, pendingTwo b, BitVec.ofNat 17 (s.enc.col.toNat + 1)⟩ s.freeCount
        [symbolOf (b.toNat / 4)] := by
  have hwrap : mustWrap s = false := decide_eq_false (Nat.not_le.mpr h)
  obtain ⟨⟨-, hmax⟩, -⟩ := (config_wf_iff _).mp hw
  rw [encStart_eq_openGroup, hwrap, firstIndex_eq]
  exact replied_openGroup (x := s.enc.col) (by omega) b _ s

theorem replied_encPartial1 (b : Byte) (s : State) :
    ∃ c n, replied (encPartial1 b s) =
        encMoved s ⟨.partial2, pendingFour b, c⟩ n [alphabet (secondIndex s.enc.acc b)] ∧ ColumnPlus s 1 c n := by
  obtain ⟨c, n, h, hc⟩ := addColumn_columnPlus 1 s
  exact ⟨c, n, by rw [encPartial1, h]; rfl, hc⟩

theorem replied_encPartial2 (b : Byte) (s : State) :
    ∃ c n, replied (encPartial2 b s) =
        encMoved s { s.enc with mode := .start, col := c } n
          [alphabet (thirdIndex s.enc.acc b), alphabet (fourthIndex b)] ∧ ColumnPlus s 2 c n := by
  obtain ⟨c, n, h, hc⟩ := addColumn_columnPlus 2 s
  exact ⟨c, n, by rw [encPartial2, h]; rfl, hc⟩

theorem replied_encFlushGroup (pads : Nat) (s : State) :
    ∃ c n, replied (encFlushGroup pads s) =
        encMoved s { s.enc with mode := .eof, col := c } n (alphabet s.enc.acc :: List.replicate pads padCode) ∧
      ColumnPlus s (1 + pads) c n := by
  obtain ⟨c, n, h, hc⟩ := addColumn_columnPlus (1 + pads) s
  exact ⟨c, n, by rw [encFlushGroup, h]; rfl, hc⟩

end

/-- Settles O22: the group opens at column 0 of a new line, or where the line stands. -/
theorem encStepInStart : Obligations.EncStepInStart := by
  intro s b hs hm
  have hw : s.config.wf = true := hs.1
  refine .of_eq ((exec_encStep hs hm b).trans (congrArg _ ?_))
  rw [← pendingTwo_eq]
  split
  · next hfull => exact replied_encStart_full hfull b
  · next hroom => exact replied_encStart_room hw (Nat.not_le.mp hroom) b

/-- Settles O23: the body adds 1 to the column, which takes the sum wherever it fits. -/
theorem encStepInPartial1 : Obligations.EncStepInPartial1 := by
  intro s b hs hm
  obtain ⟨c, n, h, hc⟩ := replied_encPartial1 b s
  rw [secondIndex_or, pendingFour_eq] at h
  exact ⟨c, n, .of_eq ((exec_encStep hs hm b).trans (congrArg _ h)), hc⟩

/-- Settles O24: the body adds 2 to the column and keeps the accumulator, which is stale from here on. -/
theorem encStepInPartial2 : Obligations.EncStepInPartial2 := by
  intro s b hs hm
  obtain ⟨c, n, h, hc⟩ := replied_encPartial2 b s
  rw [thirdIndex_or, fourthIndex_eq] at h
  exact ⟨c, n, .of_eq ((exec_encStep hs hm b).trans (congrArg _ h)), hc⟩

/-- Settles O25: the body of `EOF` returns the state as it is. -/
theorem encStepInEofIsNoOp : Obligations.EncStepInEofIsNoOp :=
  fun _ b hs hm => .of_eq (exec_encStep hs hm b)

/-! ## `ENC.EOF` and `ENC.RESET` -/

/-- Settles O26: with pending bits the flush adds one symbol and its padding to the column. -/
theorem encEofFollowsItsRule : Obligations.EncEofFollowsItsRule := by
  refine ⟨fun s hw hf => .of_eq ?_, fun s hs => ⟨fun hm => .of_eq (exec_encEof hs hm),
    fun hm => .of_eq (exec_encEof hs hm), fun hm => ?_, fun hm => ?_⟩⟩
  · have hexec : exec .encEof s = .next (replied (encEof s)) := answerCommand_eq_replied hw encEof
    rw [hexec, encEof, unlessFaulted_of_faulted hf, replied_ofStatus]
  · obtain ⟨c, n, h, hc⟩ := replied_encFlushGroup 2 s
    exact ⟨c, n, .of_eq ((exec_encEof hs hm).trans (congrArg _ h)), hc⟩
  · obtain ⟨c, n, h, hc⟩ := replied_encFlushGroup 1 s
    exact ⟨c, n, .of_eq ((exec_encEof hs hm).trans (congrArg _ h)), hc⟩

/-- Settles O27: the reset tests for a fault and then writes the reset values. -/
theorem encResetFollowsItsRule : Obligations.EncResetFollowsItsRule := by
  intro s hw
  have hexec : exec .encReset s = .next (replied (encReset s)) := answerCommand_eq_replied hw encReset
  constructor
  · intro hf
    rw [encReset, unlessFaulted_of_faulted hf, replied_ofStatus] at hexec
    exact .of_eq hexec
  · intro hf
    rw [encReset, unlessFaulted_of_unfaulted hf, replied_emitting] at hexec
    exact ⟨_, hexec, rfl, .refl _⟩

end Sys2Proof.Machine
end

section
/-! # The encoder's whole output (42_encoder.md R82 to R86) -/

namespace Sys2Proof.Machine

open Sys2Proof.Claims

/-! ## Lines of groups -/

/-- What stands before a group when `n` groups stand on the current line of at most `q` groups. -/
def groupLead (sep : List Byte) (q n : Nat) : List Byte := if n = q then sep else []

/-- How many groups stand before that group on its own line. -/
def groupPlace (q n : Nat) : Nat := if n = q then 0 else n

theorem groupPlace_lt {q n : Nat} (hq : 1 ≤ q) (hn : n ≤ q) : groupPlace q n < q := by
  unfold groupPlace; split <;> omega

theorem linesOf_cons (sep : List Byte) (q n : Nat) (g : List Byte) (gs : List (List Byte)) :
    linesOf sep q n (g :: gs) = groupLead sep q n ++ g ++ linesOf sep q (groupPlace q n + 1) gs := by
  by_cases h : n = q <;> simp [linesOf, groupLead, groupPlace, h]

theorem linesOf_singleton (sep : List Byte) (q n : Nat) (g : List Byte) :
    linesOf sep q n [g] = groupLead sep q n ++ g := by
  rw [linesOf_cons, linesOf, List.append_nil]

/-- The text ends as its last group does. -/
theorem linesOf_concat (sep : List Byte) (q n : Nat) (gs : List (List Byte)) (w x y z : Byte) :
    ∃ p, linesOf sep q n (gs ++ [[w, x, y, z]]) = p ++ [y, z] := by
  induction gs generalizing n with
  | nil => exact ⟨groupLead sep q n ++ [w, x], by simp [linesOf_singleton]⟩
  | cons g gs ih =>
    obtain ⟨p, hp⟩ := ih (groupPlace q n + 1)
    exact ⟨groupLead sep q n ++ g ++ p, by rw [List.cons_append, linesOf_cons, hp, List.append_assoc _ p]⟩

theorem mem_sep_of_mem_groupLead {sep : List Byte} {q n : Nat} {u : Byte} (h : u ∈ groupLead sep q n) : u ∈ sep := by
  unfold groupLead at h
  split at h
  · exact h
  · cases h

theorem mem_linesOf {sep : List Byte} {q : Nat} {gs : List (List Byte)} {n : Nat} {u : Byte}
    (h : u ∈ linesOf sep q n gs) : u ∈ sep ∨ ∃ g ∈ gs, u ∈ g := by
  induction gs generalizing n with
  | nil => cases h
  | cons g gs ih =>
    rw [linesOf_cons, List.mem_append, List.mem_append] at h
    rcases h with (h | h) | h
    · exact .inl (mem_sep_of_mem_groupLead h)
    · exact .inr ⟨g, List.mem_cons_self, h⟩
    · exact (ih h).imp_right fun ⟨g', hg', hu⟩ => ⟨g', List.mem_cons_of_mem _ hg', hu⟩

/-- The separator stands once for each full line before the last group. -/
theorem linesOf_length {sep : List Byte} {q : Nat} (hq : 1 ≤ q) {gs : List (List Byte)} (hg : ∀ g ∈ gs, g.length = 4)
    {n : Nat} (hn : n ≤ q) :
    (linesOf sep q n gs).length = 4 * gs.length + sep.length * ((n + gs.length - 1) / q) := by
  induction gs generalizing n with
  | nil =>
    have : (n - 1) / q = 0 := Nat.div_eq_of_lt (by omega)
    simp [linesOf, this]
  | cons g gs ih =>
    have hlen : g.length = 4 := hg g List.mem_cons_self
    have hrest := ih (fun g' h' => hg g' (List.mem_cons_of_mem _ h')) (groupPlace_lt hq hn)
    have hlead : (groupLead sep q n).length + sep.length * ((groupPlace q n + gs.length) / q) =
        sep.length * ((n + gs.length) / q) := by
      unfold groupLead groupPlace
      split
      · next h => subst h; rw [Nat.add_div_left _ hq, Nat.zero_add, Nat.mul_succ, Nat.add_comm]
      · simp
    have hsum : groupPlace q n + 1 + gs.length - 1 = groupPlace q n + gs.length := by omega
    rw [linesOf_cons, List.length_append, List.length_append, hlen, hrest, hsum, List.length_cons, ← Nat.add_assoc n,
      Nat.add_sub_cancel, ← hlead]
    omega

/-! ## The groups of an input -/

/-- The symbols of three bytes (42_encoder.md R82). -/
def groupOfThree (a b c : Byte) : List Byte :=
  [symbolOf (a.toNat / 4), symbolOf (a.toNat % 4 * 16 + b.toNat / 16), symbolOf (b.toNat % 16 * 4 + c.toNat / 64),
    symbolOf (c.toNat % 64)]

/-- The group of two bytes at the end of an input. -/
def groupOfTwo (a b : Byte) : List Byte :=
  [symbolOf (a.toNat / 4), symbolOf (a.toNat % 4 * 16 + b.toNat / 16), symbolOf (b.toNat % 16 * 4), padCode]

/-- The group of one byte at the end of an input. -/
def groupOfOne (a : Byte) : List Byte := [symbolOf (a.toNat / 4), symbolOf (a.toNat % 4 * 16), padCode, padCode]

theorem groupsOf_one (a : Byte) : groupsOf [a] = [groupOfOne a] := rfl

theorem groupsOf_two (a b : Byte) : groupsOf [a, b] = [groupOfTwo a b] := rfl

theorem groupsOf_three (a b c : Byte) (bs : List Byte) :
    groupsOf (a :: b :: c :: bs) = groupOfThree a b c :: groupsOf bs := rfl

theorem length_of_mem_groupsOf (bs : List Byte) : ∀ g ∈ groupsOf bs, g.length = 4 := by
  induction bs using groupsOf.induct with
  | case1 => exact List.forall_mem_nil _
  | case2 a => exact List.forall_mem_singleton.mpr rfl
  | case3 a b => exact List.forall_mem_singleton.mpr rfl
  | case4 a b c rest ih => exact List.forall_mem_cons.mpr ⟨rfl, ih⟩

theorem groupsOf_length (bs : List Byte) : (groupsOf bs).length = (bs.length + 2) / 3 := by
  induction bs using groupsOf.induct with
  | case1 => rfl
  | case2 a => simp [groupsOf_one]
  | case3 a b => simp [groupsOf_two]
  | case4 a b c rest ih => simp only [groupsOf_three, List.length_cons, ih]; omega

/-- A group of four symbols of the alphabet. -/
def DataGroup (g : List Byte) : Prop := ∃ v0 v1 v2 v3, g = [alphabet v0, alphabet v1, alphabet v2, alphabet v3]

theorem dataGroup_groupOfThree (a b c : Byte) : DataGroup (groupOfThree a b c) := ⟨_, _, _, _, rfl⟩

theorem DataGroup.padCode_notMem {g : List Byte} (h : DataGroup g) : padCode ∉ g := by
  obtain ⟨v0, v1, v2, v3, rfl⟩ := h
  simp [(alphabet_ne_padCode _).symm]

/-- A padded group stands at the end alone, and the input's length says which one (42_encoder.md R82). -/
theorem groupsOf_shape (bs : List Byte) :
    ∃ gs, (∀ g ∈ gs, DataGroup g) ∧
      ((bs.length % 3 = 0 ∧ groupsOf bs = gs) ∨
       (bs.length % 3 = 1 ∧ ∃ v w, groupsOf bs = gs ++ [[alphabet v, alphabet w, padCode, padCode]]) ∨
       (bs.length % 3 = 2 ∧ ∃ v w x, groupsOf bs = gs ++ [[alphabet v, alphabet w, alphabet x, padCode]])) := by
  induction bs using groupsOf.induct with
  | case1 => exact ⟨[], by simp, .inl ⟨rfl, rfl⟩⟩
  | case2 a => exact ⟨[], by simp, .inr (.inl ⟨rfl, _, _, rfl⟩)⟩
  | case3 a b => exact ⟨[], by simp, .inr (.inr ⟨rfl, _, _, _, rfl⟩)⟩
  | case4 a b c rest ih =>
    obtain ⟨gs, hgs, h⟩ := ih
    have hmod : (a :: b :: c :: rest).length % 3 = rest.length % 3 := Nat.add_mod_right _ 3
    rw [hmod, groupsOf_three]
    refine ⟨_ :: gs, List.forall_mem_cons.mpr ⟨dataGroup_groupOfThree a b c, hgs⟩, ?_⟩
    rcases h with ⟨hl, h⟩ | ⟨hl, v, w, h⟩ | ⟨hl, v, w, x, h⟩
    · exact .inl ⟨hl, by rw [h]⟩
    · exact .inr (.inl ⟨hl, v, w, by rw [h, List.cons_append]⟩)
    · exact .inr (.inr ⟨hl, v, w, x, by rw [h, List.cons_append]⟩)

/-! ## The end of the text -/

section
variable (sep : List Byte) (q : Nat) (bs : List Byte)

/-- The last two units of the text, by the input's length. -/
theorem text_end :
    (bs.length % 3 = 0 ∧ (linesOf sep q 0 (groupsOf bs) = [] ∨
      ∃ p v w, linesOf sep q 0 (groupsOf bs) = p ++ [alphabet v, alphabet w])) ∨
    (bs.length % 3 = 1 ∧ ∃ p, linesOf sep q 0 (groupsOf bs) = p ++ [padCode, padCode]) ∨
    (bs.length % 3 = 2 ∧ ∃ p v, linesOf sep q 0 (groupsOf bs) = p ++ [alphabet v, padCode]) := by
  obtain ⟨gs, hgs, ⟨hl, e⟩ | ⟨hl, v, w, e⟩ | ⟨hl, v, w, x, e⟩⟩ := groupsOf_shape bs <;> rw [e]
  · refine .inl ⟨hl, ?_⟩
    rcases List.eq_nil_or_concat' gs with rfl | ⟨gs', g, rfl⟩
    · exact .inl rfl
    · obtain ⟨v0, v1, v2, v3, rfl⟩ := hgs g (by simp)
      obtain ⟨p, hp⟩ := linesOf_concat sep q 0 gs' (alphabet v0) (alphabet v1) (alphabet v2) (alphabet v3)
      exact .inr ⟨p, v2, v3, hp⟩
  · exact .inr (.inl ⟨hl, linesOf_concat ..⟩)
  · obtain ⟨p, hp⟩ := linesOf_concat sep q 0 gs (alphabet v) (alphabet w) (alphabet x) padCode
    exact .inr (.inr ⟨hl, p, x, hp⟩)

theorem padCode_notMem_text (hsep : padCode ∉ sep) (h : bs.length % 3 = 0) :
    padCode ∉ linesOf sep q 0 (groupsOf bs) := by
  intro hmem
  obtain ⟨gs, hgs, ⟨-, e⟩ | ⟨hl, -⟩ | ⟨hl, -⟩⟩ := groupsOf_shape bs
  · rw [e] at hmem
    obtain ⟨g, hg, hu⟩ := (mem_linesOf hmem).resolve_left hsep
    exact (hgs g hg).padCode_notMem hu
  · omega
  · omega

theorem append_pair_inj {p p' : List Byte} {x y x' y' : Byte} :
    p ++ [x, y] = p' ++ [x', y'] ↔ p = p' ∧ x = x' ∧ y = y' := by
  constructor
  · intro h
    obtain ⟨h1, h2⟩ := List.append_inj' h rfl
    simpa [h1] using h2
  · rintro ⟨rfl, rfl, rfl⟩; rfl

theorem text_ends_in_two_pads_iff :
    bs.length % 3 = 1 ↔ ∃ p, linesOf sep q 0 (groupsOf bs) = p ++ [padCode, padCode] := by
  rcases text_end sep q bs with ⟨hl, e | ⟨p, v, w, e⟩⟩ | ⟨hl, p, e⟩ | ⟨hl, p, v, e⟩ <;>
    simp [hl, e, append_pair_inj, alphabet_ne_padCode]

theorem text_ends_in_one_pad_iff :
    bs.length % 3 = 2 ↔ ∃ p v, linesOf sep q 0 (groupsOf bs) = p ++ [alphabet v, padCode] := by
  rcases text_end sep q bs with ⟨hl, e | ⟨p, v, w, e⟩⟩ | ⟨hl, p, e⟩ | ⟨hl, p, v, e⟩ <;>
    simp [hl, e, append_pair_inj, alphabet_ne_padCode, (alphabet_ne_padCode _).symm]

theorem text_has_no_pad_iff (hsep : padCode ∉ sep) :
    bs.length % 3 = 0 ↔ padCode ∉ linesOf sep q 0 (groupsOf bs) := by
  refine ⟨padCode_notMem_text sep q bs hsep, fun h => ?_⟩
  rcases text_end sep q bs with ⟨hl, -⟩ | ⟨-, p, e⟩ | ⟨-, p, v, e⟩
  · exact hl
  · simp [e] at h
  · simp [e] at h

end

/-! ## A run of the encoder -/

/-- `t` is a state the encoder reached under `c` with every command answered `OK`: `out` was emitted, and the mode and the
column are `m` and `k`. -/
def EncRun (c : Config) (m : EncMode) (k : Nat) (out : List Byte) (t : State) : Prop :=
  (Running t ∧ t.config = c ∧ AllOk t) ∧ emitted t = out ∧ t.enc.mode = m ∧ t.enc.col.toNat = k

theorem allOk_fresh (c : Config) : AllOk (fresh c) := fun _ h => nomatch h

theorem encRun_fresh {c : Config} (hw : c.wf = true) : EncRun c .start 0 [] (fresh c) :=
  ⟨⟨⟨hw, rfl⟩, rfl, allOk_fresh c⟩, rfl, rfl, rfl⟩

theorem allOk_answered {s : State} (h : AllOk s) (us : List Byte) : AllOk (answered s (okWith us)) := by
  intro r hr
  rcases List.mem_append.mp hr with hr | hr
  · exact h r hr
  · exact ⟨us, List.mem_singleton.mp hr⟩

section
variable {c : Config} {m : EncMode} {k n : Nat} {out : List Byte} {s : State}

theorem EncRun.moved (h : EncRun c m k out s) (e : EncRegs) (n : Nat) (us : List Byte) :
    EncRun c e.mode e.col.toNat (out ++ us) (encMoved s e n us) := by
  obtain ⟨⟨hrun, hcfg, hok⟩, rfl, -⟩ := h
  exact ⟨⟨hrun, hcfg, allOk_answered hok us⟩, emitted_pushReply_response (s.withEnc e n) (okWith us), rfl, rfl⟩

theorem EncRun.encStep (h : EncRun c m k out s) {b : Byte} {e : EncRegs} {us : List Byte}
    (hb : replied (encModeStep m b s) = encMoved s e n us) :
    ∃ t, (∀ bs, encFeed (b :: bs) s = encFeed bs t) ∧ EncRun c e.mode e.col.toNat (out ++ us) t ∧ t.enc = e := by
  have ⟨⟨hrun, _⟩, _, hm, _⟩ := h
  have hexec := exec_encStep hrun hm b
  rw [hb] at hexec
  have hstatus : lastStatus (encMoved s e n us) = some .ok := by simp [lastStatus, encMoved, answered, okWith]
  exact ⟨_, fun bs => by simp [encFeed, feed, hexec, hstatus], h.moved e n us, rfl⟩

theorem groupsPerLine_bounds (hw : c.wf = true) : 1 ≤ groupsPerLine c ∧ 4 * groupsPerLine c < 2 ^ 17 - 4 := by
  obtain ⟨⟨h1, h2⟩, -⟩ := (config_wf_iff c).mp hw
  unfold groupsPerLine; omega

/-- A line is full exactly when it holds `ceil(LINE_WIDTH / 4)` groups (42_encoder.md R83). -/
theorem lineWidth_le_iff (hn : n ≤ groupsPerLine c) : c.lineWidth ≤ 4 * n ↔ n = groupsPerLine c := by
  unfold groupsPerLine at *; omega

/-- The first byte of a group, with `n` groups on the current line. -/
theorem EncRun.first_byte (h : EncRun c .start (4 * n) out s) (hn : n ≤ groupsPerLine c) (a : Byte) :
    ∃ t, (∀ bs, encFeed (a :: bs) s = encFeed bs t) ∧ t.enc.acc = pendingTwo a ∧
      EncRun c .partial1 (4 * groupPlace (groupsPerLine c) n + 1)
        (out ++ (groupLead c.sep (groupsPerLine c) n ++ [symbolOf (a.toNat / 4)])) t := by
  have ⟨⟨⟨hw, _⟩, hcfg, _⟩, _, _, hk⟩ := h
  subst hcfg
  by_cases hfull : n = groupsPerLine s.config
  · obtain ⟨t, hf, ht, he⟩ := h.encStep (replied_encStart_full (hk ▸ (lineWidth_le_iff hn).mpr hfull) a)
    refine ⟨t, hf, by rw [he], ?_⟩
    rw [groupPlace, groupLead, if_pos hfull, if_pos hfull]
    exact ht
  · have hroom := mt (lineWidth_le_iff hn).mp hfull
    obtain ⟨t, hf, ht, he⟩ := h.encStep (replied_encStart_room hw (by omega) a)
    refine ⟨t, hf, by rw [he], ?_⟩
    rw [groupPlace, groupLead, if_neg hfull, if_neg hfull, ← hk]
    have hcol : (BitVec.ofNat 17 (s.enc.col.toNat + 1)).toNat = s.enc.col.toNat + 1 := by
      obtain ⟨⟨-, hmax⟩, -⟩ := (config_wf_iff _).mp hw
      rw [BitVec.toNat_ofNat, Nat.mod_eq_of_lt (by omega)]
    rw [hcol] at ht
    exact ht

theorem EncRun.second_byte (h : EncRun c .partial1 k out s) (hk : k + 1 < 2 ^ 17) {a : Byte}
    (ha : s.enc.acc = pendingTwo a) (b : Byte) :
    ∃ t, (∀ bs, encFeed (b :: bs) s = encFeed bs t) ∧ t.enc.acc = pendingFour b ∧
      EncRun c .partial2 (k + 1) (out ++ [symbolOf (a.toNat % 4 * 16 + b.toNat / 16)]) t := by
  have ⟨_, _, _, hcolumn⟩ := h
  subst hcolumn
  obtain ⟨col, n, hb, hcol⟩ := replied_encPartial1 b s
  rw [ha, secondIndex_pendingTwo] at hb
  obtain ⟨t, hf, ht, he⟩ := h.encStep hb
  rw [(hcol hk).1] at ht
  exact ⟨t, hf, by rw [he], ht⟩

theorem EncRun.third_byte (h : EncRun c .partial2 k out s) (hk : k + 2 < 2 ^ 17) {b : Byte}
    (hb : s.enc.acc = pendingFour b) (d : Byte) :
    ∃ t, (∀ bs, encFeed (d :: bs) s = encFeed bs t) ∧
      EncRun c .start (k + 2) (out ++ [symbolOf (b.toNat % 16 * 4 + d.toNat / 64), symbolOf (d.toNat % 64)]) t := by
  have ⟨_, _, _, hcolumn⟩ := h
  subst hcolumn
  obtain ⟨col, n, hd, hcol⟩ := replied_encPartial2 d s
  rw [hb, thirdIndex_pendingFour, fourthIndex_eq] at hd
  obtain ⟨t, hf, ht, -⟩ := h.encStep hd
  rw [(hcol hk).1] at ht
  exact ⟨t, hf, ht⟩

/-- At `s` an `ENC.EOF` ends the run, with `out` emitted in all. -/
def EncEnds (c : Config) (out : List Byte) (s : State) : Prop :=
  ∃ t k, exec .encEof s = .next t ∧ EncRun c .eof k out t

theorem EncRun.encEof (h : EncRun c m k out s) {e : EncRegs} {us : List Byte}
    (hs : replied (encModeEof m s) = encMoved s e n us) (he : e.mode = .eof) : EncEnds c (out ++ us) s := by
  have ⟨⟨hrun, _⟩, _, hm, _⟩ := h
  exact ⟨_, _, (exec_encEof hrun hm).trans (congrArg _ hs), he ▸ h.moved e n us⟩

theorem EncRun.ends_between_groups (h : EncRun c .start k out s) : EncEnds c out s := by
  have hend := h.encEof (n := s.freeCount) (e := { s.enc with mode := .eof }) (us := []) rfl rfl
  rwa [List.append_nil] at hend

theorem EncRun.ends_in_group {pads : Nat} (h : EncRun c m k out s)
    (hm : encModeEof m s = encFlushGroup pads s) :
    EncEnds c (out ++ (alphabet s.enc.acc :: List.replicate pads padCode)) s := by
  obtain ⟨col, n, hs, -⟩ := replied_encFlushGroup pads s
  exact h.encEof (hm ▸ hs) rfl

theorem EncRun.group (h : EncRun c .start (4 * n) out s) (hw : c.wf = true) (hn : n ≤ groupsPerLine c)
    (x y z : Byte) :
    ∃ t, (∀ bs, encFeed (x :: y :: z :: bs) s = encFeed bs t) ∧
      EncRun c .start (4 * (groupPlace (groupsPerLine c) n + 1))
        (out ++ (groupLead c.sep (groupsPerLine c) n ++ groupOfThree x y z)) t := by
  obtain ⟨hq, hmax⟩ := groupsPerLine_bounds hw
  have hplace := groupPlace_lt hq hn
  obtain ⟨t1, f1, a1, h1⟩ := h.first_byte hn x
  obtain ⟨t2, f2, a2, h2⟩ := h1.second_byte (by omega) a1 y
  obtain ⟨t3, f3, h3⟩ := h2.third_byte (by omega) a2 z
  refine ⟨t3, fun bs => by rw [f1, f2, f3], ?_⟩
  simpa [groupOfThree, Nat.mul_add] using h3

/-- The encoder lays out the groups of its input, from any place on a line (42_encoder.md R82, R83). -/
theorem EncRun.encodes (hw : c.wf = true) (bs : List Byte) (h : EncRun c .start (4 * n) out s)
    (hn : n ≤ groupsPerLine c) :
    ∃ t, encFeed bs s = .next t ∧ EncEnds c (out ++ linesOf c.sep (groupsPerLine c) n (groupsOf bs)) t := by
  obtain ⟨hq, hmax⟩ := groupsPerLine_bounds hw
  have hplace := groupPlace_lt hq hn
  induction bs using groupsOf.induct generalizing n out s with
  | case1 => exact ⟨s, rfl, by simpa [groupsOf, linesOf] using h.ends_between_groups⟩
  | case2 a =>
    obtain ⟨t, hf, ha, ht⟩ := h.first_byte hn a
    refine ⟨t, hf [], ?_⟩
    have hend := ht.ends_in_group (pads := 2) rfl
    rw [ha, pendingTwo_eq] at hend
    rw [groupsOf_one, linesOf_singleton]
    simpa [groupOfOne, symbolOf] using hend
  | case3 a b =>
    obtain ⟨t1, f1, a1, h1⟩ := h.first_byte hn a
    obtain ⟨t2, f2, a2, h2⟩ := h1.second_byte (by omega) a1 b
    refine ⟨t2, (f1 _).trans (f2 []), ?_⟩
    have hend := h2.ends_in_group (pads := 1) rfl
    rw [a2, pendingFour_eq] at hend
    rw [groupsOf_two, linesOf_singleton]
    simpa [groupOfTwo, symbolOf] using hend
  | case4 a b d rest ih =>
    obtain ⟨t1, f1, h1⟩ := h.group hw hn a b d
    obtain ⟨t, hf, hend⟩ := ih h1 hplace (groupPlace_lt hq hplace)
    refine ⟨t, (f1 rest).trans hf, ?_⟩
    rwa [List.append_assoc, ← linesOf_cons] at hend

end

/-- Settles O28, by induction over the groups of the input, from any place on a line. -/
theorem encoderOutputIsTheWrappedText : Obligations.EncoderOutputIsTheWrappedText := by
  intro c bs hw
  obtain ⟨m, hm, t, k, ht, ⟨-, -, hok⟩, hout, hmode, -⟩ := (encRun_fresh hw).encodes (n := 0) hw bs (Nat.zero_le _)
  exact ⟨t, ⟨m, hm, ht⟩, hok, hmode, hout⟩

/-- Settles O29: every group has four units, and a separator stands after each full line but the last. -/
theorem encoderOutputLength : Obligations.EncoderOutputLength := by
  intro c bs hw
  obtain ⟨t, ht, -, -, hout⟩ := encoderOutputIsTheWrappedText c bs hw
  obtain ⟨hq, -⟩ := groupsPerLine_bounds hw
  refine ⟨t, ht, ?_⟩
  rw [hout, linesOf_length hq (length_of_mem_groupsOf bs) (Nat.zero_le _), groupsOf_length, Nat.zero_add]
  split
  · next h => simp [h]
  · rfl

/-- Settles O30, by the last two units of the text. -/
theorem encoderPaddingByLength : Obligations.EncoderPaddingByLength := by
  intro c bs hw
  obtain ⟨t, ht, -, -, hout⟩ := encoderOutputIsTheWrappedText c bs hw
  refine ⟨t, ht, ?_⟩
  rw [hout]
  exact ⟨text_ends_in_two_pads_iff _ _ _, text_ends_in_one_pad_iff _ _ _, text_has_no_pad_iff _ _ _⟩

end Sys2Proof.Machine
end

section
/-! # Decoding the encoder's output (42_encoder.md R87) -/

namespace Sys2Proof.Machine

open Sys2Proof.Claims

/-! ## A feed that ends live was answered `OK` throughout -/

theorem decStep_of_ok {s : State} {u : Byte} (hok : (decStep u s).2.status = .ok) :
    ∃ us, (decStep u s).2 = .emitting us := by
  rcases decPrologue_cases s _ with ⟨-, h⟩ | ⟨-, -, h⟩ | ⟨-, -, -, h⟩ | ⟨hr, -⟩
  · rw [decStep, h] at hok; cases hok
  · rw [decStep, h] at hok; cases hok
  · rw [decStep, h] at hok; cases hok
  · rcases decStep_of_ready hr u with h | ⟨m, a, us, h, -⟩
    · rw [h] at hok; cases hok
    · exact ⟨us, by rw [h]⟩

theorem allOk_replied_decStep {s : State} (hs : AllOk s) {u : Byte} (hok : (decStep u s).2.status = .ok) :
    AllOk (replied (decStep u s)) := by
  obtain ⟨us, h⟩ := decStep_of_ok hok
  obtain ⟨d, f, hw⟩ := decStep_writes u s
  have hsame : AllOk (decStep u s).1 := by rw [hw]; exact hs
  rw [replied, h]
  exact allOk_answered hsame us

theorem decFeed_allOk {us : List Byte} {s t : State} (hs : AllOk s) (h : decFeed us s = .next t) (ht : DecLive t) :
    AllOk t := by
  induction us generalizing s with
  | nil => cases h; exact hs
  | cons u us ih =>
    rw [decFeed, feed] at h
    split at h
    · next r hexec =>
      obtain ⟨-, rfl⟩ := answerCommand_next_iff.mp hexec
      by_cases hok : (decStep u s).2.status = .ok
      · rw [if_pos (by simp [lastStatus, hok])] at h
        exact ih (allOk_replied_decStep hs hok) h
      · rw [if_neg (by simp [lastStatus, hok])] at h
        obtain ⟨⟨-, hf⟩, -, he⟩ := ht
        cases h
        rcases engineStep_stopped (e := .dec) hok with hf' | ⟨-, he'⟩
        · exact absurd hf hf'
        · exact absurd he he'
    · cases h
    · cases h

/-! ## Between groups -/

/-- `t` is a live state between two groups, in which `out` has been emitted. -/
def BetweenGroups (out : List Byte) (t : State) : Prop := DecLive t ∧ t.dec.mode = .start ∧ emitted t = out

section
variable {s t : State} {out : List Byte} {m : DecMode} {n : Nat}

theorem BetweenGroups.skips_whitespace (h : BetweenGroups out s) {ws : List Byte} (hws : ∀ u ∈ ws, cls u = .ws) :
    ∃ t, (∀ us, decFeed (ws ++ us) s = decFeed us t) ∧ BetweenGroups out t := by
  induction ws generalizing s with
  | nil => exact ⟨s, fun _ => rfl, h⟩
  | cons u ws ih =>
    obtain ⟨hlive, hm, he⟩ := h
    obtain ⟨hu, hws⟩ := List.forall_mem_cons.mp hws
    have hstep : exec (.decStep u) s = .next (moved s s.dec.mode s.dec.acc []) := by
      rw [exec_decStep hlive hm u, decModeStep, decStart, hu]; rfl
    have hmoved : BetweenGroups out (moved s s.dec.mode s.dec.acc []) :=
      ⟨hlive, hm, by rw [emitted_moved, List.append_nil, he]⟩
    obtain ⟨t, hf, ht⟩ := ih hmoved hws
    exact ⟨t, fun us => (decFeed_of_moved hstep (ws ++ us)).trans (hf us), ht⟩

theorem InGroup.ends (h : InGroup s t m n) (hs : emitted s = out) {u : Byte} {a : BitVec 18} {ws : List Byte}
    (hu : replied (decModeStep m u t) = moved t .start a ws) :
    ∃ t', (∀ us, decFeed (u :: us) t = decFeed us t') ∧ BetweenGroups (out ++ ws) t' := by
  obtain ⟨hlive, hm, -, he⟩ := h
  have hstep := exec_decStep hlive hm u
  rw [hu] at hstep
  obtain ⟨hrun, -, herr⟩ := hlive
  exact ⟨_, decFeed_of_moved hstep, ⟨hrun, rfl, herr⟩, rfl, by rw [emitted_moved, he, hs]⟩

theorem byteOf_of_eq {n : Nat} {b : Byte} (h : n = b.toNat) : byteOf n = b := by
  rw [h, byteOf, BitVec.ofNat_toNat, BitVec.setWidth_eq]

/-- The first symbol of a group and a second one that carries the four bits `x` beside those of `a`. -/
theorem BetweenGroups.two_symbols (h : BetweenGroups out s) (a : Byte) {x : Nat} (hx : x < 16) :
    ∃ t, InGroup s t .third (a.toNat * 16 + x) ∧
      ∀ us, decFeed (symbolOf (a.toNat / 4) :: symbolOf (a.toNat % 4 * 16 + x) :: us) s = decFeed us t := by
  obtain ⟨hs, hm, -⟩ := h
  obtain ⟨t1, h1, f1⟩ := decFeed_start hs hm (BitVec.ofNat 6 (a.toNat / 4))
  obtain ⟨t2, h2, f2⟩ := h1.decFeed_second (by omega) (BitVec.ofNat 6 (a.toNat % 4 * 16 + x))
  have hval : (BitVec.ofNat 6 (a.toNat / 4)).toNat * 64 + (BitVec.ofNat 6 (a.toNat % 4 * 16 + x)).toNat =
      a.toNat * 16 + x := by
    simp only [BitVec.toNat_ofNat]; omega
  exact ⟨t2, hval ▸ h2, fun us => (f1 _).trans (f2 us)⟩

/-- The same with a third symbol, which carries the two bits `y` beside those of `b`. -/
theorem BetweenGroups.three_symbols (h : BetweenGroups out s) (a b : Byte) {y : Nat} (hy : y < 4) :
    ∃ t, InGroup s t .fourth (a.toNat * 1024 + b.toNat * 4 + y) ∧
      ∀ us, decFeed (symbolOf (a.toNat / 4) :: symbolOf (a.toNat % 4 * 16 + b.toNat / 16) ::
        symbolOf (b.toNat % 16 * 4 + y) :: us) s = decFeed us t := by
  obtain ⟨t2, h2, f2⟩ := h.two_symbols a (x := b.toNat / 16) (by omega)
  obtain ⟨t3, h3, f3⟩ := h2.decFeed_third (by omega) (BitVec.ofNat 6 (b.toNat % 16 * 4 + y))
  have hval : (a.toNat * 16 + b.toNat / 16) * 64 + (BitVec.ofNat 6 (b.toNat % 16 * 4 + y)).toNat =
      a.toNat * 1024 + b.toNat * 4 + y := by
    simp only [BitVec.toNat_ofNat]; omega
  exact ⟨t3, hval ▸ h3, fun us => (f2 _).trans (f3 us)⟩

theorem BetweenGroups.decodes_three (h : BetweenGroups out s) (a b c : Byte) :
    ∃ t, (∀ us, decFeed (groupOfThree a b c ++ us) s = decFeed us t) ∧ BetweenGroups (out ++ [a, b, c]) t := by
  have ⟨_, _, he⟩ := h
  obtain ⟨t3, h3, f3⟩ := h.three_symbols a b (y := c.toNat / 64) (by omega)
  obtain ⟨t, f, ht⟩ := h3.ends he (replied_decFourth_valid (cls_alphabet (BitVec.ofNat 6 (c.toNat % 64))) t3)
  have ⟨_, _, hacc, _⟩ := h3
  have hbytes : Claims.bytesOf (t3.dec.acc.toNat * 64 + (BitVec.ofNat 6 (c.toNat % 64)).toNat) = [a, b, c] := by
    rw [hacc, BitVec.toNat_ofNat, Claims.bytesOf, byteOf_of_eq (b := a) (by omega), byteOf_of_eq (b := b) (by omega),
      byteOf_of_eq (b := c) (by omega)]
  exact ⟨t, fun us => (f3 _).trans (f us), hbytes ▸ ht⟩

theorem BetweenGroups.decodes_two (h : BetweenGroups out s) (a b : Byte) :
    ∃ t, decFeed (groupOfTwo a b) s = .next t ∧ BetweenGroups (out ++ [a, b]) t := by
  have ⟨_, _, he⟩ := h
  obtain ⟨t3, h3, f3⟩ := h.three_symbols a b (y := 0) (by omega)
  obtain ⟨t, f, ht⟩ := h3.ends he (replied_decFourth_pad cls_padCode t3)
  have ⟨_, _, hacc, _⟩ := h3
  rw [hacc, byteOf_of_eq (b := a) (by omega), byteOf_of_eq (b := b) (by omega)] at ht
  exact ⟨t, (f3 _).trans (f []), ht⟩

theorem BetweenGroups.decodes_one (h : BetweenGroups out s) (a : Byte) :
    ∃ t, decFeed (groupOfOne a) s = .next t ∧ BetweenGroups (out ++ [a]) t := by
  have ⟨_, _, he⟩ := h
  obtain ⟨t2, h2, f2⟩ := h.two_symbols a (x := 0) (by omega)
  obtain ⟨tp, hp, fp⟩ := h2.decFeed_third_pad
  obtain ⟨t, f, ht⟩ := hp.ends he (replied_decPadding_pad cls_padCode tp)
  have ⟨_, _, hacc, _⟩ := hp
  rw [hacc, byteOf_of_eq (b := a) (by omega)] at ht
  exact ⟨t, (f2 _).trans ((fp _).trans (f [])), ht⟩

/-- The separators are skipped, since they stand between groups, and each group gives back its bytes. -/
theorem BetweenGroups.decodes (h : BetweenGroups out s) {sep : List Byte} (hsep : ∀ u ∈ sep, cls u = .ws) (q n : Nat)
    (bs : List Byte) :
    ∃ t, decFeed (linesOf sep q n (groupsOf bs)) s = .next t ∧ BetweenGroups (out ++ bs) t := by
  have skip (n : Nat) {out : List Byte} {s : State} (h : BetweenGroups out s) :=
    h.skips_whitespace fun u (hu : u ∈ groupLead sep q n) => hsep u (mem_sep_of_mem_groupLead hu)
  induction bs using groupsOf.induct generalizing n out s with
  | case1 => exact ⟨s, rfl, by rwa [List.append_nil]⟩
  | case2 a =>
    obtain ⟨t1, f1, h1⟩ := skip n h
    obtain ⟨t, f, ht⟩ := h1.decodes_one a
    exact ⟨t, by rw [groupsOf_one, linesOf_singleton, f1, f], ht⟩
  | case3 a b =>
    obtain ⟨t1, f1, h1⟩ := skip n h
    obtain ⟨t, f, ht⟩ := h1.decodes_two a b
    exact ⟨t, by rw [groupsOf_two, linesOf_singleton, f1, f], ht⟩
  | case4 a b c rest ih =>
    obtain ⟨t1, f1, h1⟩ := skip n h
    obtain ⟨t2, f2, h2⟩ := h1.decodes_three a b c
    obtain ⟨t, f, ht⟩ := ih h2 (groupPlace q n + 1)
    exact ⟨t, by rw [groupsOf_three, linesOf_cons, List.append_assoc, f1, f2, f], by simpa using ht⟩

theorem BetweenGroups.decEof (h : BetweenGroups out s) (hok : AllOk s) :
    ∃ t, exec .decEof s = .next t ∧ AllOk t ∧ emitted t = out ∧ t.dec.mode = .eof := by
  obtain ⟨hlive, hm, rfl⟩ := h
  have ⟨⟨hw, _⟩, _⟩ := hlive
  have hexec : exec .decEof s = .next (replied (decEof s)) := answerCommand_eq_replied hw decEof
  rw [decEof_of_start (decReady_of_decLive hlive) hm] at hexec
  refine ⟨_, hexec, allOk_answered (s := s.setDec _) hok [], ?_, rfl⟩
  exact (emitted_pushReply_response (s.setDec _) (okWith [])).trans (List.append_nil _)

end

theorem betweenGroups_fresh {c : Config} (hw : c.wf = true) : BetweenGroups [] (fresh c) :=
  ⟨⟨⟨hw, rfl⟩, rfl, rfl⟩, rfl, rfl⟩

/-- Settles O31: the decoder gives back the bytes of each group of the text, and passes over what stands between. -/
theorem decodingTheEncodingGivesItBack : Obligations.DecodingTheEncodingGivesItBack := by
  intro c bs hw hsep
  obtain ⟨t, ht, -, -, hout⟩ := encoderOutputIsTheWrappedText c bs hw
  obtain ⟨m, hm, hbetween⟩ := (betweenGroups_fresh hw).decodes hsep (groupsPerLine c) 0 bs
  have ⟨hlive, _⟩ := hbetween
  have hok : AllOk m := decFeed_allOk (allOk_fresh c) hm hlive
  obtain ⟨d, hd, hdok, hbytes, hmode⟩ := hbetween.decEof hok
  exact ⟨t, m, d, ht, hout ▸ hm, hd, hdok, hbytes, hmode⟩

end Sys2Proof.Machine
end

section
/-! # The reserve, and the requests line by line (43_adapter.md R90, R91, R93, R97) -/

namespace Sys2Proof.Machine

open Sys2Proof.Claims

/-! ## The reserve -/

theorem exec_stepOf (e : Engine) (u : Byte) (s : State) : exec (stepOf e u) s = answerCommand (engineStep e u) s := by
  cases e <;> rfl

theorem exec_eofOf (e : Engine) (s : State) : exec (eofOf e) s = answerCommand (engineEof e) s := by
  cases e <;> rfl

theorem lastUnits_answered (s : State) (r : Response) : lastUnits (answered s r) = some r.units := by
  simp [lastUnits, answered]

theorem lastStatus_replied (p : State × Response) : lastStatus (replied p) = some p.2.status := by
  simp [lastStatus, replied]

/-- No step and no end-of-input step emits more than the reserve. -/
theorem lastUnits_le_reserveOf {e : Engine} {s t : State} {i : Instr} {us : List Byte}
    (hi : i = eofOf e ∨ ∃ u, i = stepOf e u) (h : exec i s = .next t) (hu : lastUnits t = some us) :
    us.length ≤ reserveOf e s.config := by
  rw [reserveOf_eq]
  rcases hi with rfl | ⟨u, rfl⟩
  · rw [exec_eofOf] at h
    obtain ⟨-, rfl⟩ := answerCommand_next_iff.mp h
    cases (lastUnits_answered _ _).symm.trans hu
    exact engineEof_units_le e s
  · rw [exec_stepOf] at h
    obtain ⟨-, rfl⟩ := answerCommand_next_iff.mp h
    cases (lastUnits_answered _ _).symm.trans hu
    exact engineStep_units_le e u s

/-- A fresh block with its decoder in `FOURTH`. -/
def inFourth (c : Config) : State := { fresh c with dec := { State.reset.dec with mode := .fourth } }

/-- A fresh block with its encoder in mode `m` at column `k`. -/
def encodingAt (c : Config) (m : EncMode) (k : Nat) : State :=
  { fresh c with enc := { State.reset.enc with mode := m, col := BitVec.ofNat 17 k } }

section
variable {c : Config}

/-- The symbol that fills a group emits three bytes (41_decoder.md R64). -/
theorem decStep_emits_three (hw : c.wf = true) :
    ∃ t us, exec (stepOf .dec (alphabet 0#6)) (inFourth c) = .next t ∧ lastUnits t = some us ∧ us.length = 3 := by
  have hlive : DecLive (inFourth c) := ⟨⟨hw, rfl⟩, rfl, rfl⟩
  have hexec := exec_decStep hlive rfl (alphabet 0#6)
  rw [show (inFourth c).dec.mode = .fourth from rfl, decModeStep, replied_decFourth_valid (cls_alphabet 0#6)] at hexec
  exact ⟨_, _, hexec, lastUnits_answered _ _, rfl⟩

/-- A flush of one pending byte emits its symbol and two pads (42_encoder.md R80). -/
theorem encEof_emits_three (hw : c.wf = true) :
    ∃ t us, exec (eofOf .enc) (encodingAt c .partial1 0) = .next t ∧ lastUnits t = some us ∧ us.length = 3 := by
  obtain ⟨col, n, h, -⟩ := replied_encFlushGroup 2 (encodingAt c .partial1 0)
  have hexec := exec_encEof (s := encodingAt c .partial1 0) ⟨hw, rfl⟩ rfl
  exact ⟨_, _, hexec.trans (congrArg _ h), lastUnits_answered _ _, rfl⟩

/-- A group that opens a new line emits the separator and a symbol (42_encoder.md R76). -/
theorem encStep_emits_separator (hw : c.wf = true) :
    ∃ t us, exec (stepOf .enc 0#8) (encodingAt c .start c.lineWidth) = .next t ∧ lastUnits t = some us ∧
      us.length = c.sep.length + 1 := by
  obtain ⟨⟨-, hmax⟩, -⟩ := (config_wf_iff c).mp hw
  have hfull : c.lineWidth ≤ (BitVec.ofNat 17 c.lineWidth).toNat := by
    rw [BitVec.toNat_ofNat, Nat.mod_eq_of_lt (by omega)]
  have hexec := exec_encStep (s := encodingAt c .start c.lineWidth) ⟨hw, rfl⟩ rfl 0#8
  have h := replied_encStart_full (s := encodingAt c .start c.lineWidth) hfull 0#8
  exact ⟨_, _, hexec.trans (congrArg _ h), lastUnits_answered _ _, List.length_append⟩

end

/-- Settles O32: a filled group of the decoder, and of the encoder a flush or a new line, whichever emits more. -/
theorem reserveIsTheWorstCase : Obligations.ReserveIsTheWorstCase := by
  intro e c hw
  refine ⟨fun s t i us hc hi h hu => hc ▸ lastUnits_le_reserveOf hi h hu, ?_⟩
  cases e with
  | dec =>
    obtain ⟨t, us, hexec, hu, hlen⟩ := decStep_emits_three hw
    exact ⟨_, t, _, us, rfl, .inr ⟨_, rfl⟩, hexec, hu, hlen⟩
  | enc =>
    by_cases hsep : c.sep.length + 1 ≤ 3
    · obtain ⟨t, us, hexec, hu, hlen⟩ := encEof_emits_three hw
      exact ⟨_, t, _, us, rfl, .inl rfl, hexec, hu, hlen.trans (max_eq_left hsep).symm⟩
    · obtain ⟨t, us, hexec, hu, hlen⟩ := encStep_emits_separator hw
      exact ⟨_, t, _, us, rfl, .inr ⟨_, rfl⟩, hexec, hu, hlen.trans (max_eq_right (by omega)).symm⟩

/-! ## What a request hands back -/

section
variable {e : Engine} {s t : State} {c : AdpCode} {k : Nat}

theorem answerRequest_of_stoppedAt (hw : s.config.wf = true) {body : State → State × AdpResult}
    (h : body s = (t, stoppedAt c k)) : answerRequest body s = .next (resulted t c k) := by
  rw [answerRequest_of_wf hw, h]; rfl

theorem exec_transcodeOf_of_stoppedAt (hw : s.config.wf = true) (h : transcodeFrom e s.input 0 s = (t, stoppedAt c k)) :
    exec (transcodeOf e) s = .next (resulted t c k) := by
  cases e <;> exact answerRequest_of_stoppedAt hw h

theorem exec_flushOf_of_stoppedAt (hw : s.config.wf = true) (h : flush e s = (t, stoppedAt c k)) :
    exec (flushOf e) s = .next (resulted t c k) := by
  cases e <;> exact answerRequest_of_stoppedAt hw h

/-! ## FLUSH, one line of R93 at a time -/

theorem flush_of_faulted (hf : s.fault.kind ≠ .none) (e : Engine) : flush e s = (s, stoppedAt .aborted 0) := if_pos hf

theorem flush_of_held (hf : s.fault.kind = .none) (hh : heldError e s = some (t, c)) :
    flush e s = (t, stoppedAt c 0) := by
  simp [flush, hf, hh]

/-- The block takes a unit or the end-of-input sentinel of engine `e`: no fault, no recorded error, and the gate open
(43_adapter.md R102). -/
def TakesUnit (e : Engine) (s : State) : Prop :=
  s.fault.kind = .none ∧ heldError e s = none ∧ ¬ remaining s.output < reserve e s.config

theorem flush_of_full (hf : s.fault.kind = .none) (hh : heldError e s = none)
    (hg : remaining s.output < reserve e s.config) : flush e s = (s, stoppedAt .outOfSpace 0) := by
  simp [flush, hf, hh, hg]

theorem flush_of_emitting (h : TakesUnit e s) {us : List Byte} (he : engineEof e s = (t, .emitting us)) :
    flush e s = (appendOut us t, stoppedAt .consumedAll 0) := by
  obtain ⟨hf, hh, hg⟩ := h
  simp [flush, hf, hh, hg, he]

theorem flush_of_ofStatus (h : TakesUnit e s) {st : Status} (hst : st ≠ .ok)
    (he : engineEof e s = (t, .ofStatus st)) : flush e s = (t, stoppedAt (stepCode st) 0) := by
  obtain ⟨hf, hh, hg⟩ := h
  simp [flush, hf, hh, hg, he, hst]

@[simp] theorem appendOut_nil (s : State) : appendOut [] s = s := by
  simp [appendOut, State.setOutput]

/-! ## The recorded error and the closed gate -/

theorem heldError_of_invalidSymbol (h : s.dec.errKind = .invalidSymbol) : heldError .dec s = some (s, .malformed) := by
  simp [heldError, h]

theorem heldError_of_incompleteStream (h : s.dec.errKind = .incompleteStream) :
    heldError .dec s = some (s, .underflow) := by
  simp [heldError, h]

theorem heldError_eq_none_iff : heldError e s = none ↔ (e = .dec → s.dec.errKind = .none) := by
  cases e with
  | dec => simp [heldError_dec_eq_none_iff]
  | enc => simp

/-- A held error ends every request of the engine that has something to do (43_adapter.md R97). -/
theorem exec_of_held (hs : Running s) (hh : heldError e s = some (t, c)) {i : Instr}
    (hi : i = flushOf e ∨ (i = transcodeOf e ∧ s.input ≠ [])) : exec i s = .next (resulted t c 0) := by
  obtain ⟨hw, hf⟩ := hs
  rcases hi with rfl | ⟨rfl, hne⟩
  · exact exec_flushOf_of_stoppedAt hw (flush_of_held hf hh)
  · obtain ⟨u, us, hin⟩ := List.exists_cons_of_ne_nil hne
    exact exec_transcodeOf_of_stoppedAt hw (hin ▸ transcodeFrom_of_held hf hh u us 0)

end

/-- Settles O38: the held error is tested before the gate. -/
theorem heldErrorIsRepeated : Obligations.HeldErrorIsRepeated :=
  fun _ _ hs hi => ⟨fun h => .of_eq (exec_of_held (e := .dec) hs (heldError_of_invalidSymbol h) hi),
    fun h => .of_eq (exec_of_held (e := .dec) hs (heldError_of_incompleteStream h) hi)⟩

/-- Settles O36: the gate is tested before the unit is read; an empty `IN` ends before the gate. -/
theorem closedGateConsumesNothing : Obligations.ClosedGateConsumesNothing := by
  intro e s ⟨hw, hf⟩ herr hroom
  have hh := heldError_eq_none_iff.mpr herr
  have hg : remaining s.output < reserve e s.config := reserveOf_eq e s.config ▸ hroom
  refine ⟨fun hne => .of_eq ?_, fun hnil => .of_eq ?_, .of_eq ?_⟩
  · obtain ⟨u, us, hin⟩ := List.exists_cons_of_ne_nil hne
    exact exec_transcodeOf_of_stoppedAt hw (hin ▸ transcodeFrom_of_full hf hh hg u us 0)
  · refine exec_transcodeOf_of_stoppedAt hw ?_
    rw [hnil, transcodeFrom_nil, if_neg (not_not.mpr hf)]
  · exact exec_flushOf_of_stoppedAt hw (flush_of_full hf hh hg)

/-! ## FLUSH of either engine -/

section
variable {s : State}

theorem decEof_of_illegal (hf : s.fault.kind = .none) (hm : s.dec.mode.illegal = true) :
    decEof s = (s.setFault { kind := .fatalState, info := fatalInfo 0#1 s.dec.mode.code }, .ofStatus .fault) :=
  decPrologue_of_illegal hf hm _

theorem encEof_eq_encModeEof (hf : s.fault.kind = .none) {m : EncMode} (hm : s.enc.mode = m) :
    encEof s = encModeEof m s := by
  rw [encEof, unlessFaulted_of_unfaulted hf, hm]
  cases m <;> rfl

theorem encFlushGroup_columnPlus (pads : Nat) (s : State) :
    ∃ c n, encFlushGroup pads s = (s.withEnc { s.enc with mode := .eof, col := c } n,
        .emitting (alphabet s.enc.acc :: List.replicate pads padCode)) ∧ ColumnPlus s (1 + pads) c n := by
  obtain ⟨c, n, h, hc⟩ := addColumn_columnPlus (1 + pads) s
  exact ⟨c, n, by rw [encFlushGroup, h]; rfl, hc⟩

/-- Where the gate is open and no error recorded, the decoder's flush is its end-of-input step, which emits nothing. -/
theorem decFlush_of_room (hs : Running s) (he : s.dec.errKind = .none) (hroom : 3 ≤ roomOf s.output) :
    (∀ t, decEof s = (t, .emitting []) → exec .adpDecFlush s = .next (resulted t .consumedAll 0)) ∧
    ∀ t st, st ≠ .ok → decEof s = (t, .ofStatus st) → exec .adpDecFlush s = .next (resulted t (stepCode st) 0) := by
  obtain ⟨hw, hf⟩ := hs
  have htakes : TakesUnit .dec s := ⟨hf, heldError_dec_eq_none_iff.mpr he, Nat.not_lt.mpr hroom⟩
  refine ⟨fun t h => exec_flushOf_of_stoppedAt (e := .dec) hw ?_,
    fun t st hst h => exec_flushOf_of_stoppedAt (e := .dec) hw (flush_of_ofStatus htakes hst h)⟩
  rw [flush_of_emitting htakes h, appendOut_nil]

theorem decFlush_of_illegal (hs : Running s) (he : s.dec.errKind = .none) (hroom : 3 ≤ roomOf s.output)
    (hm : s.dec.mode.illegal = true) :
    exec .adpDecFlush s =
      .next (resulted (s.setFault { kind := .fatalState, info := fatalInfo 0#1 s.dec.mode.code }) .aborted 0) := by
  have ⟨_, hf⟩ := hs
  obtain ⟨-, hstop⟩ := decFlush_of_room hs he hroom
  exact hstop _ _ (by decide) (decEof_of_illegal hf hm)

theorem encFlush_of_room (hs : Running s) (hroom : reserveOf .enc s.config ≤ roomOf s.output) {m : EncMode}
    (hm : s.enc.mode = m) {t : State} {us : List Byte} (h : encModeEof m s = (t, .emitting us)) :
    exec .adpEncFlush s = .next (resulted (appendOut us t) .consumedAll 0) := by
  obtain ⟨hw, hf⟩ := hs
  rw [reserveOf_eq] at hroom
  exact exec_flushOf_of_stoppedAt (e := .enc) hw
    (flush_of_emitting ⟨hf, rfl, Nat.not_lt.mpr hroom⟩ ((encEof_eq_encModeEof hf hm).trans h))

theorem flush_of_closed_gate {e : Engine} (hs : Running s) (herr : e = .dec → s.dec.errKind = .none)
    (hroom : roomOf s.output < reserveOf e s.config) : Answers (exec (flushOf e) s) (resulted s .outOfSpace 0) := by
  obtain ⟨-, -, hflush⟩ := closedGateConsumesNothing e s hs herr hroom
  exact hflush

theorem legal_of_mem_group {m : DecMode} (hm : m ∈ [DecMode.second, .third, .fourth, .padding]) :
    m.illegal = false := by
  revert hm; cases m <;> decide

end

/-- Settles O37: the tests in the order of R93, then the end-of-input step by the engine's mode. -/
theorem flushFollowsItsRule : Obligations.FlushFollowsItsRule := by
  refine ⟨fun e s hw hf => .of_eq (exec_flushOf_of_stoppedAt hw (flush_of_faulted hf e)),
    fun s hs => heldErrorIsRepeated s _ hs (.inl rfl), fun s hs he => ?_, fun s hs => ?_⟩
  · have ⟨_, hf⟩ := hs
    refine ⟨fun hroom => flush_of_closed_gate (e := .dec) hs (fun _ => he) hroom, fun hroom hm => .of_eq ?_,
      fun hroom hm => .of_eq ?_, fun hroom hm => .of_eq ?_, fun hroom hm => .of_eq ?_, fun hroom hm => .of_eq ?_⟩
    · obtain ⟨hok, -⟩ := decFlush_of_room hs he hroom
      exact hok _ (decEof_of_start ⟨hf, by rw [hm]; rfl, he⟩ hm)
    · obtain ⟨hok, -⟩ := decFlush_of_room hs he hroom
      exact hok _ (decEof_of_eof ⟨hf, by rw [hm]; rfl, he⟩ hm)
    · obtain ⟨-, hstop⟩ := decFlush_of_room hs he hroom
      exact hstop _ .incompleteStream (by decide) (decEof_in_group ⟨hf, legal_of_mem_group hm, he⟩ hm)
    · rw [decFlush_of_illegal hs he hroom (by rw [hm]; rfl), hm]; rfl
    · rw [decFlush_of_illegal hs he hroom (by rw [hm]; rfl), hm]; rfl
  · refine ⟨flush_of_closed_gate (e := .enc) hs (by simp), fun hroom hm => .of_eq ?_, fun hroom hm => .of_eq ?_,
      fun hroom hm => ?_, fun hroom hm => ?_⟩
    · rw [encFlush_of_room hs hroom hm rfl, appendOut_nil]; rfl
    · rw [encFlush_of_room hs hroom hm rfl, appendOut_nil]
    · obtain ⟨c, n, h, hc⟩ := encFlushGroup_columnPlus 2 s
      exact ⟨c, n, .of_eq (encFlush_of_room hs hroom hm h), hc⟩
    · obtain ⟨c, n, h, hc⟩ := encFlushGroup_columnPlus 1 s
      exact ⟨c, n, .of_eq (encFlush_of_room hs hroom hm h), hc⟩

end Sys2Proof.Machine
end

section
/-! # TRANSCODE against the engine's commands (43_adapter.md R92) -/

namespace Sys2Proof.Machine

open Sys2Proof.Claims

/-! ## What the loop consumes, and why it stops -/

/-- The state after engine `e` took the unit `u`: the step, and its units appended to `OUT`. -/
def afterUnit (e : Engine) (u : Byte) (s : State) : State :=
  appendOut (engineStep e u s).2.units (engineStep e u s).1

/-- `Consumes e us s t`: from `s` the loop of R92 consumes the units `us` in order, each with its gate open and its step
answered `OK`, and is then in `t`. -/
inductive Consumes (e : Engine) : List Byte → State → State → Prop
  | nil (s : State) : Consumes e [] s s
  | cons {s t : State} {u : Byte} {us : List Byte} (htakes : TakesUnit e s)
    (hok : (engineStep e u s).2.status = .ok) (h : Consumes e us (afterUnit e u s) t) : Consumes e (u :: us) s t

/-- `Halts e m ys t c`: in `m` with the units `ys` left, the loop of R92 consumes no further unit and ends in `t` with
code `c`. One case for each line that returns, in the rule's order. -/
inductive Halts (e : Engine) (m : State) : List Byte → State → AdpCode → Prop
  | faulted (ys : List Byte) (hf : m.fault.kind ≠ .none) : Halts e m ys m .aborted
  | done (hf : m.fault.kind = .none) : Halts e m [] m .consumedAll
  | held (u : Byte) (ys : List Byte) {t : State} {c : AdpCode} (hf : m.fault.kind = .none)
    (hh : heldError e m = some (t, c)) : Halts e m (u :: ys) t c
  | full (u : Byte) (ys : List Byte) (hf : m.fault.kind = .none) (hh : heldError e m = none)
    (hg : remaining m.output < reserve e m.config) : Halts e m (u :: ys) m .outOfSpace
  | failed (u : Byte) (ys : List Byte) (htakes : TakesUnit e m) (hok : (engineStep e u m).2.status ≠ .ok) :
    Halts e m (u :: ys) (engineStep e u m).1 (stepCode (engineStep e u m).2.status)

theorem afterUnit_frame (e : Engine) (u : Byte) (s : State) : SameFrame s (afterUnit e u s) :=
  (engineStep_frame e u s).1.trans (appendOut_frame _ _)

/-- What the loop of R92 can do: consume the first units of its input, and then stop. -/
theorem exists_consumes_halts (e : Engine) (us : List Byte) (s : State) :
    ∃ xs ys m t c, us = xs ++ ys ∧ Consumes e xs s m ∧ Halts e m ys t c := by
  have stop {us : List Byte} {s t : State} {c : AdpCode} (h : Halts e s us t c) :
      ∃ xs ys m t c, us = xs ++ ys ∧ Consumes e xs s m ∧ Halts e m ys t c := ⟨[], us, s, t, c, rfl, .nil s, h⟩
  induction us generalizing s with
  | nil =>
    by_cases hf : s.fault.kind = .none
    · exact stop (.done hf)
    · exact stop (.faulted [] hf)
  | cons u us ih =>
    by_cases hf : s.fault.kind = .none
    · cases hh : heldError e s with
      | some tc => exact stop (.held u us hf hh)
      | none =>
        by_cases hg : remaining s.output < reserve e s.config
        · exact stop (.full u us hf hh hg)
        · by_cases hok : (engineStep e u s).2.status = .ok
          · obtain ⟨xs, ys, m, t, c, rfl, hxs, hys⟩ := ih (afterUnit e u s)
            exact ⟨u :: xs, ys, m, t, c, rfl, .cons ⟨hf, hh, hg⟩ hok hxs, hys⟩
          · exact stop (.failed u us ⟨hf, hh, hg⟩ hok)
    · exact stop (.faulted _ hf)

section
variable {e : Engine} {s t m : State} {us xs ys : List Byte} {c : AdpCode}

theorem transcodeFrom_of_takesUnit (h : TakesUnit e s) {u : Byte} (hok : (engineStep e u s).2.status = .ok)
    (us : List Byte) (k : Nat) : transcodeFrom e (u :: us) k s = transcodeFrom e us (k + 1) (afterUnit e u s) := by
  obtain ⟨hf, hh, hg⟩ := h
  exact transcodeFrom_of_ok hf hh hg hok us k

theorem Consumes.loop_eq (h : Consumes e xs s m) (ys : List Byte) (k : Nat) :
    transcodeFrom e (xs ++ ys) k s = transcodeFrom e ys (k + xs.length) m := by
  induction h generalizing k with
  | nil => rfl
  | @cons s t u us htakes hok _ ih =>
    rw [List.cons_append, transcodeFrom_of_takesUnit htakes hok, ih, List.length_cons, Nat.add_assoc, Nat.add_comm 1]

theorem Halts.loop_eq (h : Halts e m ys t c) (k : Nat) : transcodeFrom e ys k m = (t, stoppedAt c k) := by
  cases h with
  | faulted ys hf => exact transcodeFrom_of_faulted hf e ys k
  | done hf => rw [transcodeFrom_nil, if_neg (not_not.mpr hf)]
  | held u ys hf hh => exact transcodeFrom_of_held hf hh u ys k
  | full u ys hf hh hg => exact transcodeFrom_of_full hf hh hg u ys k
  | failed u ys htakes hok =>
    obtain ⟨hf, hh, hg⟩ := htakes
    exact transcodeFrom_of_stop hf hh hg hok ys k

theorem Consumes.frame (h : Consumes e xs s m) : SameFrame s m := by
  induction h with
  | nil s => exact .refl s
  | @cons s t u us _ _ _ ih => exact (afterUnit_frame e u s).trans ih

theorem Halts.frame (h : Halts e m ys t c) : SameFrame m t ∧ t.output = m.output := by
  cases h with
  | faulted | done | full => exact ⟨.refl _, rfl⟩
  | held u ys hf hh => exact heldError_frame hh
  | failed u ys => exact engineStep_frame e u m

theorem Consumes.takes_each (h : Consumes e xs s m) {j : Nat} (hj : j < xs.length) :
    ∃ n, Consumes e (xs.take j) s n ∧ TakesUnit e n := by
  induction h generalizing j with
  | nil => exact absurd hj (Nat.not_lt_zero j)
  | @cons s t u us htakes hok _ ih =>
    cases j with
    | zero => exact ⟨s, .nil s, htakes⟩
    | succ j =>
      obtain ⟨n, hn, hn'⟩ := ih (Nat.lt_of_succ_lt_succ hj)
      exact ⟨n, .cons htakes hok hn, hn'⟩

/-! ## The same units as commands -/

theorem issueAll_of_ok (hw : s.config.wf = true) {u : Byte} (hok : (engineStep e u s).2.status = .ok)
    (us : List Byte) : issueAll e (u :: us) s = issueAll e us (replied (engineStep e u s)) := by
  simp [issueAll, exec_stepOf, answerCommand_eq_replied hw, lastStatus_replied, hok]

theorem emitted_replied_engineStep (e : Engine) (u : Byte) (s : State) :
    emitted (replied (engineStep e u s)) = emitted s ++ (engineStep e u s).2.units := by
  obtain ⟨⟨-, -, -, -, hreplies⟩, -⟩ := engineStep_frame e u s
  rw [replied, emitted_pushReply_response, emitted_congr hreplies]

/-- On the units the loop consumes, the engine's step commands all answer `OK`, write the same registers, and emit what
the loop appends to `OUT`. -/
theorem Consumes.issued (h : Consumes e xs s m) {s' : State} (hw : s'.config.wf = true) (hsame : SameRun s s') :
    ∃ m' w, issueAll e xs s' = some m' ∧ SameRun m m' ∧ emitted m' = emitted s' ++ w ∧
      m.output = { s.output with data := s.output.data ++ w } := by
  induction h generalizing s' with
  | nil s => exact ⟨s', [], rfl, hsame, by simp, by simp⟩
  | @cons s t u us htakes hok _ ih =>
    obtain ⟨hstep, hresp⟩ := (engineStep_commandOf e u).sameRun hsame
    obtain ⟨-, hout⟩ := engineStep_frame e u s
    obtain ⟨⟨hcfg, -⟩, -⟩ := engineStep_frame e u s'
    have hw' : (replied (engineStep e u s')).config.wf = true := by
      rw [replied, State.pushReply_config, hcfg]; exact hw
    obtain ⟨m', w, hm, hsame', hemit, ho⟩ := ih hw' hstep
    refine ⟨m', (engineStep e u s').2.units ++ w, ?_, hsame', ?_, ?_⟩
    · rw [issueAll_of_ok hw (hresp ▸ hok), hm]
    · rw [hemit, emitted_replied_engineStep, List.append_assoc]
    · rw [ho, afterUnit, appendOut_output, hout, hresp, List.append_assoc]

/-- The reserve was free before each consumed unit, as the commands' outputs say (43_adapter.md R91). -/
theorem Consumes.gate_before_each (h : Consumes e xs s m) (hw : s.config.wf = true) {j : Nat}
    (hj : j < xs.length) :
    ∃ n w, issueAll e (xs.take j) s = some n ∧ emitted n = emitted s ++ w ∧
      reserveOf e s.config ≤ s.output.cap - (s.output.data.length + w.length) := by
  obtain ⟨t, ht, -, -, hg⟩ := h.takes_each hj
  obtain ⟨n, w, hissue, -, hemit, hout⟩ := ht.issued hw (.refl s)
  obtain ⟨hcfg, -⟩ := ht.frame
  rw [hcfg, hout, remaining_eq, List.length_append] at hg
  exact ⟨n, w, hissue, hemit, reserveOf_eq e s.config ▸ Nat.not_lt.mp hg⟩

/-! ## The failing unit -/

/-- A step that the adapter runs and that does not answer `OK` is one of the decoder: an invalid symbol, which leaves
the fault register alone, or a fault (43_adapter.md R92). -/
theorem TakesUnit.engineStep_fails (h : TakesUnit e s) {u : Byte} (hok : (engineStep e u s).2.status ≠ .ok) :
    e = .dec ∧
      (((engineStep e u s).2.status = .invalidSymbol ∧ (engineStep e u s).1.fault = s.fault) ∨
        ((engineStep e u s).2.status = .fault ∧ (engineStep e u s).1.fault.kind ≠ .none)) := by
  obtain ⟨hf, hh, -⟩ := h
  cases e with
  | enc =>
    obtain ⟨r, n, us, h, -⟩ := encStep_of_unfaulted hf u
    exact absurd (by rw [engineStep, h]; rfl) hok
  | dec =>
    refine ⟨rfl, ?_⟩
    simp only [engineStep] at hok ⊢
    rcases decPrologue_cases s _ with ⟨hf', -⟩ | ⟨-, -, h⟩ | ⟨-, -, he, -⟩ | ⟨hr, -⟩
    · exact absurd hf hf'
    · exact .inr (by rw [decStep, h]; exact ⟨rfl, by simp⟩)
    · exact absurd (heldError_dec_eq_none_iff.mp hh) he
    · rcases decStep_of_ready hr u with h | ⟨m, a, us, h, -⟩
      · exact .inl (by rw [h]; exact ⟨rfl, rfl⟩)
      · exact absurd (by rw [h]; rfl) hok

/-- What a repeated error says of the decoder: it holds one, and the two kinds of R104 give their code. -/
theorem heldError_cases (h : heldError e s = some (t, c)) :
    e = .dec ∧ s.dec.errKind ≠ .none ∧ (c = .malformed ∨ c = .underflow) ∧
      (s.dec.errKind = .invalidSymbol → c = .malformed) ∧ (s.dec.errKind = .incompleteStream → c = .underflow) ∧
      SameRegisters t s ∧ t.fault = s.fault := by
  obtain ⟨⟨n, ht⟩, hc⟩ := heldError_effect h
  obtain ⟨rfl, hk⟩ := heldError_ne_none_iff.mp (by simp [h] : heldError e s ≠ none)
  have code {c' : AdpCode} (h' : heldError .dec s = some (s, c')) : c = c' :=
    congrArg Prod.snd (Option.some.inj (h.symm.trans h'))
  exact ⟨rfl, hk, hc, fun hi => code (heldError_of_invalidSymbol hi),
    fun hi => code (heldError_of_incompleteStream hi), ht ▸ sameRegisters_of_eq rfl rfl rfl, ht ▸ rfl⟩

/-- The step that made the loop stop, as a command at a state with the same registers. -/
theorem exec_stepOf_of_sameRun (hsame : SameRun m t) (hw : t.config.wf = true) (u : Byte) :
    ∃ n, exec (stepOf e u) t = .next n ∧ lastStatus n = some (engineStep e u m).2.status ∧
      SameRegisters (engineStep e u m).1 n := by
  obtain ⟨⟨hregs, -⟩, hresp⟩ := (engineStep_commandOf e u).sameRun hsame
  refine ⟨_, (exec_stepOf e u t).trans (answerCommand_eq_replied hw _), ?_, hregs⟩
  rw [lastStatus_replied, hresp]

end

/-- Settles O33: the loop consumes units as the step commands would take them, and each of its stops is one of the
listed reasons. -/
theorem transcodeRefinesEngineCommands : Obligations.TranscodeRefinesEngineCommands := by
  intro e s hw
  obtain ⟨xs, ys, m, t, c, hin, hxs, hys⟩ := exists_consumes_halts e s.input s
  have hrun : transcodeFrom e s.input 0 s = (t, stoppedAt c xs.length) := by
    rw [hin, hxs.loop_eq, hys.loop_eq, Nat.zero_add]
  obtain ⟨m', w, hissue, hsame, hemit, hout⟩ := hxs.issued hw (.refl s)
  obtain ⟨hcfg, -, -, -, hreplies⟩ := hxs.frame
  obtain ⟨⟨-, -, -, -, hreplies'⟩, hout'⟩ := hys.frame
  have htake {j : Nat} (hj : j ≤ xs.length) : s.input.take j = xs.take j := by
    rw [hin, List.take_append_of_le_length hj]
  refine ⟨resulted t c xs.length, m', stoppedAt c xs.length, w, exec_transcodeOf_of_stoppedAt hw hrun, ?_, rfl,
    ?_, ?_, hemit, hout'.trans hout, fun j hj => ?_, ?_⟩
  · exact congrArg (· ++ _) (hreplies'.trans hreplies)
  · simp [hin]
  · rw [stoppedAt_consumed, htake le_rfl, List.take_length]; exact hissue
  · rw [htake (Nat.le_of_lt hj)]; exact hxs.gate_before_each hw hj
  · have hw' : m'.config.wf = true := by
      obtain ⟨-, hcfg', -⟩ := hsame
      rw [← hcfg', hcfg]; exact hw
    have ⟨hregs, _⟩ := hsame
    have ⟨⟨_, hk, _⟩, _, hf'⟩ := hregs
    cases hys with
    | faulted ys hf => exact ⟨hf, .inl ⟨hf' ▸ hf, hregs⟩⟩
    | done hf => exact ⟨by simp [hin], hf, hregs⟩
    | full u ys hf hh hg =>
      rw [hcfg, ← reserveOf_eq] at hg
      exact ⟨by simp [hin], hf, (heldError_eq_none_iff (s := m)).mp hh, hg, hregs⟩
    | held u ys hf hh =>
      obtain ⟨rfl, hkind, hc, hinvalid, hincomplete, hheld, hft⟩ := heldError_cases hh
      rcases hc with rfl | rfl <;>
        exact ⟨by simp [hin], rfl, hft ▸ hf,
          .inl ⟨hk ▸ hkind, hk ▸ hinvalid, hk ▸ hincomplete, sameRegisters_trans hheld hregs⟩⟩
    | failed u ys htakes hok =>
      obtain ⟨n, hexec, hlast, hregs'⟩ := exec_stepOf_of_sameRun (e := e) hsame hw' u
      have ⟨hf, hh, hg⟩ := htakes
      rw [hcfg, ← reserveOf_eq] at hg
      have hroom : reserveOf e s.config ≤ roomOf (engineStep e u m).1.output := hout' ▸ Nat.not_lt.mp hg
      have hu : s.input[xs.length]? = some u := by simp [hin]
      obtain ⟨rfl, ⟨hst, hfault⟩ | ⟨hst, hfault⟩⟩ := htakes.engineStep_fails hok
      · rw [hst] at hlast ⊢
        exact ⟨by simp [hin], rfl, hfault ▸ hf, .inr ⟨u, n, hu, hk ▸ heldError_dec_eq_none_iff.mp hh, hroom, hexec,
          hlast, rfl, hregs'⟩⟩
      · rw [hst] at hlast ⊢
        exact ⟨hfault, .inr ⟨u, n, hu, fun _ => hk ▸ heldError_dec_eq_none_iff.mp hh, hroom, hexec, hlast, hregs'⟩⟩

end Sys2Proof.Machine
end

section
/-! # TRANSCODE with room (43_adapter.md R92, R102) -/

namespace Sys2Proof.Machine

open Sys2Proof.Claims

/-! ## Consuming everything -/

section
variable {e : Engine} {s m : State} {us : List Byte}

/-- Where every unit of a kind is answered `OK` in the states `P`, which the step keeps, a roomy buffer lets the loop
consume any number of such units. -/
theorem exists_consumes_of_roomy {P : State → Prop} {ok : Byte → Prop}
    (hfree : ∀ t, P t → t.fault.kind = .none ∧ heldError e t = none)
    (hstep : ∀ t u, P t → ok u → (engineStep e u t).2.status = .ok ∧ P (afterUnit e u t))
    (hs : P s) (hus : ∀ u ∈ us, ok u) (hroom : Roomy e s.config us s.output) : ∃ m, Consumes e us s m ∧ P m := by
  induction us generalizing s with
  | nil => exact ⟨s, .nil s, hs⟩
  | cons u us ih =>
    obtain ⟨hu, hus⟩ := List.forall_mem_cons.mp hus
    obtain ⟨hf, hh⟩ := hfree s hs
    obtain ⟨hok, hs'⟩ := hstep s u hs hu
    obtain ⟨m, hm, hPm⟩ := ih hs' hus (roomy_after_step hroom (engineStep_units_le e u s))
    exact ⟨m, .cons ⟨hf, hh, gate_open_of_roomy hroom⟩ hok hm, hPm⟩

/-- A request whose whole `IN` was consumed answers `CONSUMED_ALL`, and the step commands on `IN` do the same. -/
theorem Consumes.all (h : Consumes e s.input s m) (hw : s.config.wf = true) (hf : m.fault.kind = .none) :
    ∃ m' w, issueAll e s.input s = some m' ∧ emitted m' = emitted s ++ w ∧ SameRegisters m m' ∧
      m.output = { s.output with data := s.output.data ++ w } ∧
      exec (transcodeOf e) s = .next (resulted m .consumedAll s.input.length) := by
  obtain ⟨m', w, hissue, ⟨hregs, -⟩, hemit, hout⟩ := h.issued hw (.refl s)
  refine ⟨m', w, hissue, hemit, hregs, hout, exec_transcodeOf_of_stoppedAt hw ?_⟩
  have hloop := h.loop_eq [] 0
  rw [List.append_nil, transcodeFrom_nil, if_neg (not_not.mpr hf), Nat.zero_add] at hloop
  exact hloop

end

/-! ## Alphabet symbols -/

/-- A live decoder with no padding in progress, reached from `s` by writing the decoder and `OUT` only. -/
def ReadsSymbols (s t : State) : Prop :=
  DecLive t ∧ t.dec.mode ∈ [DecMode.start, .second, .third, .fourth] ∧ ∃ d o, t = { s with dec := d, output := o }

section
variable {s t : State} {u : Byte} {v : Sextet}

theorem decStep_symbol (hlive : DecLive t) (hm : t.dec.mode ∈ [DecMode.start, .second, .third, .fourth])
    (hu : cls u = .valid v) :
    ∃ m a us, decStep u t = (t.setDec { t.dec with mode := m, acc := a }, .emitting us) ∧ m.illegal = false ∧
      m ∈ [DecMode.start, .second, .third, .fourth] := by
  have hbody {m : DecMode} (h : t.dec.mode = m) := decStep_eq_decModeStep (decReady_of_decLive hlive) h u
  simp only [List.mem_cons, List.not_mem_nil, or_false] at hm
  rcases hm with h | h | h | h
  · exact ⟨.second, _, _, by rw [hbody h, decModeStep, decStart, hu], rfl, by decide⟩
  · exact ⟨.third, _, _, by rw [hbody h, decModeStep, decSecond, hu], rfl, by decide⟩
  · exact ⟨.fourth, _, _, by rw [hbody h, decModeStep, decThird, hu], rfl, by decide⟩
  · exact ⟨.start, t.dec.acc, _, by rw [hbody h, decModeStep, decFourth, hu], rfl, by decide⟩

theorem ReadsSymbols.step (h : ReadsSymbols s t) (hu : ∃ v, cls u = .valid v) :
    (engineStep .dec u t).2.status = .ok ∧ ReadsSymbols s (afterUnit .dec u t) := by
  obtain ⟨hlive, hm, d, o, rfl⟩ := h
  obtain ⟨v, hv⟩ := hu
  obtain ⟨m, a, us, hstep, hl, hm'⟩ := decStep_symbol hlive hm hv
  obtain ⟨hrun, -, he⟩ := hlive
  rw [afterUnit, engineStep, hstep]
  exact ⟨rfl, ⟨hrun, hl, he⟩, hm', _, _, rfl⟩

end

/-- Settles O34: in these modes every symbol is answered `OK` and leads to one of them. -/
theorem decTranscodeConsumesSymbols : Obligations.DecTranscodeConsumesSymbols := by
  intro s hlive hm hus hroom
  obtain ⟨m, hcons, ⟨⟨-, hf⟩, -⟩, -, d, o, hm⟩ := exists_consumes_of_roomy (e := .dec) (P := ReadsSymbols s)
    (fun t ⟨⟨⟨_, hf⟩, _, he⟩, _⟩ => ⟨hf, heldError_dec_eq_none_iff.mpr he⟩) (fun t u h hu => h.step hu)
    ⟨hlive, hm, s.dec, s.output, rfl⟩ hus hroom
  have ⟨⟨hw, _⟩, _⟩ := hlive
  obtain ⟨m', w, hissue, hemit, ⟨hdec, -⟩, hout, hexec⟩ := hcons.all hw hf
  subst hm
  exact ⟨m', w, d, hissue, hemit, hdec, .of_eq (hexec.trans (by rw [← hout]))⟩

/-! ## Any bytes -/

/-- An unfaulted block, reached from `s` by writing the encoder, the counter of the free values and `OUT` only. -/
def ReadsBytes (s t : State) : Prop :=
  Running t ∧ ∃ r n o, t = { s with enc := r, freeCount := n, output := o }

theorem ReadsBytes.step {s t : State} (h : ReadsBytes s t) (b : Byte) :
    (engineStep .enc b t).2.status = .ok ∧ ReadsBytes s (afterUnit .enc b t) := by
  obtain ⟨⟨hw, hf⟩, r, n, o, rfl⟩ := h
  obtain ⟨r', n', us, hstep, -⟩ := encStep_of_unfaulted hf b
  rw [afterUnit, engineStep, hstep]
  exact ⟨rfl, ⟨hw, hf⟩, r', n', _, rfl⟩

/-- Settles O35: an unfaulted encoder answers every byte `OK`. -/
theorem encTranscodeConsumesAnyBytes : Obligations.EncTranscodeConsumesAnyBytes := by
  intro s hs hroom
  have ⟨hw, _⟩ := hs
  obtain ⟨m, hcons, ⟨-, hf⟩, r, n, o, hm⟩ := exists_consumes_of_roomy (e := .enc) (P := ReadsBytes s)
    (ok := fun _ => True) (fun t ⟨⟨_, hf⟩, _⟩ => ⟨hf, rfl⟩) (fun t b h _ => h.step b)
    ⟨hs, s.enc, s.freeCount, s.output, rfl⟩ (fun _ _ => trivial) hroom
  obtain ⟨m', w, hissue, hemit, ⟨-, henc, -⟩, hout, hexec⟩ := hcons.all hw hf
  subst hm
  exact ⟨m', w, r, n, hissue, hemit, henc, .of_eq (hexec.trans (by rw [← hout]))⟩

end Sys2Proof.Machine
end

section
/-! # Requests that run out of room (43_adapter.md R101) -/

namespace Sys2Proof.Machine

open Sys2Proof.Claims

section
variable {e : Engine} {s s' m m' t : State} {xs ys : List Byte} {c : AdpCode}

theorem heldError_eq_none_of_sameRun (hsame : SameRun s s') (hh : heldError e s = none) : heldError e s' = none := by
  obtain ⟨⟨⟨-, hk, -⟩, -⟩, -⟩ := hsame
  rw [heldError_eq_none_iff] at hh ⊢
  exact hk ▸ hh

/-- What a run consumes, a run with room consumes alike, and has room for the units after it. -/
theorem Consumes.with_room (h : Consumes e xs s m) (hsame : SameRun s s')
    (hroom : Roomy e s'.config (xs ++ ys) s'.output) :
    ∃ m' w, Consumes e xs s' m' ∧ SameRun m m' ∧ Roomy e m'.config ys m'.output ∧
      m.output.data = s.output.data ++ w ∧ m'.output.data = s'.output.data ++ w := by
  induction h generalizing s' with
  | nil s => exact ⟨s', [], .nil s', hsame, hroom, by simp, by simp⟩
  | @cons s t u us htakes hok _ ih =>
    obtain ⟨hf, hh, -⟩ := htakes
    have ⟨⟨_, _, hf'⟩, _⟩ := hsame
    obtain ⟨hstep, hresp⟩ := (engineStep_commandOf e u).sameRun hsame
    obtain ⟨-, ho⟩ := engineStep_frame e u s
    obtain ⟨-, ho'⟩ := engineStep_frame e u s'
    obtain ⟨m', w, hm, hsame', hroom', hw, hw'⟩ :=
      ih (s' := afterUnit e u s') hstep (roomy_after_step hroom (engineStep_units_le e u s'))
    have htakes' : TakesUnit e s' :=
      ⟨hf' ▸ hf, heldError_eq_none_of_sameRun hsame hh, gate_open_of_roomy hroom⟩
    refine ⟨m', (engineStep e u s).2.units ++ w, .cons htakes' (hresp ▸ hok) hm, hsame', hroom', ?_, ?_⟩
    · rw [hw, afterUnit, appendOut_output, ho, List.append_assoc]
    · rw [hw', afterUnit, appendOut_output, ho', hresp, List.append_assoc]

/-- A stop that moved the block stops its engine for good, and a run with room stops there as well. -/
theorem Halts.with_room (h : Halts e m ys t c) (hsame : SameRun m m') (hroom : Roomy e m'.config ys m'.output)
    (k : Nat) :
    t = m ∨ (Stopped e t ∧ SameRegisters t (transcodeFrom e ys k m').1 ∧
      (transcodeFrom e ys k m').1.output = m'.output) := by
  have ⟨⟨_, _, hf'⟩, _⟩ := hsame
  cases h with
  | faulted | done | full => exact .inl rfl
  | held u ys hf hh =>
    rcases heldError_sameRun hsame e with ⟨hh', -⟩ | ⟨a, b, c, ha, hb, hab, -⟩
    · cases hh.symm.trans hh'
    · cases hh.symm.trans ha
      obtain ⟨rfl, hk, -, -, -, ⟨⟨-, hk', -⟩, -⟩, -⟩ := heldError_cases hh
      obtain ⟨-, ho⟩ := heldError_frame hb
      rw [transcodeFrom_of_held (hf' ▸ hf) hb]
      exact .inr ⟨.inr ⟨rfl, hk' ▸ hk⟩, hab, ho⟩
  | failed u ys htakes hok =>
    obtain ⟨hf, hh, -⟩ := htakes
    obtain ⟨⟨hstep, -⟩, hresp⟩ := (engineStep_commandOf e u).sameRun hsame
    obtain ⟨-, ho⟩ := engineStep_frame e u m'
    rw [transcodeFrom_of_stop (hf' ▸ hf) (heldError_eq_none_of_sameRun hsame hh) (gate_open_of_roomy hroom)
      (hresp ▸ hok)]
    exact .inr ⟨engineStep_stopped hok, hstep, ho⟩

end

/-- A run in any buffer, and then a run with room on the units it left: together one run with room. -/
theorem transcodeFrom_resume {e : Engine} {s s0 : State} (h : SameRun s s0) {us : List Byte}
    (hroom : Roomy e s0.config us s0.output) :
    ∃ t c k w, transcodeFrom e us 0 s = (t, stoppedAt c k) ∧ t.output.data = s.output.data ++ w ∧
      ∀ s2, SameRun s2 t → Roomy e s2.config (us.drop k) s2.output →
        ∃ x, SameRegisters (transcodeFrom e (us.drop k) 0 s2).1 (transcodeFrom e us 0 s0).1 ∧
          (transcodeFrom e (us.drop k) 0 s2).1.output.data = s2.output.data ++ x ∧
          (transcodeFrom e us 0 s0).1.output.data = s0.output.data ++ (w ++ x) := by
  obtain ⟨xs, ys, m, t, c, rfl, hxs, hys⟩ := exists_consumes_halts e us s
  obtain ⟨m', w, hxs', hsame, hroom', hw, hw'⟩ := hxs.with_room h hroom
  obtain ⟨-, ho⟩ := hys.frame
  refine ⟨t, c, xs.length, w, by rw [hxs.loop_eq, hys.loop_eq, Nat.zero_add], ho ▸ hw, ?_⟩
  rw [List.drop_left, hxs'.loop_eq]
  intro s2 h2 hroom2
  rcases hys.with_room hsame hroom' (0 + xs.length) with rfl | ⟨hstopped, hregs, ho'⟩
  · obtain ⟨⟨hregs, -⟩, -, x, hx, hx', -⟩ :=
      transcodeFrom_sameOutcome e ys 0 (0 + xs.length) (h2.trans hsame) hroom2 hroom'
    exact ⟨x, hregs, hx, by rw [hx', hw', List.append_assoc]⟩
  · obtain ⟨hregs2, -⟩ := h2
    obtain ⟨n, hn⟩ := transcodeFrom_of_stopped ((stopped_congr hregs2).mpr hstopped) ys 0
    rw [hn, ho', hw']
    exact ⟨[], sameRegisters_trans hregs2 hregs, by simp, by simp⟩

theorem roomy_drop {e : Engine} {c : Config} {us : List Byte} {o : OutBuf} (h : Roomy e c us o) (k : Nat) :
    Roomy e c (us.drop k) o := by
  refine le_trans (Nat.mul_le_mul_left _ ?_) h
  rw [List.length_drop]
  omega

theorem lastResult_resulted (t : State) (c : AdpCode) (k : Nat) :
    lastResult (resulted t c k) = some (stoppedAt c k) := by
  simp [lastResult, resulted, stoppedAt]

@[simp] theorem resulted_output (t : State) (c : AdpCode) (k : Nat) : (resulted t c k).output = t.output := rfl

theorem drive_cons {e : Engine} {s t : State} {us : List Byte} {cap : Nat} {c : AdpCode} {k : Nat}
    (h : exec (transcodeOf e) (given s us { cap := cap, data := [] }) = .next (resulted t c k)) (caps : List Nat) :
    drive e (cap :: caps) us s =
      (drive e caps (us.drop k) (resulted t c k)).map fun p => (p.1, p.2.1, t.output.data ++ p.2.2) := by
  simp [drive, h, lastResult_resulted]

/-- Settles O41, by induction over the capacities: each request and the rest of the loop are one run with room. -/
theorem backPressureLosesNothing : Obligations.BackPressureLosesNothing := by
  intro e s us caps big hw hroom
  induction caps generalizing s us with
  | nil =>
    obtain ⟨r, hexec⟩ := exec_transcodeOf e hw us big
    obtain ⟨-, x, hx⟩ := transcodeFrom_frame e us 0 (given s us big)
    exact ⟨_, s, us, [], _, x, hexec, rfl, hexec, sameRegisters_of_eq rfl rfl rfl, hx.symm, hx.symm⟩
  | cons cap caps ih =>
    obtain ⟨r, hexec⟩ := exec_transcodeOf e hw us big
    obtain ⟨t, c, k, w, hloop, hout, hresume⟩ := transcodeFrom_resume (s := given s us { cap := cap, data := [] })
      (s0 := given s us big) (.refl s) hroom
    have hfirst : exec (transcodeOf e) (given s us { cap := cap, data := [] }) = .next (resulted t c k) :=
      exec_transcodeOf_of_stoppedAt hw hloop
    obtain ⟨⟨hcfg, -⟩, -⟩ := transcodeFrom_frame e us 0 (given s us { cap := cap, data := [] })
    rw [hloop] at hcfg
    have hw' : (resulted t c k).config.wf = true := by
      rw [show (resulted t c k).config = s.config from hcfg]; exact hw
    have hroom' : Roomy e (resulted t c k).config (us.drop k) big := hcfg ▸ roomy_drop hroom k
    obtain ⟨t', f, rest, w', b, x, ht', hdrive, hb, hregs, hbout, htout⟩ := ih (resulted t c k) (us.drop k) hw' hroom'
    obtain ⟨r', hexec'⟩ := exec_transcodeOf e hw' (us.drop k) big
    obtain rfl := Host.Outcome.next.inj (ht'.symm.trans hexec')
    obtain ⟨x', hregs', hx', hx⟩ := hresume (given (resulted t c k) (us.drop k) big) (.refl t) hroom'
    obtain rfl : x' = w' ++ x := List.append_cancel_left (hx'.symm.trans htout)
    refine ⟨_, f, rest, w ++ w', b, x, hexec, ?_, hb, sameRegisters_trans hregs hregs', hbout, ?_⟩
    · rw [drive_cons hfirst, hdrive, hout]; rfl
    · rw [List.append_assoc]; exact hx

end Sys2Proof.Machine
end

section
/-! # Errors and faults (60_exceptions.md) -/

namespace Sys2Proof.Machine

open Sys2Proof.Claims

/-! ## The words of each port -/

theorem exec_of_command {i : Instr} (h : isDecCommand i = true ∨ isEncCommand i = true) :
    ∃ e body, CommandOf e body ∧ ∀ s, exec i s = answerCommand body s := by
  rcases h with h | h
  · exact ⟨.dec, exec_of_isDecCommand h⟩
  · exact ⟨.enc, exec_of_isEncCommand h⟩

/-- The words of the instructions stand on the ports of 30_encoding.md R47 and R54. -/
theorem command_of_decode {w : CommandWord} {i : Instr} (h : decode (.command w) = .instr i) :
    isDecCommand i = true ∨ isEncCommand i = true := by
  have hw : PortWord.command w = encode i := (decodeInvertsEncode _ _).mp h
  cases i with
  | decStep | decEof | decReset | decCheck => exact .inl rfl
  | encStep | encEof | encReset => exact .inr rfl
  | adpDecTranscode | adpDecFlush | adpEncTranscode | adpEncFlush => cases hw

theorem request_of_decode {w : RequestWord} {i : Instr} (h : decode (.request w) = .instr i) :
    ∃ e, i = transcodeOf e ∨ i = flushOf e := by
  have hw : PortWord.request w = encode i := (decodeInvertsEncode _ _).mp h
  cases i with
  | decStep | decEof | decReset | decCheck | encStep | encEof | encReset => cases hw
  | adpDecTranscode => exact ⟨.dec, .inl rfl⟩
  | adpDecFlush => exact ⟨.dec, .inr rfl⟩
  | adpEncTranscode => exact ⟨.enc, .inl rfl⟩
  | adpEncFlush => exact ⟨.enc, .inr rfl⟩

theorem eq_of_decode_command_reserved {w : CommandWord} {r : Reserved} (h : decode (.command w) = .reserved r) :
    r = .command w := by
  simp only [decode, decodeCommand] at h
  split_ifs at h
  cases h
  rfl

theorem eq_of_decode_request_reserved {w : RequestWord} {r : Reserved} (h : decode (.request w) = .reserved r) :
    r = .request w := by
  simp only [decode, decodeRequest] at h
  split_ifs at h
  cases h
  rfl

/-! ## The faulted block -/

section
variable {s : State}

/-- Every word of the command port, reserved or not, answers `FAULT` in a faulted block (60_exceptions.md R109). -/
theorem runWord_command_of_faulted (hw : s.config.wf = true) (hf : s.fault.kind ≠ .none) (w : CommandWord) :
    runWord (.command w) s = .next (answered s (endedBy .fault)) := by
  cases hd : decode (.command w) with
  | instr i =>
    obtain ⟨e, body, hb, hexec⟩ := exec_of_command (command_of_decode hd)
    rw [runWord_instr hd, hexec, answerCommand_eq_replied hw, hb.of_faulted hf, replied_ofStatus]
  | reserved r =>
    obtain rfl := eq_of_decode_command_reserved hd
    rw [runWord_reserved hd, execReserved, answerCommand_eq_replied hw, raiseFault_of_faulted hf, replied_ofStatus]

/-- Every word of the request port, reserved or not, answers `(ABORTED, 0, 0)` in a faulted block. -/
theorem runWord_request_of_faulted (hw : s.config.wf = true) (hf : s.fault.kind ≠ .none) (w : RequestWord) :
    runWord (.request w) s = .next (resulted s .aborted 0) := by
  cases hd : decode (.request w) with
  | instr i =>
    rw [runWord_instr hd]
    obtain ⟨e, rfl | rfl⟩ := request_of_decode hd
    · exact exec_transcodeOf_of_stoppedAt hw (transcodeFrom_of_faulted hf e _ 0)
    · exact exec_flushOf_of_stoppedAt hw (flush_of_faulted hf e)
  | reserved r =>
    obtain rfl := eq_of_decode_request_reserved hd
    rw [runWord_reserved hd, execReserved, answerRequest_of_wf hw, raiseFault_of_faulted hf]
    rfl

end

/-- Settles O42: an unfaulted block records the fault of a reserved word or of an illegal mode; a faulted one answers
every word of a port alike. -/
theorem faultedBlockAnswersOnlyFault : Obligations.FaultedBlockAnswersOnlyFault := by
  intro s hw
  refine ⟨fun hf w hd => .of_eq ?_, fun hf i hi n hn => ?_, fun hf w hd => .of_eq ?_,
    fun hf w => .of_eq (runWord_command_of_faulted hw hf w), fun hf w => .of_eq (runWord_request_of_faulted hw hf w),
    rfl⟩
  · rw [runWord_reserved hd, execReserved_request ⟨hw, hf⟩]
  · obtain ⟨-, h6, h7, -⟩ := decoderPrologueOrder i s hi hw
    rcases hn with ⟨rfl, hm⟩ | ⟨rfl, hm⟩
    · exact h6 hf hm
    · exact h7 hf hm
  · rw [runWord_reserved hd, execReserved_command ⟨hw, hf⟩]

/-! ## Commands that fail -/

/-- What a command hands back that ends with a status other than `OK`: the record of an error or of a fault, or nothing
where the decoder holds an error or the block a fault (60_exceptions.md R112). -/
inductive FailsPrecisely (s : State) : State × Response → Prop
  | fault (f : FaultReg) : FailsPrecisely s (s.setFault f, .ofStatus .fault)
  | sticky : FailsPrecisely s (s, .ofStatus .sticky)
  | error (k : ErrKind) (c : BitVec 9) {st : Status} (hsticky : st ≠ .sticky) (hfault : st ≠ .fault) :
    FailsPrecisely s (raiseError k c st s)

section
variable {s : State} {body : State → State × Response}

theorem decPrologue_failsPrecisely_or_ready (p : State × Response) :
    FailsPrecisely s (decPrologue s p) ∨ DecReady s := by
  rcases decPrologue_cases s p with ⟨-, e⟩ | ⟨-, -, e⟩ | ⟨-, -, -, e⟩ | ⟨hr, -⟩
  · exact .inl (e ▸ .fault s.fault)
  · exact .inl (e ▸ .fault _)
  · exact .inl (e ▸ .sticky)
  · exact .inr hr

theorem raiseInvalidSymbol_failsPrecisely (u : Byte) : FailsPrecisely s (raiseInvalidSymbol u s) :=
  .error _ _ (by decide) (by decide)

theorem raiseIncompleteStream_failsPrecisely : FailsPrecisely s (raiseIncompleteStream s) :=
  .error _ _ (by decide) (by decide)

theorem decStep_failsPrecisely {u : Byte} (hst : (decStep u s).2.status ≠ .ok) : FailsPrecisely s (decStep u s) := by
  rcases decPrologue_failsPrecisely_or_ready _ with h | hr
  · exact h
  · rcases decStep_of_ready hr u with e | ⟨m, a, us, e, -⟩
    · exact e ▸ raiseInvalidSymbol_failsPrecisely u
    · exact absurd (by rw [e]; rfl) hst

theorem decEof_failsPrecisely (hst : (decEof s).2.status ≠ .ok) : FailsPrecisely s (decEof s) := by
  rcases decPrologue_failsPrecisely_or_ready _ with h | hr
  · exact h
  · rcases decEof_of_ready hr with e | ⟨a, e⟩
    · exact e ▸ raiseIncompleteStream_failsPrecisely
    · exact absurd (by rw [e]; rfl) hst

theorem decCheck_failsPrecisely (hst : (decCheck s).2.status ≠ .ok) : FailsPrecisely s (decCheck s) := by
  rcases decPrologue_failsPrecisely_or_ready _ with h | hr
  · exact h
  · have e := decCheck_of_ready hr
    split at e
    · exact absurd (by rw [e]; rfl) hst
    · exact e ▸ raiseIncompleteStream_failsPrecisely

/-- In an unfaulted block the two resets and the encoder's commands answer `OK`. -/
theorem CommandOf.failsPrecisely {e : Engine} (hb : CommandOf e body) (hst : (body s).2.status ≠ .ok) :
    FailsPrecisely s (body s) := by
  by_cases hf : s.fault.kind = .none
  · cases hb with
    | decStep u => exact decStep_failsPrecisely hst
    | decEof => exact decEof_failsPrecisely hst
    | decCheck => exact decCheck_failsPrecisely hst
    | decReset | encReset => exact absurd (congrArg (·.2.status) (unlessFaulted_of_unfaulted hf _)) hst
    | encStep b =>
      obtain ⟨regs, n, us, h, -⟩ := encStep_of_unfaulted hf b
      exact absurd (by rw [h]; rfl) hst
    | encEof =>
      obtain ⟨regs, n, us, h, -⟩ := encEof_of_unfaulted hf
      exact absurd (by rw [h]; rfl) hst
  · exact hb.of_faulted hf ▸ .fault s.fault

end

/-- Settles O43, by the three ways in which a command can fail. -/
theorem errorsArePrecise : Obligations.ErrorsArePrecise := by
  intro i s t r h hlast hi hst
  obtain ⟨e, body, hb, hexec⟩ := exec_of_command hi
  obtain ⟨-, rfl⟩ := answerCommand_next_iff.mp (hexec s ▸ h)
  obtain rfl : (body s).2 = r := by simpa using hlast
  have hfails := hb.failsPrecisely hst
  simp only [State.pushReply_dec, State.pushReply_enc, State.pushReply_fault]
  generalize body s = p at hfails
  cases hfails with
  | fault f =>
    exact ⟨rfl, rfl, ⟨rfl, rfl, fun _ => rfl⟩, rfl, fun _ => rfl, fun hne => absurd rfl hne,
      fun _ => ⟨rfl, rfl, rfl, fun _ => rfl⟩⟩
  | sticky =>
    exact ⟨rfl, rfl, ⟨rfl, rfl, fun _ => rfl⟩, rfl, fun _ => rfl, fun _ => rfl,
      fun _ => ⟨rfl, rfl, rfl, fun _ => rfl⟩⟩
  | error k c hsticky hfault =>
    exact ⟨rfl, rfl, ⟨rfl, rfl, fun _ => rfl⟩, rfl, fun _ => rfl, fun _ => rfl,
      fun hor => absurd hor (not_or.mpr ⟨hsticky, hfault⟩)⟩

/-! ## The recorded error -/

section
variable {s t : State}

theorem flush_of_stopped {e : Engine} (h : Stopped e s) : ∃ n, (flush e s).1 = s.withEnc s.enc n := by
  by_cases hf : s.fault.kind = .none
  · have hheld : heldError e s ≠ none := heldError_ne_none_iff.mpr (h.resolve_left (not_not.mpr hf))
    obtain ⟨⟨t, c⟩, hh⟩ := Option.ne_none_iff_exists'.mp hheld
    rw [flush_of_held hf hh]
    obtain ⟨heffect, -⟩ := heldError_effect hh
    exact heffect
  · rw [flush_of_faulted hf]
    exact ⟨s.freeCount, rfl⟩

theorem decPrologue_keeps_dec (he : s.dec.errKind ≠ .none) (p : State × Response) :
    (decPrologue s p).1.dec = s.dec := by
  rcases decPrologue_cases s p with ⟨-, e⟩ | ⟨-, -, e⟩ | ⟨-, -, -, e⟩ | ⟨⟨-, -, hn⟩, -⟩
  · rw [e]
  · rw [e, State.setFault_dec]
  · rw [e]
  · exact absurd hn he

theorem Moves.enc_keeps_dec (h : Moves .enc s t) : t.dec = s.dec := by
  obtain ⟨d, e, f, n, w, rfl, rfl, -⟩ := h.writes
  rfl

theorem raiseFault_keeps_dec (k : FaultKind) (i : BitVec 16) : (raiseFault k i s).1.dec = s.dec := by
  obtain ⟨f, h⟩ := raiseFault_writes_fault k i s
  rw [h, State.setFault_dec]

theorem RequestBody.keeps_dec {body : State → State × AdpResult} (hb : RequestBody body)
    (he : s.dec.errKind ≠ .none) : (body s).1.dec = s.dec := by
  have hstopped : Stopped .dec s := .inr ⟨rfl, he⟩
  cases hb with
  | transcode e =>
    cases e with
    | dec =>
      obtain ⟨n, h⟩ := transcodeFrom_of_stopped hstopped s.input 0
      rw [Machine.transcode, h, State.withEnc_dec]
    | enc => exact (transcodeFrom_moves .refl s.input 0).enc_keeps_dec
  | flush e =>
    cases e with
    | dec =>
      obtain ⟨n, h⟩ := flush_of_stopped hstopped
      rw [h, State.withEnc_dec]
    | enc => exact (flush_moves .enc s).enc_keeps_dec
  | reserved r => exact raiseFault_keeps_dec _ _

theorem answerRequest_keeps_dec {body : State → State × AdpResult} (hb : RequestBody body)
    (he : s.dec.errKind ≠ .none) (h : answerRequest body s = .next t) : t.dec = s.dec := by
  obtain ⟨-, rfl⟩ := answerRequest_next_iff.mp h
  exact hb.keeps_dec he

/-- A request and every command but `DEC.RESET` leave a decoder that holds an error as it is (60_exceptions.md R110). -/
theorem exec_keeps_dec {i : Instr} (hi : i ≠ .decReset) (he : s.dec.errKind ≠ .none) (h : exec i s = .next t) :
    t.dec = s.dec := by
  cases i with
  | decStep | decEof | decCheck =>
    obtain ⟨-, rfl⟩ := answerCommand_next_iff.mp h
    exact decPrologue_keeps_dec he _
  | decReset => exact absurd rfl hi
  | encStep | encEof | encReset =>
    obtain ⟨hd, -⟩ := encCommand_frame rfl h
    exact hd
  | adpDecTranscode => exact answerRequest_keeps_dec (.transcode .dec) he h
  | adpDecFlush => exact answerRequest_keeps_dec (.flush .dec) he h
  | adpEncTranscode => exact answerRequest_keeps_dec (.transcode .enc) he h
  | adpEncFlush => exact answerRequest_keeps_dec (.flush .enc) he h

theorem runWord_keeps_dec {p : PortWord} (hp : p ≠ .command 0x200#12) (he : s.dec.errKind ≠ .none)
    (h : runWord p s = .next t) : t.dec = s.dec := by
  cases hd : decode p with
  | instr i =>
    have hi : i ≠ .decReset := by
      rintro rfl
      exact hp ((decodeInvertsEncode p .decReset).mp hd)
    exact exec_keeps_dec hi he (runWord_instr hd s ▸ h)
  | reserved r =>
    rw [runWord_reserved hd] at h
    cases r with
    | command w =>
      obtain ⟨-, rfl⟩ := answerCommand_next_iff.mp h
      exact raiseFault_keeps_dec _ _
    | request w => exact answerRequest_keeps_dec (.reserved (.request w)) he h

theorem step_keeps_dec (he : s.dec.errKind ≠ .none) (hreset : s.pending.head? ≠ some (.command 0x200#12))
    (hpower : s.pending.head? ≠ some .powerOn) (h : step s = .next t) : t.dec = s.dec := by
  cases hp : s.pending with
  | nil =>
    rw [step_idle hp] at h
    cases h
    rfl
  | cons ev rest =>
    rw [step_event hp] at h
    rw [hp, List.head?_cons] at hreset hpower
    cases ev with
    | command w =>
      have hw : PortWord.command w ≠ .command 0x200#12 := by
        rintro ⟨⟩
        exact hreset rfl
      exact runWord_keeps_dec (s := s.setPending rest) hw he h
    | request w us o => exact runWord_keeps_dec (s := (s.setPending rest).present us o) (by simp) he h
    | powerOn => exact absurd rfl hpower

end

/-- Settles O44: with an error recorded only the two resets write the decoder. -/
theorem decoderErrorStaysUntilReset : Obligations.DecoderErrorStaysUntilReset := by
  intro s t h he hreset hpower
  have hdec : t.dec = s.dec := step_keeps_dec he hreset hpower h
  exact ⟨congrArg DecRegs.errKind hdec, congrArg DecRegs.errCode hdec⟩

/-- Settles O39: the reserved kind is held as the others are, and repeating it writes the counter only. -/
theorem reservedErrorKindActsAsAnError : Obligations.ReservedErrorKindActsAsAnError := by
  intro s i hs hi hk
  have hheld : heldError .dec s ≠ none := heldError_ne_none_iff.mpr ⟨rfl, by rw [hk]; decide⟩
  obtain ⟨⟨t, c⟩, hh⟩ := Option.ne_none_iff_exists'.mp hheld
  obtain ⟨⟨n, rfl⟩, hc⟩ := heldError_effect hh
  exact ⟨c, n, hc, .of_eq (exec_of_held (e := .dec) hs hh hi)⟩

/-! ## The rendering of an error unit -/

theorem hexDigit_eq (upper : Bool) (d : BitVec 4) :
    hexDigit upper d =
      byteOf (if d.toNat < 10 then 0x30 + d.toNat
        else if upper then 0x41 + (d.toNat - 10) else 0x61 + (d.toNat - 10)) := by
  unfold hexDigit byteOf
  split_ifs <;> rfl

section
variable {code : BitVec 9}

/-- The two digits of a code up to 0xFF are its quotient and its remainder by 16. -/
theorem hexPair_digits (h : code.toNat ≤ 0xFF) :
    (code.extractLsb' 4 4).toNat = code.toNat / 16 ∧ (code.extractLsb' 0 4).toNat = code.toNat % 16 := by
  simp only [BitVec.extractLsb'_toNat, Nat.shiftRight_eq_div_pow]
  omega

theorem renderWith_of_printable (quote : Byte) (upper : Bool) (h : 0x20 ≤ code.toNat ∧ code.toNat ≤ 0x7E) :
    renderWith quote upper code = .text [quote, byteOf code.toNat, quote] := by
  have hne (k : BitVec 9) (hk : ¬ (0x20 ≤ k.toNat ∧ k.toNat ≤ 0x7E)) : code ≠ k := by
    rintro rfl
    exact hk h
  simp [renderWith, hne, h, byteOf]

theorem renderWith_of_unprintable (quote : Byte) (upper : Bool) (h : code.toNat ≤ 0xFF)
    (hcontrol : code ∉ [0x0D#9, 0x0A#9, 0x09#9, 0x0C#9]) (hprint : ¬ (0x20 ≤ code.toNat ∧ code.toNat ≤ 0x7E)) :
    renderWith quote upper code = .text ([0x5C#8, 0x78#8] ++ hexPair upper code) := by
  have hsymbol : code ≠ 0x100#9 := by
    rintro rfl
    exact absurd h (by decide)
  simp only [List.mem_cons, List.not_mem_nil, or_false, not_or] at hcontrol
  obtain ⟨hr, hn, ht, hf⟩ := hcontrol
  rw [renderWith, if_neg hsymbol, if_neg hr, if_neg hn, if_neg ht, if_neg hf, if_neg hprint, if_pos h]

end

/-- Settles O58: the closed codes by evaluation, the printable ones and the others by the test that takes them. -/
theorem renderingOfErrorUnits : Obligations.RenderingOfErrorUnits := by
  intro quote upper code _
  refine ⟨?_, ?_, ?_, ?_, ?_, renderWith_of_printable quote upper, fun h hcontrol hprint => ?_⟩
  iterate 5
    · rintro rfl
      rfl
  obtain ⟨hhigh, hlow⟩ := hexPair_digits h
  refine ⟨_, _, renderWith_of_unprintable quote upper h hcontrol hprint, fun d n hd => ?_⟩
  rcases hd with ⟨rfl, rfl⟩ | ⟨rfl, rfl⟩
  · rw [hexDigit_eq, hhigh]
  · rw [hexDigit_eq, hlow]

end Sys2Proof.Machine
end

section
/-! # Reset, and the end of a run (70_reset_and_hazards.md R124, R134) -/

namespace Sys2Proof.Machine

open Sys2Proof.Claims

/-! ## The reset table -/

section
variable {s : State}

theorem exec_decReset (h : Running s) :
    exec .decReset s = .next (answered (s.setDec State.reset.dec) (okWith [])) := by
  obtain ⟨hw, hf⟩ := h
  have hexec : exec .decReset s = .next (replied (decReset s)) := answerCommand_eq_replied hw decReset
  rw [hexec, decReset, unlessFaulted_of_unfaulted hf, replied_emitting]
  rfl

theorem exec_encReset (h : Running s) :
    exec .encReset s = .next (answered (s.setEnc State.reset.enc) (okWith [])) := by
  obtain ⟨hw, hf⟩ := h
  have hexec : exec .encReset s = .next (replied (encReset s)) := answerCommand_eq_replied hw encReset
  rw [hexec, encReset, unlessFaulted_of_unfaulted hf, replied_emitting]
  rfl

end

/-- Settles O48: power-on writes the values of `State.reset`, and so does each engine reset to its own registers. -/
theorem resetTable : Obligations.ResetTable :=
  ⟨⟨rfl, rfl, rfl, rfl⟩,
    fun _ _ hp => ⟨_, step_event hp, rfl, rfl, rfl, rfl⟩,
    fun _ hs => ⟨_, exec_decReset hs, rfl, ⟨rfl, rfl, fun _ => rfl⟩, rfl, rfl⟩,
    fun _ hs => ⟨_, exec_encReset hs, rfl, ⟨rfl, rfl, rfl, fun _ => rfl⟩, rfl, rfl⟩⟩

/-! ## What one word of each port answers -/

theorem runWord_command_body (w : CommandWord) :
    ∃ body, CommandBody body ∧ ∀ s, runWord (.command w) s = answerCommand body s := by
  cases hd : decode (.command w) with
  | instr i =>
    obtain ⟨e, body, hb, hexec⟩ := exec_of_command (command_of_decode hd)
    exact ⟨body, .engine hb, fun s => (runWord_instr hd s).trans (hexec s)⟩
  | reserved r =>
    obtain rfl := eq_of_decode_command_reserved hd
    exact ⟨_, .reserved (.command w), runWord_reserved hd⟩

theorem runWord_request_body (w : RequestWord) :
    ∃ body, RequestBody body ∧ ∀ s, runWord (.request w) s = answerRequest body s := by
  cases hd : decode (.request w) with
  | instr i =>
    obtain ⟨e, rfl | rfl⟩ := request_of_decode hd
    · exact ⟨_, .transcode e, fun s => (runWord_instr hd s).trans (by cases e <;> rfl)⟩
    · exact ⟨_, .flush e, fun s => (runWord_instr hd s).trans (by cases e <;> rfl)⟩
  | reserved r =>
    obtain rfl := eq_of_decode_request_reserved hd
    exact ⟨_, .reserved (.request w), runWord_reserved hd⟩

section
variable {s : State}

theorem runWord_command_responds (hw : s.config.wf = true) (w : CommandWord) :
    ∃ t r, runWord (.command w) s = .next t ∧ t.replies = s.replies ++ [.response r] := by
  obtain ⟨body, hb, hrun⟩ := runWord_command_body w
  obtain ⟨⟨-, -, -, -, hreplies⟩, -⟩ := hb.frame s
  exact ⟨_, (body s).2, (hrun s).trans (answerCommand_of_wf hw body), by rw [State.pushReply_replies, hreplies]⟩

/-- The result of a request hands back `OUT` as the request leaves it. -/
theorem runWord_request_results (hw : s.config.wf = true) (w : RequestWord) :
    ∃ t r, runWord (.request w) s = .next t ∧ t.replies = s.replies ++ [.result r t.output] := by
  obtain ⟨body, hb, hrun⟩ := runWord_request_body w
  obtain ⟨⟨-, -, -, -, hreplies⟩, -⟩ := hb.frame (s := s)
  exact ⟨_, (body s).2, (hrun s).trans (answerRequest_of_wf hw body), by rw [State.pushReply_replies, hreplies]; rfl⟩

/-! ## One event of a run, and the run -/

theorem runEvent_answers (hw : s.config.wf = true) (ev : HostEvent) :
    ∃ t rs, runEvent ev s = .next t ∧ t.config = s.config ∧ t.replies = s.replies ++ rs ∧
      (presentsEmpty ev = true → eventOutput ev s t = rs.flatMap Reply.units) := by
  cases ev with
  | command w =>
    obtain ⟨t, r, h, hr⟩ := runWord_command_responds hw w
    refine ⟨t, [.response r], h, runWord_config h, hr, fun _ => ?_⟩
    rw [List.flatMap_singleton]
    exact emittedSince_of_response hr
  | request w us o =>
    obtain ⟨t, r, h, hr⟩ := runWord_request_results (s := s.present us o) hw w
    refine ⟨t, [.result r t.output], h, runWord_config (s := s.present us o) h, hr, fun hempty => ?_⟩
    have ho : o.data = [] := of_decide_eq_true hempty
    rw [List.flatMap_singleton, eventOutput, ho]
    rfl
  | powerOn => exact ⟨s.powerOnReset, [], rfl, rfl, (List.append_nil _).symm, fun _ => rfl⟩

end

/-- A run of any events from any point of a run under a well-formed configuration: the replies it adds, and their units
after the output so far. -/
theorem runHost_answers (evs : List HostEvent) {e : RunEnd} (hw : e.state.config.wf = true) :
    ∃ e' rs, runHost evs e = .next e' ∧ e'.state.replies = e.state.replies ++ rs ∧
      (evs.all presentsEmpty = true → e'.output = e.output ++ rs.flatMap Reply.units) := by
  induction evs generalizing e with
  | nil => exact ⟨e, [], runHost_nil e, (List.append_nil _).symm, fun _ => (List.append_nil _).symm⟩
  | cons ev evs ih =>
    obtain ⟨t, rs, hev, hc, hr, hout⟩ := runEvent_answers hw ev
    obtain ⟨e', rs', hrest, hr', hout'⟩ :=
      ih (e := { state := t, output := e.output ++ eventOutput ev e.state t }) (hc ▸ hw)
    refine ⟨e', rs ++ rs', (runHost_cons_of_next (runOne_of_next hev) evs).trans hrest, ?_, fun hempty => ?_⟩
    · rw [hr', hr, List.append_assoc]
    · rw [List.all_cons, Bool.and_eq_true] at hempty
      obtain ⟨hfirst, hothers⟩ := hempty
      rw [hout' hothers, hout hfirst, List.flatMap_append, List.append_assoc]

/-- Settles O60: the start of a run holds no output yet. -/
theorem runEndsWithItsConcatenatedOutput : Obligations.RunEndsWithItsConcatenatedOutput :=
  fun evs s hw => runHost_answers evs (e := .start s) hw

end Sys2Proof.Machine
end
